-- ==== Sys2Proof/Word.lean ====
section
/-! DEFINITION. The word type of the transport (R20) and the level of a line (R37). -/

namespace Sys2Proof

/-- A transport data operand or result: a 32-bit unsigned value (R20, D3). -/
abbrev Word := BitVec 32

/-- The level of a line: `true` is level 1, `false` is level 0 (R10). -/
abbrev Level := Bool

end Sys2Proof
end

