-- ==== Sys2Proof/Config.lean ====
section
/-! DEFINITION. The parameters of 00_scope.md R7, as data: the names of devices, sensors, commands and
supplies, the bus configuration record, the `Board` record with every parameter, and the constants without
a body: the board at reset, the calibration functions and the environment's draws. -/

namespace Sys2Proof

/-- `VARIANT` (R7, R120): which of the two transports the block has. -/
inductive Variant where
  | softwareTimed
  | peripheralTimed
deriving DecidableEq, Repr, Inhabited

/-- `CFG.POL` (R29): the level the clock rests at. -/
inductive Polarity where
  | idleHigh
  | idleLow
deriving DecidableEq, Repr, Inhabited

/-- `CFG.PHA` (R30): which clock edge data-in is sampled on. -/
inductive Phase where
  | firstEdge
  | secondEdge
deriving DecidableEq, Repr, Inhabited

/-- `CFG.ORDER` (R31). -/
inductive BitOrder where
  | msbFirst
  | lsbFirst
deriving DecidableEq, Repr, Inhabited

/-- `CFG.WIDTH` (R32): 7 or 8 bits. -/
inductive WordWidth where
  | seven
  | eight
deriving DecidableEq, Repr, Inhabited

/-- BusConfig (R28): the five fields of `CFG`. -/
structure BusConfig where
  pol : Polarity
  pha : Phase
  order : BitOrder
  width : WordWidth
  loopback : Bool
deriving DecidableEq, Repr, Inhabited

/-- A mode: the pair (idle polarity, sample phase) (R14). -/
structure Mode where
  pol : Polarity
  pha : Phase
deriving DecidableEq, Repr, Inhabited

/-- An ADC identity (R60). The document names two; how many more the board has is open (N9, D22). -/
inductive AdcId where
  | temperatureAdc
  | tetherAdc
  | other (n : Nat)
deriving DecidableEq, Repr, Inhabited

/-- A device of the bus (R60): every ADC, one DAC, one digipot. -/
inductive Dev where
  | adc (a : AdcId)
  | dac
  | digipot
deriving DecidableEq, Repr, Inhabited

/-- The nine DAC commands by name (R193, R181 to R189). -/
inductive DacCommand where
  | writeOnly
  | updateOnly
  | writeAndUpdateOne
  | writeAndUpdateAll
  | powerOffChannel
  | powerOffChip
  | selectInternalReference
  | selectExternalReference
  | noOp
deriving DecidableEq, Repr, Inhabited

/-- A supply (R14). -/
inductive Supply where
  | heater
  | tetherBias
  | cathodeOffset
deriving DecidableEq, Repr, Inhabited

/-- The physical quantity tag of a sensor (R160). -/
inductive Quantity where
  | current
  | voltage
  | temperature
deriving DecidableEq, Repr, Inhabited

/-- The gate class of a sensor (R7, R241). -/
inductive SensorClass where
  | always
  | payloadOn
deriving DecidableEq, Repr, Inhabited

/-- The name of a sensor: a member of one of the groups of R241. The document names the groups only
(N12); numbering the members of a group is the model's (log entry 19). -/
inductive SensorName where
  | temperature (n : Nat)
  | apertureCurrent (n : Nat)
  | pinpullerCurrent (n : Nat)
  | lengthReceiver (n : Nat)
  | supplyVoltage (s : Supply)
  | supplyCurrent (s : Supply)
deriving DecidableEq, Repr, Inhabited

/-- A CalibrationEquation (R242, R245): a pure function from integers to integers, held as data so that the
state stays plain data (log entry 13). `revision k` is the `k`-th function of the table the board revision
selects, and it is opaque (U12). The other two are the synthetic coefficients R331 speaks of: `linear`
is `((x + off) * num) / den`, and `linearCount` the same followed by `DAC.MV2COUNT` (R245). What the division gives
outside the operands R9 defines is said at `Calibration.apply`. -/
inductive Calibration where
  | revision (k : Nat)
  | linear (off num : Int) (den : Nat)
  | linearCount (off num : Int) (den : Nat)
deriving DecidableEq, Repr, Inhabited

/-- A Sensor record (R7 `SENSORS`, R160), with its `CAL_READ` (R242). `channel` is a natural number: that it is at
most 7 is a condition of a well-formed board. -/
structure Sensor where
  quantity : Quantity
  adc : AdcId
  channel : Nat
  vrefMv : Nat
  cls : SensorClass
  calRead : Calibration
deriving DecidableEq, Repr, Inhabited

/-- `DAC_CMD_CODE` (R7, D27): the 4-bit code of each of the nine commands. -/
structure DacCodes where
  writeOnly : BitVec 4
  updateOnly : BitVec 4
  writeAndUpdateOne : BitVec 4
  writeAndUpdateAll : BitVec 4
  powerOffChannel : BitVec 4
  powerOffChip : BitVec 4
  selectInternalReference : BitVec 4
  selectExternalReference : BitVec 4
  noOp : BitVec 4
deriving DecidableEq, Repr, Inhabited

/-- `SUPPLY_RANGE` of one supply (R243): the documented range in millivolts. -/
structure MvRange where
  minMv : Int
  maxMv : Int
deriving DecidableEq, Repr, Inhabited

/-- `SUPPLY_SENSORS` of one supply (R7): the names of its voltage sensor and of its current sensor, if it has
them (the synthetic configuration T defines neither for the cathode offset; log entry 15). -/
structure SupplySensors where
  voltage : Option SensorName
  current : Option SensorName
deriving DecidableEq, Repr, Inhabited

/-- Every parameter of R7. The parameters are fixed for a run (R331). -/
structure Board where
  /-- `VARIANT` -/
  variant : Variant
  /-- `CLOCK_HZ` -/
  clockHz : Nat
  /-- `BAUD`: the baud rate the host requests; `BUS.INIT` takes it as its operand (R121). -/
  baud : Nat
  /-- `DELAY_A_CYCLES`, `DELAY_B_CYCLES` (R125): no rule depends on them. -/
  delayA : Nat
  delayB : Nat
  /-- `PERIPH_WORD_SPLIT` (R129): the word lengths a transfer is cut into; not observable (C1, D12). R7 gives it no form.
  DESIGN CHOICE (log entry 1): one list of lengths for every bit count, with no condition on it. No step reads it. -/
  periphWordSplit : List Nat
  /-- `ADC_IDS`, each with its `DEV_MODE` (R60, R135). -/
  adcs : List (AdcId × Mode)
  /-- `DEV_MODE` of the DAC and of the digipot (R135). -/
  dacMode : Mode
  digipotMode : Mode
  /-- `SENSORS` with `CAL_READ` (R160, R242). -/
  sensors : List (SensorName × Sensor)
  /-- `DAC_CMD_CODE` -/
  dacCodes : DacCodes
  /-- `DAC_CHANNEL_CODE` of the tether bias and of the cathode offset (R245, R246). -/
  tetherChannel : BitVec 4
  cathodeChannel : BitVec 4
  /-- `DAC_VCC_MILLIVOLTS` (R191). -/
  dacVccMv : Nat
  /-- `DPOT_HEATER_CHANNEL` (R244). -/
  digipotHeaterChannel : BitVec 8
  /-- `DPOT_WIPER_R`, `DPOT_MAX_R`, `DPOT_RESOLUTION` (R212). -/
  digipotWiperR : Nat
  digipotMaxR : Nat
  digipotResolution : Nat
  /-- `SUPPLY_RANGE` (R243). -/
  heaterRange : MvRange
  tetherRange : MvRange
  cathodeRange : MvRange
  /-- `CAL_HEATER_MV_TO_OHMS` (R244) and `CAL_SET_COUNT` (R245, R246). -/
  calHeaterMvToOhms : Calibration
  calTetherCount : Calibration
  calCathodeCount : Calibration
  /-- `SUPPLY_SENSORS` (R247 to R249, R252 to R254). -/
  heaterSensors : SupplySensors
  tetherSensors : SupplySensors
  cathodeSensors : SupplySensors
  /-- `SET_VOLTAGE_DAC_CMD` (R245, D32). -/
  setVoltageCmd : DacCommand
  /-- `RELAY_ACTIVE_LEVEL` of each relay (R250, D35). -/
  relay0Active : Level
  relay1Active : Level
  /-- `BOARD_REVISION` (R331): selects the calibration table. -/
  revision : Nat
  /-- `SETTLE_CYCLES`, `N_SETPOINTS`, `ON_THRESHOLD_MA`: parameters of the host (R337, R277, R275). -/
  settleCycles : Nat
  nSetpoints : Nat
  onThresholdMa : Int
deriving DecidableEq, Repr, Inhabited

/-- The parameters of R7 marked OPEN: they have no value in the spec, so they are those of a constant nothing can
evaluate (log entry 1). -/
opaque Config.openBoard : Board

/-- The board of this machine: the open parameters, and the values the table of R7 gives: the set command
(D32), the active level of the relays (D35), the resolution of the digipot (R212) and ten set-points. -/
def Config.board : Board :=
  { Config.openBoard with
    setVoltageCmd := .writeAndUpdateOne, relay0Active := true, relay1Active := true, digipotResolution := 255,
    nSetpoints := 10 }

/-- The calibration functions (U12): `Config.calibration rev k` is the `k`-th pure function of the table that
revision `rev` selects (R331). -/
opaque Config.calibration : Nat → Nat → Int → Int

/-- A free data-in bit (R63, U14), one for each draw. -/
opaque Config.freeMiso : Nat → Bool

/-- A free pair (framing, overrun) (R132, U13), one for each draw. -/
opaque Config.freeError : Nat → Bool × Bool

end Sys2Proof
end

