-- ==== Sys2Proof/Syntax.lean ====
section
/-! DEFINITION. The operation set of 30_encoding.md R101: one constructor per operation, with typed operands
(R90, R108). Operands that the document types by a width are natural numbers here, so that a value outside the
width can be presented and refused (R293). -/

namespace Sys2Proof

/-- The 37 operations (R101), in the order of the table. -/
inductive Instr where
  /-- `BUS.INIT baud, cfg` (R121). -/
  | busInit (baud : Nat) (cfg : BusConfig)
  /-- `BUS.CONFIG cfg` (R122). -/
  | busConfig (cfg : BusConfig)
  /-- `BUS.IDLE_LOW` (R123). -/
  | busIdleLow
  /-- `BUS.IDLE_HIGH` (R124). -/
  | busIdleHigh
  /-- `BUS.XFER n, data` (R126). -/
  | busXfer (n : Nat) (data : Word)
  /-- `BUS.SEND n, data` (R127). -/
  | busSend (n : Nat) (data : Word)
  /-- `BUS.RECV n` (R128). -/
  | busRecv (n : Nat)
  /-- `ADC.READ_COUNT adc, sensor` (R161). -/
  | adcReadCount (adc : AdcId) (sensor : SensorName)
  /-- `ADC.READ_MV adc, sensor` (R163). -/
  | adcReadMv (adc : AdcId) (sensor : SensorName)
  /-- `DAC.WRITE ch, v` (R181). -/
  | dacWrite (ch v : Nat)
  /-- `DAC.UPDATE ch, v` (R182). -/
  | dacUpdate (ch v : Nat)
  /-- `DAC.WRITE_UPDATE_ONE ch, v` (R183). -/
  | dacWriteUpdateOne (ch v : Nat)
  /-- `DAC.WRITE_UPDATE_ALL ch, v` (R184). -/
  | dacWriteUpdateAll (ch v : Nat)
  /-- `DAC.POWEROFF_CHANNEL ch, v` (R185). -/
  | dacPoweroffChannel (ch v : Nat)
  /-- `DAC.POWEROFF_CHIP ch, v` (R186). -/
  | dacPoweroffChip (ch v : Nat)
  /-- `DAC.REF_INTERNAL ch, v` (R187). -/
  | dacRefInternal (ch v : Nat)
  /-- `DAC.REF_EXTERNAL ch, v` (R188). -/
  | dacRefExternal (ch v : Nat)
  /-- `DAC.NOP ch, v` (R189). -/
  | dacNop (ch v : Nat)
  /-- `DAC.MV2COUNT mv` (R191). -/
  | dacMv2Count (mv : Int)
  /-- `DPOT.WRITE h, w` (R210). -/
  | dpotWrite (h w : Nat)
  /-- `DPOT.OHMS2COUNT ohms` (R212). -/
  | dpotOhms2Count (ohms : Int)
  /-- `PWR.ENABLE_PAYLOAD` (R226). -/
  | pwrEnablePayload
  /-- `PWR.DISABLE_PAYLOAD` (R227). -/
  | pwrDisablePayload
  /-- `PWR.ENABLE_HEATER` (R228). -/
  | pwrEnableHeater
  /-- `PWR.DISABLE_HEATER` (R229). -/
  | pwrDisableHeater
  /-- `SENSE.READ s` (R240). -/
  | senseRead (s : SensorName)
  /-- `HEATER.SET_MV mv` (R244). -/
  | heaterSetMv (mv : Int)
  /-- `TETHER.SET_MV mv` (R245). -/
  | tetherSetMv (mv : Int)
  /-- `CATHODE.SET_MV mv` (R246). -/
  | cathodeSetMv (mv : Int)
  /-- `HEATER.GET_MV` (R247). -/
  | heaterGetMv
  /-- `TETHER.GET_MV` (R248). -/
  | tetherGetMv
  /-- `CATHODE.GET_MV` (R249). -/
  | cathodeGetMv
  /-- `RELAY.CONNECT r` (R250). -/
  | relayConnect (r : Nat)
  /-- `RELAY.DISCONNECT r` (R251). -/
  | relayDisconnect (r : Nat)
  /-- `HEATER.GET_MA` (R252). -/
  | heaterGetMa
  /-- `TETHER.GET_MA` (R253). -/
  | tetherGetMa
  /-- `CATHODE.GET_MA` (R254). -/
  | cathodeGetMa
deriving DecidableEq, Repr, Inhabited

end Sys2Proof
end

