-- ==== Sys2Proof/Machine/Operands.lean ====
section
/-! DEFINITION. Operand forms and the pure functions of the block: operand widths, the well-formedness of a board
(R7), the lookups of the sensor catalog, the scales (R121, R163, R191, R212, R243), the calibrations (R242), and the
assembly of frames and bits (R65, R91 to R99). None of them reads or writes state. -/

namespace Sys2Proof

/-! ## Operand widths -/

/-- A bit count of the contract: 1 to 32 (R67, R137). -/
def bitCountOk (n : Nat) : Bool := decide (1 ≤ n) && decide (n ≤ 32)

/-- The channel code and the value of a DAC command fit 4 and 12 bits (R190). -/
def dacFieldsOk (ch v : Nat) : Bool := decide (ch < 16) && decide (v < 4096)

/-- The channel-select and the count of a digipot frame fit 8 bits each (R211). -/
def dpotFieldsOk (h w : Nat) : Bool := decide (h < 256) && decide (w < 256)

/-- A relay index: 0 or 1 (R250). -/
def relayIndexOk (r : Nat) : Bool := decide (r < 2)

/-! ## Bus configuration -/

/-- `idle_level` (R121): the level the clock rests at. -/
def Polarity.idleLevel : Polarity → Level
  | .idleHigh => true
  | .idleLow => false

/-- The mode of a configuration: its (POL, PHA) (R35). -/
def BusConfig.mode (c : BusConfig) : Mode := ⟨c.pol, c.pha⟩

/-- A configuration with its mode replaced and `ORDER`, `WIDTH`, `LOOPBACK` kept (R135). -/
def BusConfig.withMode (c : BusConfig) (m : Mode) : BusConfig := { c with pol := m.pol, pha := m.pha }

/-- A transfer has a meaning only under `MsbFirst` and width 8 (R31, R32, R137). -/
def BusConfig.supported (c : BusConfig) : Bool := decide (c.order = .msbFirst) && decide (c.width = .eight)

/-! ## Integers -/

/-- `clamp(x, lo, hi) = max(lo, min(x, hi))` (R9). -/
def clampInt (x lo hi : Int) : Int := max lo (min x hi)

/-- `clamp` on natural numbers (R9). -/
def clampNat (x lo hi : Nat) : Nat := max lo (min x hi)

/-! ## The board -/

/-- `ADC_IDS` (R60). -/
def Board.adcIds (b : Board) : List AdcId := b.adcs.map Prod.fst

/-- `DEV` (R60): the ADCs, the DAC and the digipot. -/
def Board.devs (b : Board) : List Dev := b.adcIds.map Dev.adc ++ [.dac, .digipot]

/-- The entry of a key in a finite map held as a list of pairs. -/
def assoc {α β : Type} [DecidableEq α] (k : α) : List (α × β) → Option β
  | [] => none
  | (a, v) :: rest => if a = k then some v else assoc k rest

/-- `DEV_MODE(dev)` (R135); none for a device the board does not have. -/
def Board.devMode (b : Board) : Dev → Option Mode
  | .adc a => assoc a b.adcs
  | .dac => some b.dacMode
  | .digipot => some b.digipotMode

/-- The Sensor record of a name in `SENSORS` (R7). -/
def Board.sensor (b : Board) (s : SensorName) : Option Sensor := assoc s b.sensors

/-- `SUPPLY_SENSORS` (R7). -/
def Board.supplySensors (b : Board) : Supply → SupplySensors
  | .heater => b.heaterSensors
  | .tetherBias => b.tetherSensors
  | .cathodeOffset => b.cathodeSensors

/-- `SUPPLY_RANGE` (R243). -/
def Board.supplyRange (b : Board) : Supply → MvRange
  | .heater => b.heaterRange
  | .tetherBias => b.tetherRange
  | .cathodeOffset => b.cathodeRange

/-- `RELAY_ACTIVE_LEVEL[r]` (R250). -/
def Board.relayActive (b : Board) (r : Nat) : Level := if r = 0 then b.relay0Active else b.relay1Active

/-- `DAC_CMD_CODE(command)` (R93). -/
def DacCodes.code (c : DacCodes) : DacCommand → BitVec 4
  | .writeOnly => c.writeOnly
  | .updateOnly => c.updateOnly
  | .writeAndUpdateOne => c.writeAndUpdateOne
  | .writeAndUpdateAll => c.writeAndUpdateAll
  | .powerOffChannel => c.powerOffChannel
  | .powerOffChip => c.powerOffChip
  | .selectInternalReference => c.selectInternalReference
  | .selectExternalReference => c.selectExternalReference
  | .noOp => c.noOp

/-- The nine commands (R193). -/
def DacCommand.all : List DacCommand :=
  [.writeOnly, .updateOnly, .writeAndUpdateOne, .writeAndUpdateAll, .powerOffChannel, .powerOffChip,
    .selectInternalReference, .selectExternalReference, .noOp]

/-- `DAC.MV2COUNT` (R191). -/
def mv2Count (vccMv : Nat) (mv : Int) : Nat := if mv ≤ 0 then 0 else min ((mv.toNat * 4095) / vccMv) 4095

/-- `CAL_READ`, `CAL_HEATER_MV_TO_OHMS` and `CAL_SET_COUNT` of the board's revision, the scale of R191 given
(R242, R244, R245). Division truncates; R9 defines `a / b` for `a >= 0` and `b > 0` only. DESIGN CHOICE (log entry 13): a
linear form with a negative dividend truncates toward zero, and with `den = 0` gives 0. -/
def Calibration.apply (rev vccMv : Nat) : Calibration → Int → Int
  | .revision k, x => Config.calibration rev k x
  | .linear off num den, x => Int.tdiv ((x + off) * num) den
  | .linearCount off num den, x => mv2Count vccMv (Int.tdiv ((x + off) * num) den)

/-- A calibration of the board. -/
def Board.calibrate (b : Board) (c : Calibration) (x : Int) : Int := c.apply b.revision b.dacVccMv x

/-- The conditions on the ADC identities (R7, R60): no identity twice, the two named ones present. -/
def Board.adcsOk (b : Board) : Bool :=
  decide b.adcIds.Nodup && decide (.temperatureAdc ∈ b.adcIds) && decide (.tetherAdc ∈ b.adcIds)

/-- The conditions on one Sensor record (R7): its ADC is on the board, `channel` is 0 to 7, `vref_mv` at most 65535. -/
def Board.sensorOk (b : Board) (s : Sensor) : Bool :=
  decide (s.adc ∈ b.adcIds) && decide (s.channel ≤ 7) && decide (s.vrefMv ≤ 65535)

/-- The gate class of each group of sensors (R241): a supply's own sensors are payload-on, the others always available. -/
def SensorName.cls : SensorName → SensorClass
  | .temperature _ => .always
  | .apertureCurrent _ => .always
  | .pinpullerCurrent _ => .always
  | .lengthReceiver _ => .always
  | .supplyVoltage _ => .payloadOn
  | .supplyCurrent _ => .payloadOn

/-- The conditions on `SENSORS` (R7, R241): no name twice, each record well formed and of the class of its group. -/
def Board.catalogOk (b : Board) : Bool :=
  decide (b.sensors.map Prod.fst).Nodup && b.sensors.all (fun e => b.sensorOk e.2 && decide (e.2.cls = e.1.cls))

/-- A name of `SUPPLY_SENSORS`, if there is one, is the name `n` and is in `SENSORS` (R7, R241). -/
def Board.sensorNamed (b : Board) (n : SensorName) : Option SensorName → Bool
  | none => true
  | some s => decide (s = n) && (b.sensor s).isSome

/-- `SUPPLY_SENSORS` of one supply names that supply's own voltage sensor and current sensor (R7, R241). -/
def Board.supplyNamed (b : Board) (u : Supply) : Bool :=
  b.sensorNamed (.supplyVoltage u) (b.supplySensors u).voltage
    && b.sensorNamed (.supplyCurrent u) (b.supplySensors u).current

/-- `SUPPLY_SENSORS` of the three supplies (R7, R241). -/
def Board.supplySensorsOk (b : Board) : Bool :=
  b.supplyNamed .heater && b.supplyNamed .tetherBias && b.supplyNamed .cathodeOffset

/-- The DAC codes are distinct (R7: `DAC_CMD_CODE` injective, `DAC_CHANNEL_CODE` distinct) and the reference is
positive. -/
def Board.dacOk (b : Board) : Bool :=
  decide (DacCommand.all.map b.dacCodes.code).Nodup && decide (b.tetherChannel ≠ b.cathodeChannel)
    && decide (0 < b.dacVccMv)

/-- The digipot constants (R7, R212): wiper below maximum, resolution 255. -/
def Board.digipotOk (b : Board) : Bool :=
  decide (b.digipotWiperR < b.digipotMaxR) && decide (b.digipotResolution = 255)

/-- `min_mv <= max_mv` for each supply (R7). -/
def Board.rangesOk (b : Board) : Bool :=
  decide (b.heaterRange.minMv ≤ b.heaterRange.maxMv) && decide (b.tetherRange.minMv ≤ b.tetherRange.maxMv)
    && decide (b.cathodeRange.minMv ≤ b.cathodeRange.maxMv)

/-- A count of 12 bits (R7, R20). -/
def countInRange (c : Int) : Bool := decide (0 ≤ c) && decide (c ≤ 4095)

/-- `f` holds of the `n` integers from `lo` on. -/
def allFrom (f : Int → Bool) (lo : Int) : Nat → Bool
  | 0 => true
  | n + 1 => f lo && allFrom f (lo + 1) n

/-- The values of a calibration on every point of a range lie in 0..4095 (R7). A linear form is monotonic, so its two
ends decide, and the form followed by `DAC.MV2COUNT` saturates: `countsIn_iff` says that this is every point (log
entry 14). -/
def Board.countsIn (b : Board) (r : MvRange) : Calibration → Bool
  | .revision k =>
    allFrom (fun x => countInRange (b.calibrate (.revision k) x)) r.minMv (r.maxMv - r.minMv + 1).toNat
  | .linear off num den =>
    countInRange (b.calibrate (.linear off num den) r.minMv) && countInRange (b.calibrate (.linear off num den) r.maxMv)
  | .linearCount _ _ _ => true

/-- `CAL_SET_COUNT` of the two supplies set through the DAC, on every point of `SUPPLY_RANGE` (R7). -/
def Board.countsOk (b : Board) : Bool :=
  b.countsIn b.tetherRange b.calTetherCount && b.countsIn b.cathodeRange b.calCathodeCount

/-- The constraints of R7 (D33) on a parameter set. -/
def Board.wf (b : Board) : Bool :=
  b.adcsOk && b.catalogOk && b.supplySensorsOk && b.dacOk && b.digipotOk && b.rangesOk && b.countsOk
    && decide (2 ≤ b.nSetpoints)

/-! ## Scales -/

/-- `prescaler = clamp(clock_hz / max(baud, 1), 1, 65535)` (R121). -/
def prescalerOf (clockHz baud : Nat) : BitVec 16 := BitVec.ofNat 16 (clampNat (clockHz / max baud 1) 1 65535)

/-- `(count * vref_mv) / 4095`, truncating (R163). -/
def adcMillivolts (count : BitVec 12) (vrefMv : Nat) : Int := ((count.toNat * vrefMv) / 4095 : Nat)

/-- `DPOT.OHMS2COUNT` (R212): clamp, subtract, multiply, truncating division. -/
def ohms2Count (wiperR maxR resolution : Nat) (ohms : Int) : Nat :=
  ((clampInt ohms wiperR maxR - wiperR).toNat * resolution) / (maxR - wiperR)

/-- The scale with the board's constants (R212). -/
def Board.ohms2Count (b : Board) (ohms : Int) : Nat :=
  Sys2Proof.ohms2Count b.digipotWiperR b.digipotMaxR b.digipotResolution ohms

/-- `ClampTarget(supply, mv)` (R243). -/
def Board.clampTarget (b : Board) (s : Supply) (mv : Int) : Int :=
  clampInt mv (b.supplyRange s).minMv (b.supplyRange s).maxMv

/-- The wiper count of `HEATER.SET_MV mv` (R244). -/
def Board.heaterWiper (b : Board) (mv : Int) : Nat :=
  b.ohms2Count (b.calibrate b.calHeaterMvToOhms (b.clampTarget .heater mv))

/-- The integer `CAL_SET_COUNT` gives for a target of the tether bias (R245). -/
def Board.tetherCount (b : Board) (mv : Int) : Int := b.calibrate b.calTetherCount (b.clampTarget .tetherBias mv)

/-- The integer `CAL_SET_COUNT` gives for a target of the cathode offset (R246). -/
def Board.cathodeCount (b : Board) (mv : Int) : Int :=
  b.calibrate b.calCathodeCount (b.clampTarget .cathodeOffset mv)

/-! ## The operations of a supply -/

/-- The voltage set of a supply (R244 to R246). -/
def setMvOf (mv : Int) : Supply → Instr
  | .heater => .heaterSetMv mv
  | .tetherBias => .tetherSetMv mv
  | .cathodeOffset => .cathodeSetMv mv

/-- The voltage read of a supply (R247 to R249). -/
def getMvOf : Supply → Instr
  | .heater => .heaterGetMv
  | .tetherBias => .tetherGetMv
  | .cathodeOffset => .cathodeGetMv

/-- The current read of a supply (R252 to R254). -/
def getMaOf : Supply → Instr
  | .heater => .heaterGetMa
  | .tetherBias => .tetherGetMa
  | .cathodeOffset => .cathodeGetMa

/-! ## Bits and frames -/

/-- `d[n-1:0]` (R65, R68): the low `n` bits, the rest 0. -/
def truncBits (n : Nat) (d : Word) : Word := BitVec.ofNat 32 (d.toNat % 2 ^ n)

/-- The `n` bits of a transfer in the order they are sent: bit `n-1` first (R64, R65). -/
def bitsOf : Nat → Word → List Bool
  | 0, _ => []
  | n + 1, d => d.getLsbD n :: bitsOf n d

/-- `(rx << 1) + b` (R125). -/
def shiftIn (rx : Word) (b : Bool) : Word := (rx <<< 1) + BitVec.ofNat 32 b.toNat

/-- The bits received, first bit most significant, right-aligned (R65). -/
def packBits (bits : List Bool) : Word := bits.foldl shiftIn 0

/-- `frame24 = (c << 20) + (n << 16) + (v << 4)` (R98). -/
def dacFrame (c : BitVec 4) (ch v : Nat) : Word := BitVec.ofNat 32 ((c.toNat <<< 20) + (ch <<< 16) + (v <<< 4))

/-- `frame16 = (h << 8) + w` (R99). -/
def dpotFrame (h w : Nat) : Word := BitVec.ofNat 32 ((h <<< 8) + w)

/-- The 32-bit data-out string of a read of channel `k` in 1..7 (R92): `k << 27`. -/
def adcFrame (k : Nat) : Word := BitVec.ofNat 32 (k <<< 27)

end Sys2Proof
end

