-- ==== Sys2Proof/WellFormed.lean ====
section
/-! DEFINITION. The widths of the operands (30_encoding.md R91 to R95, 20_memory.md R67): which terms of `Instr` are
requests the document can express. An operation whose term is not well formed is refused by its meaning (R293). -/

namespace Sys2Proof

/-- Every operand of the operation is within its width. -/
def Instr.wellFormed : Instr → Bool
  | .busXfer n _ => bitCountOk n
  | .busSend n _ => bitCountOk n
  | .busRecv n => bitCountOk n
  | .dacWrite ch v => dacFieldsOk ch v
  | .dacUpdate ch v => dacFieldsOk ch v
  | .dacWriteUpdateOne ch v => dacFieldsOk ch v
  | .dacWriteUpdateAll ch v => dacFieldsOk ch v
  | .dacPoweroffChannel ch v => dacFieldsOk ch v
  | .dacPoweroffChip ch v => dacFieldsOk ch v
  | .dacRefInternal ch v => dacFieldsOk ch v
  | .dacRefExternal ch v => dacFieldsOk ch v
  | .dacNop ch v => dacFieldsOk ch v
  | .dpotWrite h w => dpotFieldsOk h w
  | .relayConnect r => relayIndexOk r
  | .relayDisconnect r => relayIndexOk r
  | .busInit _ _ => true
  | .busConfig _ => true
  | .busIdleLow => true
  | .busIdleHigh => true
  | .adcReadCount _ _ => true
  | .adcReadMv _ _ => true
  | .dacMv2Count _ => true
  | .dpotOhms2Count _ => true
  | .pwrEnablePayload => true
  | .pwrDisablePayload => true
  | .pwrEnableHeater => true
  | .pwrDisableHeater => true
  | .senseRead _ => true
  | .heaterSetMv _ => true
  | .tetherSetMv _ => true
  | .cathodeSetMv _ => true
  | .heaterGetMv => true
  | .tetherGetMv => true
  | .cathodeGetMv => true
  | .heaterGetMa => true
  | .tetherGetMa => true
  | .cathodeGetMa => true

end Sys2Proof
end

