-- ==== Sys2Proof/Decode.lean ====
section
/-! DEFINITION. Frames (30_encoding.md R90 to R105). The command interface is typed and has no binary form (R90, D2):
what has an encoding is the bit string an operation puts on the bus. The decoder reads a frame, with the chip select
that was low while it passed, back to the operation that sends it; the encoder gives the frame of an operation.
`decodeTableWord` reads a word of the opcode table (log entry 12). -/

namespace Sys2Proof

/-- A frame: the chip select that is low while it passes (none for a raw transfer, R95), its length in bits and its
bits, the first bit sent being bit `nbits - 1` (R90). -/
structure Frame where
  line : Option Dev
  nbits : Nat
  bits : Word
deriving DecidableEq, Repr

/-- Why a frame is no operation's. -/
inductive DecodeError where
  /-- The length is none of the device's forms (R69), or a raw transfer's is outside 1..32 (R67). -/
  | badLength
  /-- One of the seven DAC codes no command has (R102). -/
  | reservedDacCode
  /-- A data-out bit that R91 or R92 fixes at 0 is 1, or the long form carries the address 0. -/
  | badPattern
  /-- No sensor of the board has that ADC and that channel (R97). -/
  | noSensor
  /-- A bit at or above the frame's length is 1. -/
  | tooWide
deriving DecidableEq, Repr

/-- The operation of a DAC command (R181 to R189). -/
def DacCommand.instr (ch v : Nat) : DacCommand → Instr
  | .writeOnly => .dacWrite ch v
  | .updateOnly => .dacUpdate ch v
  | .writeAndUpdateOne => .dacWriteUpdateOne ch v
  | .writeAndUpdateAll => .dacWriteUpdateAll ch v
  | .powerOffChannel => .dacPoweroffChannel ch v
  | .powerOffChip => .dacPoweroffChip ch v
  | .selectInternalReference => .dacRefInternal ch v
  | .selectExternalReference => .dacRefExternal ch v
  | .noOp => .dacNop ch v

/-- The command whose code is `c`, if one has it (R102). -/
def DacCodes.command (codes : DacCodes) (c : BitVec 4) : Option DacCommand :=
  DacCommand.all.find? (fun cmd => decide (codes.code cmd = c))

/-- A sensor of the catalog with the given ADC and channel: the first in the order of `SENSORS`. -/
def sensorAt (a : AdcId) (k : Nat) : List (SensorName × Sensor) → Option SensorName
  | [] => none
  | (n, s) :: rest => if s.adc = a ∧ s.channel = k then some n else sensorAt a k rest

/-- A DAC frame (R93): the don't-care bits are any value to a reader of traffic (U11). -/
def decodeDac (b : Board) (nbits w : Nat) : Except DecodeError Instr :=
  if nbits ≠ 24 then .error .badLength
  else match b.dacCodes.command (BitVec.ofNat 4 (w / 2 ^ 20)) with
    | none => .error .reservedDacCode
    | some cmd => .ok (cmd.instr (w / 2 ^ 16 % 16) (w / 2 ^ 4 % 4096))

/-- A digipot frame (R94). -/
def decodeDpot (nbits w : Nat) : Except DecodeError Instr :=
  if nbits ≠ 16 then .error .badLength else .ok (.dpotWrite (w / 256) (w % 256))

/-- An ADC frame (R91, R92): the read of the count of a sensor with that channel. -/
def decodeAdc (b : Board) (a : AdcId) (nbits w : Nat) : Except DecodeError Instr :=
  let read (k : Nat) : Except DecodeError Instr :=
    match sensorAt a k b.sensors with
    | none => .error .noSensor
    | some s => .ok (.adcReadCount a s)
  if nbits = 16 then (if w = 0 then read 0 else .error .badPattern)
  else if nbits = 32 then
    (if w % 2 ^ 27 = 0 ∧ w / 2 ^ 30 = 0 ∧ w ≠ 0 then read (w / 2 ^ 27) else .error .badPattern)
  else .error .badLength

/-- A raw frame (R95): zeros are a receive (R128), anything else a transfer (R126). -/
def decodeRaw (nbits w : Nat) : Except DecodeError Instr :=
  if bitCountOk nbits then .ok (if w = 0 then .busRecv nbits else .busXfer nbits (BitVec.ofNat 32 w))
  else .error .badLength

/-- The operation that puts a frame on the bus, on a board. -/
def decodeFrame (b : Board) (f : Frame) : Except DecodeError Instr :=
  if 2 ^ f.nbits ≤ f.bits.toNat then .error .tooWide
  else match f.line with
    | none => decodeRaw f.nbits f.bits.toNat
    | some .dac => decodeDac b f.nbits f.bits.toNat
    | some .digipot => decodeDpot f.nbits f.bits.toNat
    | some (.adc a) => decodeAdc b a f.nbits f.bits.toNat

/-! ## The encoder -/

/-- The frame of a DAC command (R93, R98); none where a field is too wide (R190). -/
def encodeDac (b : Board) (cmd : DacCommand) (ch v : Nat) : Option Frame :=
  if dacFieldsOk ch v then some ⟨some .dac, 24, dacFrame (b.dacCodes.code cmd) ch v⟩ else none

/-- The frame of a digipot write (R94, R99); none where a field is too wide (R211). -/
def encodeDpot (h w : Nat) : Option Frame :=
  if dpotFieldsOk h w then some ⟨some .digipot, 16, dpotFrame h w⟩ else none

/-- The data-out string of an ADC read of channel `k` (R91, R92). -/
def encodeAdc (a : AdcId) (k : Nat) : Option Frame :=
  if k = 0 then some ⟨some (.adc a), 16, 0⟩ else if k ≤ 7 then some ⟨some (.adc a), 32, adcFrame k⟩ else none

/-- The data-out string of a read of a sensor by name, on the ADC the sensor belongs to. -/
def encodeSensor (b : Board) (s : SensorName) : Option Frame :=
  match b.sensor s with
  | none => none
  | some r => encodeAdc r.adc r.channel

/-- The data-out string of a read of a supply's sensor, if the supply has it. -/
def encodeSupply (b : Board) : Option SensorName → Option Frame
  | none => none
  | some s => encodeSensor b s

/-- The data-out string of a sensor read through the engine of `a`; none on a mismatch (R162). -/
def encodeAdcRead (b : Board) (a : AdcId) (s : SensorName) : Option Frame :=
  match b.sensor s with
  | none => none
  | some r => if r.adc = a then encodeAdc a r.channel else none

/-- A raw frame (R95); none where the bit count is outside 1..32 (R67). -/
def encodeRaw (n : Nat) (d : Word) : Option Frame :=
  if bitCountOk n then some ⟨none, n, truncBits n d⟩ else none

/-- The frame of a voltage set through the DAC (R245, R246): on a well-formed board the count is in 0..4095 (R7). -/
def encodeSet (b : Board) (channel : BitVec 4) (count : Int) : Option Frame :=
  encodeDac b b.setVoltageCmd channel.toNat count.toNat

/-- The frame an operation puts on the bus, as the column "frame" of R101 says; none for an operation without one
and for operands outside their widths. -/
def encode (b : Board) : Instr → Option Frame
  | .busInit _ _ => none
  | .busConfig _ => none
  | .busIdleLow => none
  | .busIdleHigh => none
  | .busXfer n d => encodeRaw n d
  | .busSend n d => encodeRaw n d
  | .busRecv n => encodeRaw n 0
  | .adcReadCount a s => encodeAdcRead b a s
  | .adcReadMv a s => encodeAdcRead b a s
  | .dacWrite ch v => encodeDac b .writeOnly ch v
  | .dacUpdate ch v => encodeDac b .updateOnly ch v
  | .dacWriteUpdateOne ch v => encodeDac b .writeAndUpdateOne ch v
  | .dacWriteUpdateAll ch v => encodeDac b .writeAndUpdateAll ch v
  | .dacPoweroffChannel ch v => encodeDac b .powerOffChannel ch v
  | .dacPoweroffChip ch v => encodeDac b .powerOffChip ch v
  | .dacRefInternal ch v => encodeDac b .selectInternalReference ch v
  | .dacRefExternal ch v => encodeDac b .selectExternalReference ch v
  | .dacNop ch v => encodeDac b .noOp ch v
  | .dacMv2Count _ => none
  | .dpotWrite h w => encodeDpot h w
  | .dpotOhms2Count _ => none
  | .pwrEnablePayload => none
  | .pwrDisablePayload => none
  | .pwrEnableHeater => none
  | .pwrDisableHeater => none
  | .senseRead s => encodeSensor b s
  | .heaterSetMv mv => encodeDpot b.digipotHeaterChannel.toNat (b.heaterWiper mv)
  | .tetherSetMv mv => encodeSet b b.tetherChannel (b.tetherCount mv)
  | .cathodeSetMv mv => encodeSet b b.cathodeChannel (b.cathodeCount mv)
  | .heaterGetMv => encodeSupply b b.heaterSensors.voltage
  | .tetherGetMv => encodeSupply b b.tetherSensors.voltage
  | .cathodeGetMv => encodeSupply b b.cathodeSensors.voltage
  | .relayConnect _ => none
  | .relayDisconnect _ => none
  | .heaterGetMa => encodeSupply b b.heaterSensors.current
  | .tetherGetMa => encodeSupply b b.tetherSensors.current
  | .cathodeGetMa => encodeSupply b b.cathodeSensors.current

/-! ## Words of the opcode table -/

/-- The default DAC command codes of 93_implementation_defined.md G3. UNVERIFIED: general knowledge, not in any
source; used for the table's words and for tests, never by the block's operations (log entry 12). -/
def Config.defaultDacCodes : DacCodes :=
  { writeOnly := 0b0000#4, updateOnly := 0b0001#4, writeAndUpdateAll := 0b0010#4, writeAndUpdateOne := 0b0011#4,
    powerOffChannel := 0b0100#4, powerOffChip := 0b0101#4, selectInternalReference := 0b0110#4,
    selectExternalReference := 0b0111#4, noOp := 0b1111#4 }

/-- The synthetic configuration T of 95_test_vectors.md, in the software-timed variant. It is not the real board: it
exists so that numbers can be computed. Parameters T does not give (the delays, the word split, the revision, the
host's settle cycles and threshold) are 0 or empty. -/
def Config.tableBoard : Board :=
  { variant := .softwareTimed, clockHz := 8000000, baud := 1000000, delayA := 0, delayB := 0, periphWordSplit := [],
    adcs := [(.temperatureAdc, ⟨.idleHigh, .secondEdge⟩), (.tetherAdc, ⟨.idleHigh, .secondEdge⟩)],
    dacMode := ⟨.idleLow, .firstEdge⟩, digipotMode := ⟨.idleLow, .firstEdge⟩,
    sensors :=
      [(.temperature 0, ⟨.temperature, .temperatureAdc, 0, 3300, .always, .linear 0 1 1⟩),
       (.pinpullerCurrent 0, ⟨.current, .temperatureAdc, 5, 3300, .always, .linear 0 1 2⟩),
       (.supplyVoltage .heater, ⟨.voltage, .tetherAdc, 4, 5000, .payloadOn, .linear 0 8 5⟩),
       (.supplyVoltage .tetherBias, ⟨.voltage, .tetherAdc, 2, 5000, .payloadOn, .linear 0 50 1⟩),
       (.supplyCurrent .tetherBias, ⟨.current, .tetherAdc, 0, 5000, .payloadOn, .linear 0 1 1⟩)],
    dacCodes := Config.defaultDacCodes, tetherChannel := 0#4, cathodeChannel := 1#4, dacVccMv := 5000,
    digipotHeaterChannel := 0x01#8, digipotWiperR := 100, digipotMaxR := 10100, digipotResolution := 255,
    heaterRange := ⟨1400, 5500⟩, tetherRange := ⟨0, 250000⟩, cathodeRange := ⟨0, 100000⟩,
    calHeaterMvToOhms := .linear (-1000) 5 1, calTetherCount := .linearCount 0 1 50,
    calCathodeCount := .linearCount 0 1 20,
    heaterSensors := ⟨some (.supplyVoltage .heater), none⟩,
    tetherSensors := ⟨some (.supplyVoltage .tetherBias), some (.supplyCurrent .tetherBias)⟩,
    cathodeSensors := ⟨none, none⟩,
    setVoltageCmd := .writeAndUpdateOne, relay0Active := true, relay1Active := true, revision := 0,
    settleCycles := 0, nSetpoints := 10, onThresholdMa := 0 }

/-- `cfg0` of the configuration T (95_test_vectors.md): the configuration `BUS.INIT` gives in P0. -/
def Config.tableCfg : BusConfig := ⟨.idleLow, .firstEdge, .msbFirst, .eight, false⟩

/-- The chip selects a table word of a given length is tried on, in order: 24 bits are the DAC's, 16 the digipot's, 32
an ADC's long form and, where no ADC form fits, a raw transfer (log entry 12). -/
def tableLines (nbits : Nat) : List (Option Dev) :=
  if nbits = 24 then [some .dac]
  else if nbits = 16 then [some .digipot]
  else [some (.adc .temperatureAdc), some (.adc .tetherAdc), none]

/-- The first line of a list on which a frame decodes. -/
def decodeOnLines (nbits w : Nat) : List (Option Dev) → Option Instr
  | [] => none
  | l :: rest =>
    match decodeFrame Config.tableBoard ⟨l, nbits, BitVec.ofNat 32 w⟩ with
    | .ok i => some i
    | .error _ => decodeOnLines nbits w rest

/-- The operation whose frame is the word `w` of `nbits` bits (the fixed name of the host). The table's rows share
their words (nine DAC commands, eleven ADC reads), so a word names the operation that sends exactly it: the DAC command of
that code, the read of the count, the digipot write, the receive or the raw transfer. -/
def decodeTableWord (nbits w : Nat) : Option Instr :=
  if 32 < nbits then none else if 2 ^ nbits ≤ w then none else decodeOnLines nbits w (tableLines nbits)

/-- A table word with the length of a DAC frame whose command is outside the nine (R102, R293). -/
def reservedTableWord (nbits w : Nat) : Bool :=
  decide (nbits = 24) && decide (w < 2 ^ 24) && (Config.defaultDacCodes.command (BitVec.ofNat 4 (w / 2 ^ 20))).isNone

end Sys2Proof
end

