-- ==== Sys2Proof/Machine/State.lean ====
section
/-! DEFINITION. The state of the block (10_state.md R20 to R46) as plain data, with the host's pending steps and the
environment's answers as lists the machine reads, the reasons a step stops, and the state after physical reset. -/

namespace Sys2Proof.Machine

/-! ## Registers -/

/-- A register whose value the spec may leave unspecified (R46, U1). It always holds a value; `specified` says
whether that value is one the spec gives. A rule that reads an unspecified register refuses `UnspecifiedRead`. -/
structure Reg (α : Type) where
  val : α
  specified : Bool
deriving DecidableEq, Repr

/-- The content of a register just written. -/
def Reg.written {α : Type} (v : α) : Reg α := ⟨v, true⟩

/-- The content of a register the spec gives no value, `v` being the value the model names (log entry 4). -/
def Reg.unspecified {α : Type} (v : α) : Reg α := ⟨v, false⟩

/-- `SR`, the transfer register (R21). -/
structure TransferReg where
  tx : Word
  rx : Word
  i : Nat
deriving DecidableEq, Repr

/-- `POWER` (R36): payload axis first. `(Off, On)` has no representation (R230). -/
inductive Power where
  | offOff
  | onOff
  | onOn
deriving DecidableEq, Repr

/-- The `step` of `Busy(op, step)`, which counts transfers of a transaction and bits of a transfer (R24): the transfers
`op` has completed, and the bits completed of the transfer that runs. -/
structure Position where
  transfers : Nat
  bits : Nat
deriving DecidableEq, Repr

/-- `OPSTATE` (R24, R44). `busy op step`: operation `op` runs and is at position `step` of its sequence. -/
inductive OpState where
  | idle
  | busy (op : Instr) (step : Position)
  | halted
deriving DecidableEq, Repr

/-! ## Lines and the pin trace -/

/-- An output line (R37, R38, R40, R41). -/
inductive Line where
  | sclk
  | mosi
  | cs (d : Dev)
  | payloadEn
  | heaterEn
  | relay0
  | relay1
deriving DecidableEq, Repr

/-- An event of the pin trace (R45). -/
inductive Event where
  | pin (line : Line) (level : Level)
  | sample (b : Bool)
deriving DecidableEq, Repr

/-! ## Results and errors -/

/-- The errors (R290, R291). -/
inductive BusError where
  | framing
  | overrun (word : Word)
deriving DecidableEq, Repr

/-- What an operation returns: nothing, a 32-bit word (R126), a 12-bit count (R161, R191), an 8-bit count (R212), or an
integer in millivolts or the sensor's unit (R163, R242). -/
inductive Result where
  | unit
  | word (w : Word)
  | count12 (c : BitVec 12)
  | count8 (c : BitVec 8)
  | value (v : Int)
deriving DecidableEq, Repr

/-- How the last operation ended for the host (R20, R301). -/
inductive Completion where
  | done (r : Result)
  | raised (e : BusError)
deriving DecidableEq, Repr

/-! ## The host -/

/-- What the host does next (R12, R75). -/
inductive HostStep where
  /-- Issue one operation at the typed command port (R90). -/
  | issue (i : Instr)
  /-- Issue the operation a word of the opcode table stands for (log entry 12). -/
  | tableWord (nbits w : Nat)
  /-- Construction: steps 4 and 5 of the boot sequence (R328). -/
  | construct
  /-- `HostHalt` (R296). -/
  | halt
  /-- `Delay(n)` between two operations (R310, R337). -/
  | delay (n : BitVec 32)
  /-- Physical reset between operations (R320). -/
  | physicalReset
  /-- Issue one operation, and physical reset falls in the middle of it, after `events` of its pin events (R12, R320). -/
  | resetDuring (i : Instr) (events : Nat)
deriving DecidableEq, Repr

/-! ## Stops -/

/-- The reasons a step stops with a fault. None is an error of the spec (R292); each is safe: the model stops. -/
inductive Fault where
  /-- Raised by `exec` and by every host step but physical reset in `Halted`: no operation is accepted (R44, R296). Safe. -/
  | halted
  /-- Raised by `exec` and by host steps in `Busy`: a second operation cannot start (R24, R305). No state between steps
  of this model is `Busy`. Safe. -/
  | busy
  /-- Raised by a peripheral-timed transfer with `TXRDY = 0` or `SWRST = 1`: a poll that never ends (R129, R130, U5). No
  state a run reaches has it. Safe. -/
  | pollNeverEnds
deriving DecidableEq, Repr

/-- The reasons a request has no meaning: the closed list of R293 and the host's own. Each is safe: the model stops
where the document makes a request inexpressible. -/
inductive Refusal where
  /-- An instruction without a meaning; raised by the arms of `exec` that name it. Safe. -/
  | notModelled (mnemonic : String)
  /-- The power gate forbids the operation (R225); raised by `issue`. Safe. -/
  | illegalInState
  /-- A transport operation with `BUS_READY = 0` (R122 to R124, R137), or any operation before construction is done
  (R328); raised by `issue`, `reconfigure`, `ensureConfig`, `transfer`, `construct`. Safe. -/
  | unconfigured
  /-- `BUS.INIT` with `BUS_READY = 1` (R121), or a second construction (R330). Safe. -/
  | alreadyConstructed
  /-- A bit count outside 1..32 (R137); raised by `transfer`. Safe. -/
  | bitCountOutOfRange
  /-- A transfer under `LsbFirst` or width 7 (R137, U9); raised by `transfer`. Safe. -/
  | unsupportedConfig
  /-- The sensor belongs to another ADC, or its channel is outside 0..7 (R162); raised by `readCountOf`. Safe. -/
  | sensorAdcMismatch
  /-- A DAC or digipot field wider than its width, a DAC command outside the nine (a table word with a reserved code), a
  relay index outside 0..1 (R190, R211, R250, R102); raised by `dacSend`, `dpotSend`, `relayDrive`, `hostBadWord`. Safe. -/
  | operandOutOfRange
  /-- A sensor name not in `SENSORS`, or a supply without that sensor (R252, R293). Safe. -/
  | noSuchSensor
  /-- A rule would read state whose value is unspecified: the spec refuses the read (R46, R293, U1 of
  93_implementation_defined.md); raised where `CFG` or `CFG_CUR` is read. No state a run reaches has it. Safe. -/
  | unspecifiedRead
  /-- The parameters break a constraint of R7; raised by `admission`, `hostConstruct` and `ensureConfig`. Safe. -/
  | illFormedConfiguration
  /-- A table word that is no operation's frame (R90, R105); raised by `hostBadWord`. Safe. -/
  | undecodable
deriving DecidableEq, Repr

/-! ## State -/

/-- The whole machine: the parameters, the host's pending steps, the block's registers and lines, and the
environment's answers. -/
@[ext]
structure State where
  /-- The parameters (R7, log entry 1). No step writes them. -/
  board : Board
  /-- What the host does next (log entry 2). -/
  script : List HostStep
  /-- `OPSTATE` (R24). -/
  opstate : OpState
  /-- The last operation's result or error (R20, log entry 25). -/
  completion : Option Completion
  /-- Step 5 of the boot sequence is done (R328). -/
  constructed : Bool
  /-- `SR` (R21). -/
  sr : Reg TransferReg
  /-- `TXBUF`, `RXBUF` (R22). -/
  txbuf : Reg Word
  rxbuf : Reg Word
  /-- `TXRDY`, `RXRDY` (R25), `FE`, `OE` (R26). -/
  txrdy : Bool
  rxrdy : Bool
  fe : Bool
  oe : Bool
  /-- `CFG` (R28 to R33). -/
  cfg : Reg BusConfig
  /-- `SWRST`, `PRESCALER` (R34). -/
  swrst : Bool
  prescaler : Reg (BitVec 16)
  /-- `BUS_READY`, `CFG_CUR` (R35). -/
  busReady : Bool
  cfgCur : Reg Mode
  /-- `POWER` (R36). -/
  power : Power
  /-- `SCLK` (R37), `MOSI` (R38). -/
  sclk : Reg Level
  mosi : Reg Level
  /-- `CS[dev]` (R40): the levels written so far, no device twice. -/
  cs : List (Dev × Level)
  /-- `PAYLOAD_EN`, `HEATER_EN`, `RELAY[0]`, `RELAY[1]` (R41). -/
  payloadEn : Reg Level
  heaterEn : Reg Level
  relay0 : Reg Level
  relay1 : Reg Level
  /-- The pin trace, oldest event first (R45). -/
  trace : List Event
  /-- Answers the environment has ready for `PinRead(MISO)` (R63), and how many free ones were drawn (log entry 6). -/
  misoIn : List Bool
  misoDraws : Nat
  /-- Answers the environment has ready for the draw `(fe, oe)` (R132), and how many free ones were drawn. -/
  errIn : List (Bool × Bool)
  errDraws : Nat
deriving DecidableEq, Repr

/-- The state right after physical reset with the parameters `b` (R46, R320, R321). The values of registers marked
unspecified are the model's (log entry 4). -/
def State.resetOn (b : Board) : State :=
  { board := b, script := [], opstate := .idle, completion := none, constructed := false,
    sr := Reg.unspecified ⟨0, 0, 0⟩, txbuf := Reg.unspecified 0, rxbuf := Reg.unspecified 0,
    txrdy := true, rxrdy := false, fe := false, oe := false,
    cfg := Reg.unspecified ⟨.idleLow, .firstEdge, .msbFirst, .eight, false⟩,
    swrst := true, prescaler := Reg.unspecified 0,
    busReady := false, cfgCur := Reg.unspecified ⟨.idleLow, .firstEdge⟩,
    power := .offOff,
    sclk := Reg.unspecified false, mosi := Reg.unspecified false, cs := [],
    payloadEn := Reg.unspecified false, heaterEn := Reg.unspecified false,
    relay0 := Reg.unspecified false, relay1 := Reg.unspecified false,
    trace := [], misoIn := [], misoDraws := 0, errIn := [], errDraws := 0 }

/-- The machine right after reset: the reset values of R46 with the machine's own parameters. -/
def State.reset : State := State.resetOn Config.board

end Sys2Proof.Machine
end

