-- ==== Sys2Proof/Machine/Flags.lean ====
section
/-! DEFINITION. The four flags of the peripheral-timed variant (10_state.md R25 to R27): what a reset hold, the write of
`TXBUF`, the shifter and the read of `RXBUF` do to them. -/

namespace Sys2Proof.Machine

/-- The flags while the peripheral is held in reset and right after (R25, R26, D18). -/
def State.holdFlags (s : State) : State := { s with txrdy := true, rxrdy := false, fe := false, oe := false }

/-- A write of `TXBUF` clears `TXRDY` (R22, R25). -/
def State.writeTxbuf (w : Word) (s : State) : State := { s with txbuf := Reg.written w, txrdy := false }

/-- The shifter takes `TXBUF` and sets `TXRDY` (R25, R131). -/
def State.takeTxbuf (s : State) : State := { s with txrdy := true }

/-- The shifter delivers the word in `SR.rx`: a word already waiting makes an overrun (R22, R26, R131). -/
def State.deliver (s : State) : State :=
  { s with oe := s.oe || s.rxrdy, rxbuf := Reg.written s.sr.val.rx, rxrdy := true }

/-- The environment's draw is or-ed into the error flags (R132). -/
def State.orErrors (e : Bool × Bool) (s : State) : State := { s with fe := s.fe || e.1, oe := s.oe || e.2 }

/-- A read of `RXBUF` clears `RXRDY`, `FE` and `OE` (R22, R129). -/
def State.clearOnRead (s : State) : State := { s with rxrdy := false, fe := false, oe := false }

/-- The error the flags report at the end of a transfer, framing before overrun (R129, R299). -/
def errorOf (fe oe : Bool) (word : Word) : Option BusError :=
  if fe then some .framing else if oe then some (.overrun word) else none

end Sys2Proof.Machine
end

