-- ==== Sys2Proof/Machine/Ops.lean ====
section
/-! DEFINITION. The shared operations: lines, data-in and draws (00_scope.md R10, 20_memory.md R63), the bit engines
(40_bus_transport.md R125, R129, R131, R133), transfers and their admission (R137), configuration (R121, R122, R135),
device transactions (R70, R302), the power gate (44_power_sequencer.md R225), and the start, the end and the error end
of an operation (R24, R301). -/

namespace Sys2Proof.Machine

/-! ## Runs: the outcome of a part of an operation -/

/-- How a part of an operation ends: with a value, with an error (`raise`, R301), with a refusal (R293), or with a
fault. Only the first two have a state. -/
inductive Run (α : Type) where
  | ok (a : α) (s : State)
  | raise (e : BusError) (s : State)
  | refuse (r : Refusal)
  | fault (f : Fault)

/-- Sequencing: the rest runs only after a value. -/
def Run.bind {α β : Type} (x : Run α) (f : α → State → Run β) : Run β :=
  match x with
  | .ok a s => f a s
  | .raise e s => .raise e s
  | .refuse r => .refuse r
  | .fault x => .fault x

/-! ## Lines -/

/-- `CS[dev]` (R40). A level not yet written is unspecified; the model names it 1, deasserted (log entry 4). -/
def State.csReg (s : State) (d : Dev) : Reg Level :=
  match assoc d s.cs with
  | some v => Reg.written v
  | none => Reg.unspecified true

/-- The list of chip-select levels after a write. -/
def setCs (d : Dev) (v : Level) : List (Dev × Level) → List (Dev × Level)
  | [] => [(d, v)]
  | (e, w) :: rest => if e = d then (d, v) :: rest else (e, w) :: setCs d v rest

/-- The write of a line, without its event. -/
def State.setLine (l : Line) (v : Level) (s : State) : State :=
  match l with
  | .sclk => { s with sclk := Reg.written v }
  | .mosi => { s with mosi := Reg.written v }
  | .cs d => { s with cs := setCs d v s.cs }
  | .payloadEn => { s with payloadEn := Reg.written v }
  | .heaterEn => { s with heaterEn := Reg.written v }
  | .relay0 => { s with relay0 := Reg.written v }
  | .relay1 => { s with relay1 := Reg.written v }

/-- Appends an event to the pin trace (R45). -/
def State.emit (e : Event) (s : State) : State := { s with trace := s.trace ++ [e] }

/-- `PinWrite(line, level)` (R10). -/
def State.pinWrite (l : Line) (v : Level) (s : State) : State := (s.setLine l v).emit (.pin l v)

/-- `Delay(n)` (R10, R310): changes no state. -/
def State.delay (_n : Nat) (s : State) : State := s

/-! ## The environment's answers -/

/-- The data-in bit the environment answers next (R63): a ready answer, else a free one. -/
def State.misoNext (s : State) : Bool :=
  match s.misoIn with
  | b :: _ => b
  | [] => Config.freeMiso s.misoDraws

/-- The answer just given is used up. -/
def State.misoAdvance (s : State) : State :=
  match s.misoIn with
  | _ :: rest => { s with misoIn := rest }
  | [] => { s with misoDraws := s.misoDraws + 1 }

/-- The pair `(fe, oe)` the environment draws next (R132). -/
def State.errNext (s : State) : Bool × Bool :=
  match s.errIn with
  | e :: _ => e
  | [] => Config.freeError s.errDraws

/-- The draw just made is used up. -/
def State.errAdvance (s : State) : State :=
  match s.errIn with
  | _ :: rest => { s with errIn := rest }
  | [] => { s with errDraws := s.errDraws + 1 }

/-! ## The bit engine -/

/-- The bit `SampleIn()` takes (R133): in loopback the level of `MOSI`, else the environment's answer. -/
def State.sampleBit (cfg : BusConfig) (s : State) : Bool := if cfg.loopback then s.mosi.val else s.misoNext

/-- The state after `SampleIn()` (R133). In loopback the environment is not asked. -/
def State.sampled (cfg : BusConfig) (s : State) : State :=
  (if cfg.loopback then s else s.misoAdvance).emit (.sample (s.sampleBit cfg))

/-- `SR.rx <- (SR.rx << 1) + b` (R125). -/
def State.shiftInBit (b : Bool) (s : State) : State :=
  { s with sr := { s.sr with val := { s.sr.val with rx := shiftIn s.sr.val.rx b } } }

/-- `SR.i <- k` (R21). -/
def State.setBitIndex (k : Nat) (s : State) : State :=
  { s with sr := { s.sr with val := { s.sr.val with i := k } } }

/-- One more bit of the running transfer is complete (R24). -/
def OpState.nextBit : OpState → OpState
  | .busy op p => .busy op ⟨p.transfers, p.bits + 1⟩
  | .idle => .idle
  | .halted => .halted

/-- The end of a bit time: the position counts the bit (R24). -/
def State.countBit (s : State) : State := { s with opstate := s.opstate.nextBit }

/-- One bit time (R96, R125): bit `k` of `SR.tx` goes out, one bit comes in, and the bit is counted (R24). `da` and `db`
are the two delays. -/
def State.shiftBit (cfg : BusConfig) (da db k : Nat) (s0 : State) : State :=
  let idle := cfg.pol.idleLevel
  let s := s0.setBitIndex k
  let t := s.sr.val.tx.getLsbD k
  match cfg.pha with
  | .firstEdge =>
    let s1 := ((s.pinWrite .mosi t).delay da).pinWrite .sclk (!idle)
    (((s1.sampled cfg).delay db).pinWrite .sclk idle).shiftInBit (s1.sampleBit cfg) |>.countBit
  | .secondEdge =>
    let s1 := (((s.pinWrite .sclk (!idle)).pinWrite .mosi t).delay da).pinWrite .sclk idle
    ((s1.sampled cfg).delay db).shiftInBit (s1.sampleBit cfg) |>.countBit

/-- The loop over the bits, from bit `k-1` down to bit 0 (R125). -/
def State.shiftLoop (cfg : BusConfig) (da db : Nat) : Nat → State → State
  | 0, s => s
  | k + 1, s => State.shiftLoop cfg da db k (s.shiftBit cfg da db k)

/-- `SR.tx <- d[n-1:0] ; SR.rx <- 0` (R125). -/
def State.loadSr (n : Nat) (d : Word) (s : State) : State := { s with sr := Reg.written ⟨truncBits n d, 0, n - 1⟩ }

/-- After the last bit `SR` has no meaning any more (R21). -/
def State.retireSr (s : State) : State := { s with sr := Reg.unspecified s.sr.val }

/-- `ShiftBits_sw(n, d)` (R125): the bits are in `SR.rx` at the end. -/
def State.shiftBitsSw (cfg : BusConfig) (n : Nat) (d : Word) (s : State) : State :=
  (s.loadSr n d).shiftLoop cfg s.board.delayA s.board.delayB n

/-- The shifter's step (R131, R132): it takes `TXBUF`, makes the events of the software engine without the delays,
delivers the word, and the environment draws the errors. -/
def State.shifterStep (cfg : BusConfig) (n : Nat) (s : State) : State :=
  let s1 := ((s.takeTxbuf.loadSr n s.txbuf.val).shiftLoop cfg 0 0 n).deliver
  s1.errAdvance.orErrors s1.errNext

/-! ## Transfers -/

/-- One more transfer of the running operation is complete, and no bit of the one after it (R24). -/
def OpState.next : OpState → OpState
  | .busy op p => .busy op ⟨p.transfers + 1, 0⟩
  | .idle => .idle
  | .halted => .halted

/-- The end of a transfer: `SR` is retired and the position advances (R21, R24). -/
def State.endTransfer (s : State) : State := { s.retireSr with opstate := s.opstate.next }

/-- A transfer of the software-timed variant (R125): it cannot fail. -/
def transferSw (cfg : BusConfig) (n : Nat) (d : Word) (s : State) : Run Word :=
  let s1 := s.shiftBitsSw cfg n d
  .ok s1.sr.val.rx s1.endTransfer

/-- `ShiftBits_hw(n, d)` (R129): two polls around the shifter's step, then the read of `RXBUF` and the error check. A
poll that cannot end is a fault (U5). -/
def transferHw (cfg : BusConfig) (n : Nat) (d : Word) (s : State) : Run Word :=
  if s.swrst || !s.txrdy then .fault .pollNeverEnds
  else
    let s1 := (s.writeTxbuf (truncBits n d)).shifterStep cfg n
    match errorOf s1.fe s1.oe s1.rxbuf.val with
    | some e => .raise e s1.clearOnRead.endTransfer
    | none => .ok s1.rxbuf.val s1.clearOnRead.endTransfer

/-- The admission of a transfer (R137): the refusal, if there is one, in the order of the rule. R137 reads `CFG.ORDER` and
`CFG.WIDTH`; where `CFG` is unspecified that read has no step and is refused `UnspecifiedRead` (U1, R46, R293). Its place
after the bit count is log entry 5. -/
def transferRefusal (n : Nat) (s : State) : Option Refusal :=
  if !s.busReady then some .unconfigured
  else if !bitCountOk n then some .bitCountOutOfRange
  else if !s.cfg.specified then some .unspecifiedRead
  else if !s.cfg.val.supported then some .unsupportedConfig
  else none

/-- `BUS.XFER n, d` as a part of an operation (R126): admission, then the engine of the variant. -/
def transfer (n : Nat) (d : Word) (s : State) : Run Word :=
  match transferRefusal n s with
  | some r => .refuse r
  | none =>
    match s.board.variant with
    | .softwareTimed => transferSw s.cfg.val n d s
    | .peripheralTimed => transferHw s.cfg.val n d s

/-- `BUS.SEND n, d` as a part of an operation (R127): the result is dropped. -/
def transferSend (n : Nat) (d : Word) (s : State) : Run Unit := (transfer n d s).bind fun _ s => .ok () s

/-- `BUS.RECV n` as a part of an operation (R128). -/
def transferRecv (n : Nat) (s : State) : Run Word := transfer n 0 s

/-! ## Configuration -/

/-- The reset hold around a write of `CFG` in the peripheral-timed variant (R122, R334): `SWRST` is set, the flags take
their hold values, all five fields are written, `SWRST` is cleared. -/
def State.holdAndApply (cfg : BusConfig) (s : State) : State :=
  let held := ({ s with swrst := true } : State).holdFlags
  { held with cfg := Reg.written cfg, swrst := false }

/-- The write of a configuration (R121, R122): with the reset hold in the peripheral-timed variant; then the clock goes to
its idle level and the memo is set. The event is appended in both variants (log entry 16). -/
def State.applyConfig (cfg : BusConfig) (s : State) : State :=
  let s1 : State :=
    match s.board.variant with
    | .peripheralTimed => s.holdAndApply cfg
    | .softwareTimed => { s with cfg := Reg.written cfg }
  { s1.pinWrite .sclk cfg.pol.idleLevel with cfgCur := Reg.written cfg.mode }

/-- `BUS.INIT` after its checks (R121). The software-timed variant has no prescaler (D48). -/
def State.initBus (baud : Nat) (cfg : BusConfig) (s : State) : State :=
  let s1 : State :=
    match s.board.variant with
    | .peripheralTimed => { s with prescaler := Reg.written (prescalerOf s.board.clockHz baud) }
    | .softwareTimed => s
  { s1.applyConfig cfg with busReady := true }

/-- `BUS.CONFIG cfg` as a part of an operation (R122). -/
def reconfigure (cfg : BusConfig) (s : State) : Run Unit :=
  if !s.busReady then .refuse .unconfigured else .ok () (s.applyConfig cfg)

/-- `BUS.IDLE_LOW` and `BUS.IDLE_HIGH` (R123, R124): nothing when the level is already as asked. They read `CFG.POL`; where
`CFG` is unspecified that read has no step and is refused `UnspecifiedRead` (U1, R46, R293). -/
def setIdle (p : Polarity) (s : State) : Run Unit :=
  if !s.busReady then .refuse .unconfigured
  else if !s.cfg.specified then .refuse .unspecifiedRead
  else if s.cfg.val.pol = p then .ok () s
  else reconfigure { s.cfg.val with pol := p } s

/-- `EnsureConfig(dev)` (R135): reconfigures only where the mode in force differs from the device's. It reads `CFG_CUR`, and
`CFG` is read by it or by the transfer after it (R137); where one is unspecified that read has no step and is refused
`UnspecifiedRead` (U1, R46, R293). -/
def ensureConfig (d : Dev) (s : State) : Run Unit :=
  if !s.busReady then .refuse .unconfigured
  else if !(s.cfg.specified && s.cfgCur.specified) then .refuse .unspecifiedRead
  else match s.board.devMode d with
    | none => .refuse .illFormedConfiguration
    | some m => if s.cfgCur.val = m then .ok () s else reconfigure (s.cfg.val.withMode m) s

/-! ## Device transactions -/

/-- The end of a transaction: the chip select goes high after a value and after an error alike (R161, R165, R302). -/
def Run.deassert {α : Type} (d : Dev) (x : Run α) : Run α :=
  match x with
  | .ok a s => .ok a (s.pinWrite (.cs d) true)
  | .raise e s => .raise e (s.pinWrite (.cs d) true)
  | .refuse r => .refuse r
  | .fault f => .fault f

/-- `CFG` and `CFG_CUR` as they were in `before` (R302): where `EnsureConfig` has changed the mode, the earlier
configuration is applied again as R122 does, so that the clock rests at its idle level (R138; log entry 29). -/
def State.restoreConfig (before s : State) : State :=
  if s.cfgCur.val = before.cfgCur.val then s else s.applyConfig before.cfg.val

/-- The end of a transaction that raises: the configuration is as before the operation (R302). -/
def Run.restoring {α : Type} (before : State) (x : Run α) : Run α :=
  match x with
  | .ok a s => .ok a s
  | .raise e s => .raise e (before.restoreConfig s)
  | .refuse r => .refuse r
  | .fault f => .fault f

/-- A transaction (R70, R107): the mode of the device, chip select low, the transfers, chip select high; after an error
the configuration of before (R302). -/
def transaction {α : Type} (d : Dev) (body : State → Run α) (s : State) : Run α :=
  (ensureConfig d s).bind fun _ s1 => ((body (s1.pinWrite (.cs d) false)).deassert d).restoring s

/-- The segments of an ADC read of channel `k` (R161): one window for channel 0, five segments for any other. The count
is the low 12 bits of the last transfer (R100). -/
def adcSegments (k : Nat) (s : State) : Run (BitVec 12) :=
  if k = 0 then (transfer 16 0 s).bind fun rx s => .ok (rx.setWidth 12) s
  else
    (transferSend 2 0 s).bind fun _ s =>
    (transferSend 3 (BitVec.ofNat 32 k) s).bind fun _ s =>
    (transferRecv 11 s).bind fun _ s =>
    (transferRecv 4 s).bind fun _ s =>
    (transferRecv 12 s).bind fun rx s => .ok (rx.setWidth 12) s

/-- `MemRead((adc, k), 12)` (R61): the ADC transaction. -/
def memRead (a : AdcId) (k : Nat) (s : State) : Run (BitVec 12) := transaction (.adc a) (adcSegments k) s

/-- `MemWrite((Dac, command, ch), 24, v)` (R62, R180): the DAC transaction. -/
def memWriteDac (cmd : DacCommand) (ch v : Nat) (s : State) : Run Unit :=
  transaction .dac (transferSend 24 (dacFrame (s.board.dacCodes.code cmd) ch v)) s

/-- `MemWrite((Digipot, h), 16, w)` (R62, R210): the digipot transaction. -/
def memWriteDpot (h w : Nat) (s : State) : Run Unit := transaction .digipot (transferSend 16 (dpotFrame h w)) s

/-- `DacSend(command, ch, v)` (R180) with its admission (R190). -/
def dacSend (cmd : DacCommand) (ch v : Nat) (s : State) : Run Unit :=
  if dacFieldsOk ch v then memWriteDac cmd ch v s else .refuse .operandOutOfRange

/-- The digipot frame write (R210) with its admission (R211). -/
def dpotSend (h w : Nat) (s : State) : Run Unit :=
  if dpotFieldsOk h w then memWriteDpot h w s else .refuse .operandOutOfRange

/-! ## Sensor reads -/

/-- `ADC.READ_COUNT a, r` for a Sensor record (R161) with its admission (R162). -/
def readCountOf (a : AdcId) (r : Sensor) (s : State) : Run (BitVec 12) :=
  if r.adc = a ∧ r.channel ≤ 7 then memRead a r.channel s else .refuse .sensorAdcMismatch

/-- `ADC.READ_MV a, r` for a Sensor record (R163). -/
def readMvOf (a : AdcId) (r : Sensor) (s : State) : Run Int :=
  (readCountOf a r s).bind fun c s => .ok (adcMillivolts c r.vrefMv) s

/-- The Sensor record of a name; a name not in `SENSORS` is refused (R293). -/
def withSensor {α : Type} (n : SensorName) (body : Sensor → State → Run α) (s : State) : Run α :=
  match s.board.sensor n with
  | none => .refuse .noSuchSensor
  | some r => body r s

/-- `ReadSensor(s)` (R242): the millivolts through the sensor's calibration. -/
def readSensor (n : SensorName) (s : State) : Run Int :=
  withSensor n (fun r s => (readMvOf r.adc r s).bind fun mv t => .ok (s.board.calibrate r.calRead mv) t) s

/-- A read of a supply's sensor (R247 to R249, R252 to R254); a supply without it is refused. -/
def readSupply (n : Option SensorName) (s : State) : Run Int :=
  match n with
  | none => .refuse .noSuchSensor
  | some n => readSensor n s

/-- A voltage set through the DAC (R245, R246). The count is in 0..4095: R7 demands it of the board, and admission
checks the board. -/
def dacSet (channel : BitVec 4) (count : Int) (s : State) : Run Unit :=
  dacSend s.board.setVoltageCmd channel.toNat count.toNat s

/-! ## Relays -/

/-- The line of relay `r` (R41). -/
def relayLine (r : Nat) : Line := if r = 0 then .relay0 else .relay1

/-- A relay operation (R250, R251): `connect` drives the active level, otherwise the opposite one. -/
def relayDrive (r : Nat) (connect : Bool) (s : State) : Run Unit :=
  if relayIndexOk r then
    .ok () (s.pinWrite (relayLine r) (if connect then s.board.relayActive r else !s.board.relayActive r))
  else .refuse .operandOutOfRange

/-! ## The power gate -/

/-- The payload is on: `OnOff` or `OnOn` (R36). -/
def Power.payloadOn : Power → Bool
  | .offOff => false
  | .onOff => true
  | .onOn => true

/-- The heater is on: `OnOn` (R36). -/
def Power.heaterOn : Power → Bool
  | .offOff => false
  | .onOff => false
  | .onOn => true

/-- The gate of a sensor read (R225): a `PayloadOn` sensor needs the payload on. A name that is no sensor has no class
and is left to the operation, which refuses it. -/
def sensorLegal (b : Board) (p : Power) (n : SensorName) : Bool :=
  match b.sensor n with
  | none => true
  | some r => decide (r.cls = .always) || p.payloadOn

/-- `Gate(op)`: the legality table of R225. -/
def gateLegal (b : Board) (p : Power) : Instr → Bool
  | .pwrEnablePayload => decide (p = .offOff)
  | .pwrDisablePayload => decide (p = .onOff)
  | .pwrEnableHeater => decide (p = .onOff)
  | .pwrDisableHeater => decide (p = .onOn)
  | .senseRead n => sensorLegal b p n
  | .adcReadCount _ n => sensorLegal b p n
  | .adcReadMv _ n => sensorLegal b p n
  | .heaterSetMv _ => p.payloadOn
  | .tetherSetMv _ => p.payloadOn
  | .cathodeSetMv _ => p.payloadOn
  | .heaterGetMv => p.payloadOn
  | .tetherGetMv => p.payloadOn
  | .cathodeGetMv => p.payloadOn
  | .heaterGetMa => p.payloadOn
  | .tetherGetMa => p.payloadOn
  | .cathodeGetMa => p.payloadOn
  | .relayConnect _ => p.payloadOn
  | .relayDisconnect _ => p.payloadOn
  | .dacWrite _ _ => p.payloadOn
  | .dacUpdate _ _ => p.payloadOn
  | .dacWriteUpdateOne _ _ => p.payloadOn
  | .dacWriteUpdateAll _ _ => p.payloadOn
  | .dacPoweroffChannel _ _ => p.payloadOn
  | .dacPoweroffChip _ _ => p.payloadOn
  | .dacRefInternal _ _ => p.payloadOn
  | .dacRefExternal _ _ => p.payloadOn
  | .dacNop _ _ => p.payloadOn
  | .dpotWrite _ _ => p.payloadOn
  | .dacMv2Count _ => true
  | .dpotOhms2Count _ => true
  | .busInit _ _ => true
  | .busConfig _ => true
  | .busIdleLow => true
  | .busIdleHigh => true
  | .busXfer _ _ => true
  | .busSend _ _ => true
  | .busRecv _ => true

/-! ## The start and the end of an operation -/

/-- Returning (R24, R77): the result goes to the host and the sequencer is idle again. -/
def State.finish (r : Result) (s : State) : State := { s with opstate := .idle, completion := some (.done r) }

/-- Raising (R301, R303, R304): the error goes to the host and the sequencer is idle again. Nothing else is saved or
changed: there is no cause register, no vector and no mode change, and no return instruction. -/
def State.takeError (e : BusError) (s : State) : State := { s with opstate := .idle, completion := some (.raised e) }

/-- The outcome of an operation from the way its body ended. -/
def Run.complete {α : Type} (toResult : α → Result) (x : Run α) : Host.Outcome State Fault Refusal :=
  match x with
  | .ok a s => .next (s.finish (toResult a))
  | .raise e s => .next (s.takeError e)
  | .refuse r => .refused r
  | .fault f => .fault f

/-- The admission common to all operations, in the order of R300 (log entry 9): the sequencer is idle (R24, R44), the gate
(R225), construction is done or the operation is the one that may come before it (R328), the parameters (R7). -/
def admission (beforeConstruction : Bool) (i : Instr) (s : State) : Option (Host.Outcome State Fault Refusal) :=
  match s.opstate with
  | .halted => some (.fault .halted)
  | .busy _ _ => some (.fault .busy)
  | .idle =>
    if !gateLegal s.board s.power i then some (.refused .illegalInState)
    else if !(s.constructed || beforeConstruction) then some (.refused .unconfigured)
    else if !s.board.wf then some (.refused .illFormedConfiguration)
    else none

/-- `OPSTATE <- Busy(op, 0)` (R24): no transfer and no bit complete. -/
def State.begin (i : Instr) (s : State) : State := { s with opstate := .busy i ⟨0, 0⟩ }

/-- One operation: admission, then its body, then its end. -/
def issue {α : Type} (i : Instr) (toResult : α → Result) (body : State → Run α) (s : State) :
    Host.Outcome State Fault Refusal :=
  match admission false i s with
  | some o => o
  | none => (body (s.begin i)).complete toResult

/-- An operation that returns nothing. -/
def issueUnit (i : Instr) (body : State → Run Unit) (s : State) : Host.Outcome State Fault Refusal :=
  issue i (fun _ => .unit) body s

/-- The one operation that is admitted before construction: `BUS.INIT` (R328). -/
def issueBoot (i : Instr) (body : State → Run Unit) (s : State) : Host.Outcome State Fault Refusal :=
  match admission true i s with
  | some o => o
  | none => (body (s.begin i)).complete (fun _ => .unit)

/-! ## Construction and physical reset -/

/-- `PinWrite(CS[dev], 1)` for every device of a list (R328, step 4). -/
def State.raiseCs : List Dev → State → State
  | [], s => s
  | d :: rest, s => State.raiseCs rest (s.pinWrite (.cs d) true)

/-- Steps 4 and 5 of the boot sequence (R328): chip selects high, heater enable low, payload enable low, `OffOff`. -/
def State.construct (s : State) : State :=
  let s1 := ((s.raiseCs s.board.devs).pinWrite .heaterEn false).pinWrite .payloadEn false
  { s1 with power := .offOff, constructed := true }

/-- Physical reset (R320): every piece of state at its reset value and the trace empty. The parameters, the host's
further steps and the environment's answers are outside the block and stay (log entry 23). -/
def State.physicalReset (s : State) : State :=
  { State.resetOn s.board with
    script := s.script, misoIn := s.misoIn, misoDraws := s.misoDraws, errIn := s.errIn, errDraws := s.errDraws }

/-- One event of an operation happens: a line takes its level, or a data-in bit is taken (R45, R133). -/
def State.happen (loopback : Bool) (e : Event) (s : State) : State :=
  match e with
  | .pin l v => s.pinWrite l v
  | .sample b => (if loopback then s else s.misoAdvance).emit (.sample b)

/-- The events of a list happen, in order. -/
def State.happenAll (loopback : Bool) : List Event → State → State
  | [], s => s
  | e :: rest, s => State.happenAll loopback rest (s.happen loopback e)

/-- The bit counts of the transfers that send a frame, in order (R126, R161, R180, R210): an ADC read's long form is five
transfers in one window, every other frame is one. -/
def transferBits (f : Frame) : List Nat :=
  match f.line with
  | some (.adc _) => if f.nbits = 32 then [2, 3, 11, 4, 12] else [f.nbits]
  | some .dac => [f.nbits]
  | some .digipot => [f.nbits]
  | none => [f.nbits]

/-- The same for an operation; no transfer for an operation without a frame. -/
def transferBitsOf (b : Board) (i : Instr) : List Nat :=
  match encode b i with
  | none => []
  | some f => transferBits f

/-- The event drives a chip select low: a transaction begins (R70). -/
def Event.selects : Event → Bool
  | .pin (.cs _) v => !v
  | .pin .sclk _ => false
  | .pin .mosi _ => false
  | .pin .payloadEn _ => false
  | .pin .heaterEn _ => false
  | .pin .relay0 _ => false
  | .pin .relay1 _ => false
  | .sample _ => false

/-- The event is a data-in bit taken. -/
def Event.isSample : Event → Bool
  | .pin _ _ => false
  | .sample _ => true

/-- The event is an edge of the clock. -/
def Event.isEdge : Event → Bool
  | .pin l _ => decide (l = .sclk)
  | .sample _ => false

/-- The bit times complete after the events `evs` of an operation: one sample and two clock edges make a bit time, in
whichever order the phase puts them (R96), and a clock event before the transaction belongs to none (R135). -/
def bitTimes (evs : List Event) : Nat :=
  let inTransaction := evs.reverse.takeWhile fun e => !e.selects
  min (inTransaction.countP Event.isSample) (inTransaction.countP Event.isEdge / 2)

/-- The position after `k` bit times of transfers with the bit counts of a list (R24). A transfer whose last bit is done
is complete: what is left of it is no event. -/
def Position.after : List Nat → Nat → Position
  | [], k => ⟨0, k⟩
  | n :: rest, k =>
    if k < n then ⟨0, k⟩ else ⟨(Position.after rest (k - n)).transfers + 1, (Position.after rest (k - n)).bits⟩

/-- The environment has made the draws of `k` more transfers (R132). -/
def State.drawErrors : Nat → State → State
  | 0, s => s
  | k + 1, s => State.drawErrors k s.errAdvance

/-- The block in the middle of operation `i`, when the events `evs` of it have happened (R24, R320): `Busy` at the
position those events reach, each line at the level it was last driven to, and the environment's answers used up: a data-in
bit for each sample, and in the peripheral-timed variant a draw for each transfer completed (R132). It is followed by
physical reset, which overwrites every register (log entry 3). -/
def State.midway (i : Instr) (evs : List Event) (s : State) : State :=
  let p := Position.after (transferBitsOf s.board i) (bitTimes evs)
  let t := State.happenAll s.cfg.val.loopback evs s
  let drawn :=
    match s.board.variant with
    | .softwareTimed => t
    | .peripheralTimed => t.drawErrors p.transfers
  { drawn with opstate := .busy i p }

end Sys2Proof.Machine
end

