-- ==== Sys2Proof/Machine/Adc.lean ====
section
/-! DEFINITION. The meanings of the two ADC engine operations (41_adc.md R161 to R166). -/

namespace Sys2Proof.Machine

/-- `ADC.READ_COUNT adc, sensor` (R161). -/
def execAdcReadCount (adc : AdcId) (sensor : SensorName) (s : State) : Host.Outcome State Fault Refusal :=
  issue (.adcReadCount adc sensor) .count12 (withSensor sensor (readCountOf adc)) s

/-- `ADC.READ_MV adc, sensor` (R163). -/
def execAdcReadMv (adc : AdcId) (sensor : SensorName) (s : State) : Host.Outcome State Fault Refusal :=
  issue (.adcReadMv adc sensor) .value (withSensor sensor (readMvOf adc)) s

end Sys2Proof.Machine
end

