-- ==== Sys2Proof/Machine/Bus.lean ====
section
/-! DEFINITION. The meanings of the seven transport operations (40_bus_transport.md R121 to R128). -/

namespace Sys2Proof.Machine

/-- `BUS.INIT baud, cfg` (R121). -/
def execBusInit (baud : Nat) (cfg : BusConfig) (s : State) : Host.Outcome State Fault Refusal :=
  issueBoot (.busInit baud cfg)
    (fun s => if s.busReady then .refuse .alreadyConstructed else .ok () (s.initBus baud cfg)) s

/-- `BUS.CONFIG cfg` (R122). -/
def execBusConfig (cfg : BusConfig) (s : State) : Host.Outcome State Fault Refusal :=
  issueUnit (.busConfig cfg) (reconfigure cfg) s

/-- `BUS.IDLE_LOW` (R123). -/
def execBusIdleLow (s : State) : Host.Outcome State Fault Refusal := issueUnit .busIdleLow (setIdle .idleLow) s

/-- `BUS.IDLE_HIGH` (R124). -/
def execBusIdleHigh (s : State) : Host.Outcome State Fault Refusal := issueUnit .busIdleHigh (setIdle .idleHigh) s

/-- `BUS.XFER n, data` (R126). -/
def execBusXfer (n : Nat) (data : Word) (s : State) : Host.Outcome State Fault Refusal :=
  issue (.busXfer n data) .word (transfer n data) s

/-- `BUS.SEND n, data` (R127). -/
def execBusSend (n : Nat) (data : Word) (s : State) : Host.Outcome State Fault Refusal :=
  issueUnit (.busSend n data) (transferSend n data) s

/-- `BUS.RECV n` (R128). -/
def execBusRecv (n : Nat) (s : State) : Host.Outcome State Fault Refusal :=
  issue (.busRecv n) .word (transferRecv n) s

end Sys2Proof.Machine
end

