-- ==== Sys2Proof/Machine/Dac.lean ====
section
/-! DEFINITION. The meanings of the ten DAC engine operations (42_dac.md R180 to R193). What a command does inside the
DAC is not in the spec (R193): the block sends the frame. -/

namespace Sys2Proof.Machine

/-- `DAC.WRITE ch, v` (R181). -/
def execDacWrite (ch v : Nat) (s : State) : Host.Outcome State Fault Refusal :=
  issueUnit (.dacWrite ch v) (dacSend .writeOnly ch v) s

/-- `DAC.UPDATE ch, v` (R182). -/
def execDacUpdate (ch v : Nat) (s : State) : Host.Outcome State Fault Refusal :=
  issueUnit (.dacUpdate ch v) (dacSend .updateOnly ch v) s

/-- `DAC.WRITE_UPDATE_ONE ch, v` (R183). -/
def execDacWriteUpdateOne (ch v : Nat) (s : State) : Host.Outcome State Fault Refusal :=
  issueUnit (.dacWriteUpdateOne ch v) (dacSend .writeAndUpdateOne ch v) s

/-- `DAC.WRITE_UPDATE_ALL ch, v` (R184). -/
def execDacWriteUpdateAll (ch v : Nat) (s : State) : Host.Outcome State Fault Refusal :=
  issueUnit (.dacWriteUpdateAll ch v) (dacSend .writeAndUpdateAll ch v) s

/-- `DAC.POWEROFF_CHANNEL ch, v` (R185). -/
def execDacPoweroffChannel (ch v : Nat) (s : State) : Host.Outcome State Fault Refusal :=
  issueUnit (.dacPoweroffChannel ch v) (dacSend .powerOffChannel ch v) s

/-- `DAC.POWEROFF_CHIP ch, v` (R186). -/
def execDacPoweroffChip (ch v : Nat) (s : State) : Host.Outcome State Fault Refusal :=
  issueUnit (.dacPoweroffChip ch v) (dacSend .powerOffChip ch v) s

/-- `DAC.REF_INTERNAL ch, v` (R187). -/
def execDacRefInternal (ch v : Nat) (s : State) : Host.Outcome State Fault Refusal :=
  issueUnit (.dacRefInternal ch v) (dacSend .selectInternalReference ch v) s

/-- `DAC.REF_EXTERNAL ch, v` (R188). -/
def execDacRefExternal (ch v : Nat) (s : State) : Host.Outcome State Fault Refusal :=
  issueUnit (.dacRefExternal ch v) (dacSend .selectExternalReference ch v) s

/-- `DAC.NOP ch, v` (R189). -/
def execDacNop (ch v : Nat) (s : State) : Host.Outcome State Fault Refusal :=
  issueUnit (.dacNop ch v) (dacSend .noOp ch v) s

/-- `DAC.MV2COUNT mv` (R191): pure. -/
def execDacMv2Count (mv : Int) (s : State) : Host.Outcome State Fault Refusal :=
  issue (.dacMv2Count mv) .count12 (fun s => .ok (BitVec.ofNat 12 (mv2Count s.board.dacVccMv mv)) s) s

end Sys2Proof.Machine
end

