-- ==== Sys2Proof/Machine/Dpot.lean ====
section
/-! DEFINITION. The meanings of the two digipot engine operations (43_digipot.md R210 to R214). -/

namespace Sys2Proof.Machine

/-- `DPOT.WRITE h, w` (R210). -/
def execDpotWrite (h w : Nat) (s : State) : Host.Outcome State Fault Refusal :=
  issueUnit (.dpotWrite h w) (dpotSend h w) s

/-- `DPOT.OHMS2COUNT ohms` (R212): pure. -/
def execDpotOhms2Count (ohms : Int) (s : State) : Host.Outcome State Fault Refusal :=
  issue (.dpotOhms2Count ohms) .count8 (fun s => .ok (BitVec.ofNat 8 (s.board.ohms2Count ohms)) s) s

end Sys2Proof.Machine
end

