-- ==== Sys2Proof/Machine/Power.lean ====
section
/-! DEFINITION. The meanings of the four transitions (44_power_sequencer.md R226 to R229, R232) and of the two relay
operations (R250, R251). The gate of R225 stands in `issue`. -/

namespace Sys2Proof.Machine

/-- `PWR.ENABLE_PAYLOAD` (R226). -/
def execPwrEnablePayload (s : State) : Host.Outcome State Fault Refusal :=
  issueUnit .pwrEnablePayload (fun s => .ok () { s.pinWrite .payloadEn true with power := .onOff }) s

/-- `PWR.DISABLE_PAYLOAD` (R227). -/
def execPwrDisablePayload (s : State) : Host.Outcome State Fault Refusal :=
  issueUnit .pwrDisablePayload (fun s => .ok () { s.pinWrite .payloadEn false with power := .offOff }) s

/-- `PWR.ENABLE_HEATER` (R228). -/
def execPwrEnableHeater (s : State) : Host.Outcome State Fault Refusal :=
  issueUnit .pwrEnableHeater (fun s => .ok () { s.pinWrite .heaterEn true with power := .onOn }) s

/-- `PWR.DISABLE_HEATER` (R229). -/
def execPwrDisableHeater (s : State) : Host.Outcome State Fault Refusal :=
  issueUnit .pwrDisableHeater (fun s => .ok () { s.pinWrite .heaterEn false with power := .onOff }) s

/-- `RELAY.CONNECT r` (R250). -/
def execRelayConnect (r : Nat) (s : State) : Host.Outcome State Fault Refusal :=
  issueUnit (.relayConnect r) (relayDrive r true) s

/-- `RELAY.DISCONNECT r` (R251). -/
def execRelayDisconnect (r : Nat) (s : State) : Host.Outcome State Fault Refusal :=
  issueUnit (.relayDisconnect r) (relayDrive r false) s

end Sys2Proof.Machine
end

