-- ==== Sys2Proof/Machine/Supply.lean ====
section
/-! DEFINITION. The meanings of the sensor read and of the supply operations (44_power_sequencer.md R240 to R249, R252 to
R254). -/

namespace Sys2Proof.Machine

/-- `SENSE.READ s` (R240). -/
def execSenseRead (sensor : SensorName) (s : State) : Host.Outcome State Fault Refusal :=
  issue (.senseRead sensor) .value (readSensor sensor) s

/-- `HEATER.SET_MV mv` (R244): legal with the heater off, the payload axis alone is checked. -/
def execHeaterSetMv (mv : Int) (s : State) : Host.Outcome State Fault Refusal :=
  issueUnit (.heaterSetMv mv) (fun s => dpotSend s.board.digipotHeaterChannel.toNat (s.board.heaterWiper mv) s) s

/-- `TETHER.SET_MV mv` (R245). -/
def execTetherSetMv (mv : Int) (s : State) : Host.Outcome State Fault Refusal :=
  issueUnit (.tetherSetMv mv) (fun s => dacSet s.board.tetherChannel (s.board.tetherCount mv) s) s

/-- `CATHODE.SET_MV mv` (R246). -/
def execCathodeSetMv (mv : Int) (s : State) : Host.Outcome State Fault Refusal :=
  issueUnit (.cathodeSetMv mv) (fun s => dacSet s.board.cathodeChannel (s.board.cathodeCount mv) s) s

/-- `HEATER.GET_MV` (R247). -/
def execHeaterGetMv (s : State) : Host.Outcome State Fault Refusal :=
  issue .heaterGetMv .value (fun s => readSupply s.board.heaterSensors.voltage s) s

/-- `TETHER.GET_MV` (R248). -/
def execTetherGetMv (s : State) : Host.Outcome State Fault Refusal :=
  issue .tetherGetMv .value (fun s => readSupply s.board.tetherSensors.voltage s) s

/-- `CATHODE.GET_MV` (R249). -/
def execCathodeGetMv (s : State) : Host.Outcome State Fault Refusal :=
  issue .cathodeGetMv .value (fun s => readSupply s.board.cathodeSensors.voltage s) s

/-- `HEATER.GET_MA` (R252). -/
def execHeaterGetMa (s : State) : Host.Outcome State Fault Refusal :=
  issue .heaterGetMa .value (fun s => readSupply s.board.heaterSensors.current s) s

/-- `TETHER.GET_MA` (R253). -/
def execTetherGetMa (s : State) : Host.Outcome State Fault Refusal :=
  issue .tetherGetMa .value (fun s => readSupply s.board.tetherSensors.current s) s

/-- `CATHODE.GET_MA` (R254). -/
def execCathodeGetMa (s : State) : Host.Outcome State Fault Refusal :=
  issue .cathodeGetMa .value (fun s => readSupply s.board.cathodeSensors.current s) s

end Sys2Proof.Machine
end

