-- ==== Sys2Proof/Machine/Dispatch.lean ====
section
/-! DEFINITION. The dispatch of an operation to its meaning: one arm per operation of 30_encoding.md R101. -/

namespace Sys2Proof.Machine

def exec (i : Instr) (s : State) : Host.Outcome State Fault Refusal :=
  match i with
  | .busInit baud cfg => Sys2Proof.Machine.execBusInit baud cfg s
  | .busConfig cfg => Sys2Proof.Machine.execBusConfig cfg s
  | .busIdleLow => Sys2Proof.Machine.execBusIdleLow s
  | .busIdleHigh => Sys2Proof.Machine.execBusIdleHigh s
  | .busXfer n data => Sys2Proof.Machine.execBusXfer n data s
  | .busSend n data => Sys2Proof.Machine.execBusSend n data s
  | .busRecv n => Sys2Proof.Machine.execBusRecv n s
  | .adcReadCount adc sensor => Sys2Proof.Machine.execAdcReadCount adc sensor s
  | .adcReadMv adc sensor => Sys2Proof.Machine.execAdcReadMv adc sensor s
  | .dacWrite ch v => Sys2Proof.Machine.execDacWrite ch v s
  | .dacUpdate ch v => Sys2Proof.Machine.execDacUpdate ch v s
  | .dacWriteUpdateOne ch v => Sys2Proof.Machine.execDacWriteUpdateOne ch v s
  | .dacWriteUpdateAll ch v => Sys2Proof.Machine.execDacWriteUpdateAll ch v s
  | .dacPoweroffChannel ch v => Sys2Proof.Machine.execDacPoweroffChannel ch v s
  | .dacPoweroffChip ch v => Sys2Proof.Machine.execDacPoweroffChip ch v s
  | .dacRefInternal ch v => Sys2Proof.Machine.execDacRefInternal ch v s
  | .dacRefExternal ch v => Sys2Proof.Machine.execDacRefExternal ch v s
  | .dacNop ch v => Sys2Proof.Machine.execDacNop ch v s
  | .dacMv2Count mv => Sys2Proof.Machine.execDacMv2Count mv s
  | .dpotWrite h w => Sys2Proof.Machine.execDpotWrite h w s
  | .dpotOhms2Count ohms => Sys2Proof.Machine.execDpotOhms2Count ohms s
  | .pwrEnablePayload => Sys2Proof.Machine.execPwrEnablePayload s
  | .pwrDisablePayload => Sys2Proof.Machine.execPwrDisablePayload s
  | .pwrEnableHeater => Sys2Proof.Machine.execPwrEnableHeater s
  | .pwrDisableHeater => Sys2Proof.Machine.execPwrDisableHeater s
  | .senseRead sensor => Sys2Proof.Machine.execSenseRead sensor s
  | .heaterSetMv mv => Sys2Proof.Machine.execHeaterSetMv mv s
  | .tetherSetMv mv => Sys2Proof.Machine.execTetherSetMv mv s
  | .cathodeSetMv mv => Sys2Proof.Machine.execCathodeSetMv mv s
  | .heaterGetMv => Sys2Proof.Machine.execHeaterGetMv s
  | .tetherGetMv => Sys2Proof.Machine.execTetherGetMv s
  | .cathodeGetMv => Sys2Proof.Machine.execCathodeGetMv s
  | .relayConnect r => Sys2Proof.Machine.execRelayConnect r s
  | .relayDisconnect r => Sys2Proof.Machine.execRelayDisconnect r s
  | .heaterGetMa => Sys2Proof.Machine.execHeaterGetMa s
  | .tetherGetMa => Sys2Proof.Machine.execTetherGetMa s
  | .cathodeGetMa => Sys2Proof.Machine.execCathodeGetMa s

end Sys2Proof.Machine
end

