-- ==== Sys2Proof/Machine/HostPort.lean ====
section
/-! DEFINITION. The host's steps other than issuing an operation (00_scope.md R12): construction (R328), halt (R296), delay
(R310), physical reset between operations and in the middle of one (R320), and the host at rest. -/

namespace Sys2Proof.Machine

/-- A host step between operations: it needs the sequencer idle (R24, R44, R296). -/
def betweenOps (s : State) (k : Host.Outcome State Fault Refusal) : Host.Outcome State Fault Refusal :=
  match s.opstate with
  | .idle => k
  | .busy _ _ => .fault .busy
  | .halted => .fault .halted

/-- The host issues nothing: an idle block stays as it is (R24; DESIGN CHOICE, log entry 2). A halted block answers the
fault `halted` here too: R44 says that no operation is accepted and no pin changes, and not what a step without a
request is (DESIGN CHOICE, log entry 10). -/
def hostRest (s : State) : Host.Outcome State Fault Refusal := betweenOps s (.next s)

/-- Construction, after `BUS.INIT` and once per reset (R328, R330). -/
def hostConstruct (s : State) : Host.Outcome State Fault Refusal :=
  betweenOps s
    (if !s.busReady then .refused .unconfigured
     else if s.constructed then .refused .alreadyConstructed
     else if !s.board.wf then .refused .illFormedConfiguration
     else .next s.construct)

/-- `HostHalt` (R296): the lines keep their levels. -/
def hostHalt (s : State) : Host.Outcome State Fault Refusal := betweenOps s (.next { s with opstate := .halted })

/-- `Delay(n)` of the host (R310, R337). -/
def hostDelay (n : BitVec 32) (s : State) : Host.Outcome State Fault Refusal :=
  betweenOps s (.next (s.delay n.toNat))

/-- A table word that is no operation's frame: a DAC command outside the nine is `OperandOutOfRange` (R102, R293). -/
def hostBadWord (nbits w : Nat) (s : State) : Host.Outcome State Fault Refusal :=
  betweenOps s (.refused (if reservedTableWord nbits w then .operandOutOfRange else .undecodable))

/-- Physical reset: possible at any time (R320, D47). -/
def hostReset (s : State) : Host.Outcome State Fault Refusal := .next s.physicalReset

/-- Physical reset in the middle of operation `i`, after `k` of the events the operation makes (R12, R70, R320): in a
transfer, in a blocking wait, with a chip select low. `o` is the outcome the operation would have; one that is not
admitted never starts. -/
def hostResetDuring (i : Instr) (k : Nat) (o : Host.Outcome State Fault Refusal) (s : State) :
    Host.Outcome State Fault Refusal :=
  match o with
  | .next t => .next (s.midway i ((t.trace.drop s.trace.length).take k)).physicalReset
  | .fault f => .fault f
  | .refused r => .refused r

/-! ## A table word as the next operation -/

/-- The block runs every operation of the table: idle, booted (R328), under a configuration with a meaning (R137), with the
peripheral ready (R129), the payload on (R225), on a well-formed board (R7). -/
def State.runsWords (s : State) : Bool :=
  s.constructed && s.busReady && decide (s.opstate = .idle) && s.cfg.specified && s.cfgCur.specified
    && s.cfg.val.supported && (decide (s.board.variant = .softwareTimed) || (!s.swrst && s.txrdy))
    && s.power.payloadOn && s.board.wf

/-- What a host does before it presents a table word: the board is the one table words are read on (log entry 12), then
`BUS.INIT`, construction (P0, R328) and `PWR.ENABLE_PAYLOAD` (R226). -/
def State.booted (s : State) : State :=
  let s1 := { s with board := Config.tableBoard, opstate := .idle }
  { ((s1.initBus Config.tableBoard.baud Config.tableCfg).construct).pinWrite .payloadEn true with power := .onOff }

/-- A state in which a table word runs: the state itself where it can, else the booted one (log entry 2). -/
def State.readied (s : State) : State := if s.runsWords then s else s.booted

end Sys2Proof.Machine
end

