-- ==== Sys2Proof/Machine/Step.lean ====
section
/-! DEFINITION. One step of the machine: the host's next step, taken from the command port (20_memory.md R75). -/

namespace Sys2Proof.Machine

/-- What a host step does. -/
def hostStep (h : HostStep) (s : State) : Host.Outcome State Fault Refusal :=
  match h with
  | .issue i => exec i s
  | .tableWord nbits w =>
    match decodeTableWord nbits w with
    | some i => exec i s
    | none => hostBadWord nbits w s
  | .construct => hostConstruct s
  | .halt => hostHalt s
  | .delay n => hostDelay n s
  | .physicalReset => hostReset s
  | .resetDuring i k => hostResetDuring i k (exec i s) s

/-- One step: the first host step of the script, on the state without it; the host at rest where there is none. -/
def step (s : State) : Host.Outcome State Fault Refusal :=
  match s.script with
  | [] => hostRest s
  | h :: rest => hostStep h { s with script := rest }

/-- The state whose next step runs the operation a word of the opcode table stands for (the host's fixed name): the block
readied, and the word in front of the host's script. -/
def State.withFetchWord (s : State) (nbits w : Nat) : State :=
  { s.readied with script := .tableWord nbits w :: s.readied.script }

end Sys2Proof.Machine
end

