-- ==== Sys2Proof/Machine/TestEngine.lean ====
section
/-! DEFINITION. The rules of the automated test engine (45_test_engine_host.md R270 to R282). It is the host and stands
outside the block (R5): it drives the block through the host's steps, and its arithmetic is on exact rationals (D44).
How it represents fractions, and the digits, rounding and padding of its report lines, are not in the spec (N16; log
entry 24). -/

namespace Sys2Proof.Machine

/-! ## What the engine does to the block -/

/-- The operations of 44_power_sequencer.md, the only ones the engine issues (R270). -/
def ofController : Instr → Bool
  | .pwrEnablePayload => true
  | .pwrDisablePayload => true
  | .pwrEnableHeater => true
  | .pwrDisableHeater => true
  | .senseRead _ => true
  | .heaterSetMv _ => true
  | .tetherSetMv _ => true
  | .cathodeSetMv _ => true
  | .heaterGetMv => true
  | .tetherGetMv => true
  | .cathodeGetMv => true
  | .relayConnect _ => true
  | .relayDisconnect _ => true
  | .heaterGetMa => true
  | .tetherGetMa => true
  | .cathodeGetMa => true
  | .busInit _ _ => false
  | .busConfig _ => false
  | .busIdleLow => false
  | .busIdleHigh => false
  | .busXfer _ _ => false
  | .busSend _ _ => false
  | .busRecv _ => false
  | .adcReadCount _ _ => false
  | .adcReadMv _ _ => false
  | .dacWrite _ _ => false
  | .dacUpdate _ _ => false
  | .dacWriteUpdateOne _ _ => false
  | .dacWriteUpdateAll _ _ => false
  | .dacPoweroffChannel _ _ => false
  | .dacPoweroffChip _ _ => false
  | .dacRefInternal _ _ => false
  | .dacRefExternal _ _ => false
  | .dacNop _ _ => false
  | .dacMv2Count _ => false
  | .dpotWrite _ _ => false
  | .dpotOhms2Count _ => false

/-- A step of the engine (R270): an operation of the controller, the collaborator `delay_cycles`, or the drive of a
burn-wire lane, which is pin I/O outside the block (R273, D43). -/
inductive EngineStep where
  | operate (i : Instr)
  | delay (n : BitVec 32)
  | lane (name : String) (on : Bool)
deriving DecidableEq, Repr

/-- How far the steps of a test have come: to their end, or to a step that stopped them. The spec gives the engine no rule
for an operation that is refused or raises an error, but that it does not retry by itself (R304). DESIGN CHOICE (log
entry 24): such an operation ends the measuring, the test gives no result, and the safe set (R281) and the restore of a
lane (R272) are issued all the same. -/
inductive Progress where
  | going (s : State)
  | stopped (s : State)
deriving DecidableEq, Repr

/-- The block where the steps have come to. -/
def Progress.state : Progress → State
  | .going s => s
  | .stopped s => s

/-- The steps that follow, unless one stopped the test. -/
def Progress.andThen (p : Progress) (k : State → Progress) : Progress :=
  match p with
  | .going s => k s
  | .stopped s => .stopped s

/-- What a test makes of the state its steps have come to; nothing if one of them stopped it. -/
def Progress.yields {α : Type} (p : Progress) (f : State → Option α) : Option α :=
  match p with
  | .going s => f s
  | .stopped _ => none

/-- One host step carried out. One that is refused or faults leaves the block as it was (R293) and stops the test; one that
raises is a next state here, and `hostOperate` stops the test on it (DESIGN CHOICE, log entry 24). -/
def hostNext (h : HostStep) (s : State) : Progress :=
  match step { s with script := h :: s.script } with
  | .next t => .going t
  | .fault _ => .stopped s
  | .refused _ => .stopped s

/-- The last operation raised an error (R301). -/
def State.hasRaised (s : State) : Bool :=
  match s.completion with
  | some (.raised _) => true
  | some (.done _) => false
  | none => false

/-- An operation of the engine: one of the controller's (R270), a set or a read alike stopping the test if it raises
(DESIGN CHOICE, log entry 24). -/
def hostOperate (i : Instr) (s : State) : Progress :=
  if ofController i then
    (hostNext (.issue i) s).andThen fun t => if t.hasRaised then .stopped t else .going t
  else .stopped s

/-- A step of the engine on the block; a lane drive leaves the block as it is (D43). -/
def EngineStep.run (e : EngineStep) (s : State) : Progress :=
  match e with
  | .operate i => hostOperate i s
  | .delay n => hostNext (.delay n) s
  | .lane _ _ => .going s

/-- Steps of the engine, in order. -/
def engineRun : List EngineStep → State → Progress
  | [], s => .going s
  | e :: rest, s => (e.run s).andThen (engineRun rest)

/-- The value the last operation returned; none where it returned none. -/
def State.reading (s : State) : Option Int :=
  match s.completion with
  | some (.done (.value v)) => some v
  | _ => none

/-- `Delay(SETTLE_CYCLES)` (R337). DESIGN CHOICE (log entry 24): `SETTLE_CYCLES` is any natural number (R7) and the `n` of
`Delay(n)` has 32 bits (R310); the spec does not say what a larger value does, and the model takes it modulo 2^32. No
state depends on it: a delay changes none. -/
def settleStep (b : Board) : EngineStep := .delay (BitVec.ofNat 32 b.settleCycles)

/-! ## Results -/

/-- The class of a performance result (R271, R280). -/
inductive Grade where
  | nominal
  | inaccurate
  | notWorking
deriving DecidableEq, Repr

/-- A test result (R271). -/
inductive TestResult where
  | functional (name : String) (pass : Bool)
  | performance (name : String) (metric : Rat) (grade : Grade)
deriving DecidableEq, Repr

/-! ## Functional tests -/

/-- A lane of a functional test and the sensor associated with it (R272). -/
structure Lane where
  name : String
  sensor : SensorName
deriving DecidableEq, Repr

/-- A functional lane passes when its sensor reads above the threshold (R272, R275). -/
def lanePass (thresholdMa x : Int) : Bool := decide (thresholdMa < x)

/-- The first steps of a lane's test: drive on, settle, read (R272). -/
def Lane.driveAndRead (b : Board) (l : Lane) : List EngineStep :=
  [.lane l.name true, settleStep b, .operate (.senseRead l.sensor)]

/-- The last steps of a lane's test: back to off, settle (R272). -/
def Lane.restore (b : Board) (l : Lane) : List EngineStep := [.lane l.name false, settleStep b]

/-- The test of one lane (R272): the restore is issued whatever the read came to. No result if a step stopped it (DESIGN
CHOICE, log entry 24). -/
def laneTest (l : Lane) (s : State) : Option TestResult × State :=
  let p := engineRun (l.driveAndRead s.board) s
  let q := engineRun (l.restore s.board) p.state
  (q.yields fun _ => p.yields fun s1 => s1.reading.map fun x => .functional l.name (lanePass s.board.onThresholdMa x),
    q.state)

/-- A functional test: each lane by itself, whatever came of the lanes before it (R272, R274); the results of the lanes
that gave one. -/
def functionalTest : List Lane → State → List TestResult × State
  | [], s => ([], s)
  | l :: rest, s =>
    let p := laneTest l s
    let q := functionalTest rest p.2
    (p.1.toList ++ q.1, q.2)

/-- The four lanes of `pinpuller_functional_test`, sensed by the pinpuller current sensor (R273). Their names and the number
of the sensor in its group are not in the spec (DESIGN CHOICE, log entry 24). -/
def pinpullerLanes : List Lane :=
  [⟨"pinpuller lane 0", .pinpullerCurrent 0⟩, ⟨"pinpuller lane 1", .pinpullerCurrent 0⟩,
   ⟨"pinpuller lane 2", .pinpullerCurrent 0⟩, ⟨"pinpuller lane 3", .pinpullerCurrent 0⟩]

/-- `pinpuller_functional_test` (R273). -/
def pinpullerTest (s : State) : List TestResult × State := functionalTest pinpullerLanes s

/-! ## Performance tests -/

/-- `SetPoint(i)` (R277): evenly spaced, both ends included, truncating. -/
def setPoint (r : MvRange) (n i : Nat) : Int := r.minMv + Int.tdiv (i * (r.maxMv - r.minMv)) (n - 1 : Nat)

/-- `rpd(measured, expected)` (R278). -/
def rpd (measured expected : Rat) : Rat :=
  if measured = 0 ∧ expected = 0 then 0 else (measured - expected) / (|measured| + |expected|)

/-- One fold of the running mean, `n` samples folded before (R279). -/
def meanStep (avg : Rat) (n : Nat) (new : Rat) : Rat := avg + (new - avg) / (n + 1)

/-- The running mean of a list of samples (R279). -/
def meanFrom (avg : Rat) (n : Nat) : List Rat → Rat
  | [] => avg
  | x :: rest => meanFrom (meanStep avg n x) (n + 1) rest

/-- `Classify(a)` (R280): both comparisons are strict. -/
def classify (a : Rat) : Grade := if a < 5 / 100 then .nominal else if a < 20 / 100 then .inaccurate else .notWorking

/-- What a performance test reads at each set-point (R276). For a voltage the expected value is the target; for a current the
spec does not say what it is, and the test carries the function. -/
inductive Measurement where
  | voltage
  | current (expected : Int → Int)

/-- The value expected of a measurement for a target (R276). -/
def Measurement.expected : Measurement → Int → Int
  | .voltage, target => target
  | .current f, target => f target

/-- The read that measures a supply: the `*.GET_MV` or the `*.GET_MA` of the supply that is set (R276). -/
def Measurement.readOf : Measurement → Supply → Instr
  | .voltage, u => getMvOf u
  | .current _, u => getMaOf u

/-- What a test leaves safe (R281). -/
inductive Actuator where
  | supply (u : Supply)
  | relay (r : Nat)
deriving DecidableEq, Repr

/-- The operation that returns an actuator to its minimum or disconnected safe value (R281). -/
def safeOp (b : Board) : Actuator → Instr
  | .supply u => setMvOf (b.supplyRange u).minMv u
  | .relay r => .relayDisconnect r

/-- A performance test (R276): the supply it sets and what it measures of it. -/
structure PerformanceTest where
  name : String
  supply : Supply
  measures : Measurement

/-- The target of set-point `i` (R277). -/
def PerformanceTest.target (t : PerformanceTest) (b : Board) (i : Nat) : Int :=
  setPoint (b.supplyRange t.supply) b.nSetpoints i

/-- The steps at set-point `i`: set, settle, read (R276). -/
def PerformanceTest.pointSteps (t : PerformanceTest) (b : Board) (i : Nat) : List EngineStep :=
  [.operate (setMvOf (t.target b i) t.supply), settleStep b, .operate (t.measures.readOf t.supply)]

/-- Set-point `i`: the relative difference between the value the read returned and the value expected (R276, R278); none
if a step stopped the test. -/
def PerformanceTest.point (t : PerformanceTest) (i : Nat) (s : State) : Option Rat × State :=
  let p := engineRun (t.pointSteps s.board i) s
  (p.yields fun s1 => s1.reading.map fun x => rpd x (t.measures.expected (t.target s.board i)), p.state)

/-- The set-points of a list, folded into the running mean (R276, R279), up to one that gives none. -/
def PerformanceTest.points (t : PerformanceTest) (avg : Rat) (n : Nat) : List Nat → State → Option Rat × State
  | [], s => (some avg, s)
  | i :: rest, s =>
    match t.point i s with
    | (some r, s1) => t.points (meanStep avg n r) (n + 1) rest s1
    | (none, s1) => (none, s1)

/-- A performance test (R276): all set-points, the supply back to its minimum, the absolute mean and its class. The set to
the minimum is issued however the set-points ended, so that the board is never left energized (R281); where a set-point,
or that last set, stopped the test, it has no result (DESIGN CHOICE, log entry 24). -/
def PerformanceTest.run (t : PerformanceTest) (s : State) : Option TestResult × State :=
  let p := t.points 0 0 (List.range s.board.nSetpoints) s
  let q := engineRun [.operate (safeOp s.board (.supply t.supply))] p.2
  (q.yields fun _ => p.1.map fun a => .performance t.name |a| (classify |a|), q.state)

/-! ## Reporting -/

/-- The report line of a functional result (R282), without a line ending (not in the spec, N16; DESIGN CHOICE, log
entry 24). -/
def functionalLine (name : String) (pass : Bool) : String := (if pass then "[ OK ] " else "[FAIL] ") ++ name

/-- The tag of a performance result (R282). -/
def Grade.tag : Grade → String
  | .nominal => "OK"
  | .inaccurate => "INAC"
  | .notWorking => "FAIL"

/-- The report line of a performance result (R282). The spec gives neither the padding inside the brackets, nor the line
ending, nor the digits and the rounding of the percentage (N16). DESIGN CHOICE (log entry 24): one space on each side
of the tag, no line ending, and the digits `int` and `frac` are the caller's. -/
def performanceLine (g : Grade) (name int frac : String) : String :=
  "[ " ++ g.tag ++ " ] " ++ name ++ ", " ++ int ++ "." ++ frac ++ "% error"

end Sys2Proof.Machine
end

