-- ==== Sys2Proof/Safety.lean ====
section
/-! DEFINITION. The terms the statements use: when an operation is admitted and a transfer can run, the environment's
answers to come, the events a transfer puts on the lines (R96), readings of the pin trace, and the invariants of the
block (R35, R36, R40, R41, R138). -/

namespace Sys2Proof.Machine

/-! ## When an operation runs -/

/-- An operation other than `BUS.INIT` is admitted but for its own gate: idle (R24), constructed (R328), well-formed
parameters (R7). -/
abbrev State.Admits (s : State) : Prop := s.opstate = .idle ∧ s.constructed = true ∧ s.board.wf = true

/-- The bus is constructed, its configuration holds a value, and the memo equals its mode (R35). -/
abbrev State.BusUp (s : State) : Prop :=
  s.busReady = true ∧ s.cfg.specified = true ∧ s.cfgCur = Reg.written s.cfg.val.mode

/-- The peripheral is ready for a transfer, if the block has one (R25, R26, R34). -/
abbrev State.PeripheralReady (s : State) : Prop :=
  s.board.variant = .softwareTimed ∨
    (s.swrst = false ∧ s.txrdy = true ∧ s.rxrdy = false ∧ s.fe = false ∧ s.oe = false)

/-- A transfer can run: the bus is up, its bit order and word width have a meaning (R137), the peripheral is ready. -/
abbrev State.CanTransfer (s : State) : Prop := s.BusUp ∧ s.cfg.val.supported = true ∧ s.PeripheralReady

/-! ## The environment's answers to come -/

/-- The answer the environment gives to the `k`-th `PinRead(MISO)` from here (R63): a ready answer, then free ones. -/
def State.misoAnswer (s : State) (k : Nat) : Bool :=
  match s.misoIn[k]? with
  | some b => b
  | none => Config.freeMiso (s.misoDraws + (k - s.misoIn.length))

/-- The pair the environment draws at the end of the `k`-th peripheral-timed transfer from here (R132). -/
def State.errAnswer (s : State) (k : Nat) : Bool × Bool :=
  match s.errIn[k]? with
  | some e => e
  | none => Config.freeError (s.errDraws + (k - s.errIn.length))

/-- No error comes in the next `k` transfers: the software-timed variant draws none (R26), the other draws `(0, 0)`. -/
abbrev State.NoError (k : Nat) (s : State) : Prop :=
  s.board.variant = .softwareTimed ∨ ∀ j < k, s.errAnswer j = (false, false)

/-- The bits sampled while the bits `out` are sent (R133): `out` itself in loopback, else the answers to come. -/
def State.samples (cfg : BusConfig) (out : List Bool) (s : State) : List Bool :=
  if cfg.loopback then out else (List.range out.length).map s.misoAnswer

/-! ## Events of a transfer -/

/-- The events of one bit time with `t` sent and `b` sampled: the table of R96, whose order is general knowledge in the
spec (D9, G1; PRESUMED, log entry 17). -/
def bitEvents (m : Mode) (t b : Bool) : List Event :=
  match m.pha with
  | .firstEdge => [.pin .mosi t, .pin .sclk (!m.pol.idleLevel), .sample b, .pin .sclk m.pol.idleLevel]
  | .secondEdge => [.pin .sclk (!m.pol.idleLevel), .pin .mosi t, .pin .sclk m.pol.idleLevel, .sample b]

/-- The events of a transfer: the bits sent and the bits sampled, one bit time after the other. -/
def transferEvents (m : Mode) : List Bool → List Bool → List Event
  | t :: ts, b :: bs => bitEvents m t b ++ transferEvents m ts bs
  | _, _ => []

/-- The event with which `EnsureConfig` reconfigures, where the mode in force is not `m` (R135): in both variants, also
where only the phase changes (DEDUCED, log entry 16). -/
def ensureEvents (s : State) (m : Mode) : List Event :=
  if s.cfgCur.val = m then [] else [.pin .sclk m.pol.idleLevel]

/-- The configuration in force after `EnsureConfig` for a device of mode `m` (R135). -/
def State.cfgFor (s : State) (m : Mode) : BusConfig :=
  if s.cfgCur.val = m then s.cfg.val else s.cfg.val.withMode m

/-- The events of a transaction with device `d` of mode `m` that sends the bits `out` (R70): the reconfiguration where
one is needed, chip select low, the bit times, chip select high. -/
def transactionEvents (s : State) (d : Dev) (m : Mode) (out : List Bool) : List Event :=
  ensureEvents s m ++ [.pin (.cs d) false]
    ++ transferEvents (s.cfgFor m).mode out (s.samples (s.cfgFor m) out) ++ [.pin (.cs d) true]

/-- What transfers may change and nothing else: `SR`, the buffers, the clock and data-out lines, the trace, the
environment's answers, and the completion. -/
abbrev OnlyTransferState (s t : State) : Prop :=
  t = { s with sr := t.sr, txbuf := t.txbuf, rxbuf := t.rxbuf, sclk := t.sclk, mosi := t.mosi, trace := t.trace,
               misoIn := t.misoIn, misoDraws := t.misoDraws, errIn := t.errIn, errDraws := t.errDraws,
               completion := t.completion }

/-- What a device transaction may change and nothing else: as a transfer, and the mode and the chip selects. -/
abbrev OnlyTransactionState (s t : State) : Prop :=
  t = { s with sr := t.sr, txbuf := t.txbuf, rxbuf := t.rxbuf, sclk := t.sclk, mosi := t.mosi, trace := t.trace,
               misoIn := t.misoIn, misoDraws := t.misoDraws, errIn := t.errIn, errDraws := t.errDraws,
               completion := t.completion, cfg := t.cfg, cfgCur := t.cfgCur, cs := t.cs }

/-- The chip selects after a transaction with device `d`: its own is high, every other is as before. -/
abbrev OnlyChipSelect (s t : State) (d : Dev) : Prop :=
  t.csReg d = Reg.written true ∧ ∀ e, e ≠ d → t.csReg e = s.csReg e

/-- The environment has answered `out` bits more, or none in loopback (R63, R133). -/
abbrev AnswersUsed (s t : State) (cfg : BusConfig) (out : List Bool) : Prop :=
  ∀ k, t.misoAnswer k = s.misoAnswer ((if cfg.loopback then 0 else out.length) + k)

/-- A transaction with device `d` that sent the bits `out` is over: the mode of the device is in force, data-out holds the
last bit sent, the clock and the chip select rest, the trace has grown by the transaction's events, and nothing else has
changed. -/
def TransactionDone (s t : State) (d : Dev) (m : Mode) (out : List Bool) : Prop :=
  t.trace = s.trace ++ transactionEvents s d m out ∧ t.cfg = Reg.written (s.cfgFor m) ∧ t.cfgCur = Reg.written m
    ∧ t.sclk = Reg.written m.pol.idleLevel ∧ (∀ b, out.getLast? = some b → t.mosi = Reg.written b)
    ∧ AnswersUsed s t (s.cfgFor m) out ∧ OnlyChipSelect s t d ∧ OnlyTransactionState s t

/-- The event with which a transaction that raises puts the earlier configuration back, where `EnsureConfig` had changed
it (R302, R138; log entry 29). -/
def restoreEvents (s : State) (m : Mode) : List Event :=
  if s.cfgCur.val = m then [] else [.pin .sclk s.cfg.val.pol.idleLevel]

/-- A transaction with device `d` that raised an error after the bits `out` is over (R302): the configuration and the memo
are as before, the clock rests at the idle level of that configuration, the chip select is high, and nothing else has
changed but what the bits sent have changed. -/
def TransactionFailed (s t : State) (d : Dev) (m : Mode) (out : List Bool) : Prop :=
  t.trace = s.trace ++ transactionEvents s d m out ++ restoreEvents s m ∧ t.cfg = s.cfg ∧ t.cfgCur = s.cfgCur
    ∧ t.sclk = Reg.written s.cfg.val.pol.idleLevel ∧ (∀ b, out.getLast? = some b → t.mosi = Reg.written b)
    ∧ AnswersUsed s t (s.cfgFor m) out ∧ OnlyChipSelect s t d ∧ OnlyTransactionState s t

/-- The bits an ADC read of channel `k` sends (R91, R92). -/
def adcOut (k : Nat) : List Bool := if k = 0 then bitsOf 16 0 else bitsOf 32 (adcFrame k)

/-- The transfers of an ADC read of channel `k`: where each begins and ends among the bits sent (R161). -/
def adcBounds (k : Nat) : List (Nat × Nat) :=
  if k = 0 then [(0, 16)] else [(0, 2), (2, 5), (5, 16), (16, 20), (20, 32)]

/-- The count an ADC read of channel `k` returns: the last 12 bits sampled (R100). -/
def State.adcCount (s : State) (cfg : BusConfig) (k : Nat) : BitVec 12 :=
  (packBits ((s.samples cfg (adcOut k)).drop ((adcOut k).length - 12))).setWidth 12

/-! ## Readings of the pin trace -/

/-- The levels driven on data-out, in order. -/
def mosiLevels : List Event → List Bool
  | [] => []
  | .pin .mosi v :: rest => v :: mosiLevels rest
  | _ :: rest => mosiLevels rest

/-- The number of events that drive the clock: two for each clock pulse (R69). -/
def clockEdges : List Event → Nat
  | [] => 0
  | .pin .sclk _ :: rest => clockEdges rest + 1
  | _ :: rest => clockEdges rest

/-- The events of chip selects, in order. -/
def csEvents : List Event → List (Dev × Level)
  | [] => []
  | .pin (.cs d) v :: rest => (d, v) :: csEvents rest
  | _ :: rest => csEvents rest

/-- The level a line was last driven to; none if it has not been driven. -/
def lastLevel (l : Line) : List Event → Option Level
  | [] => none
  | .pin k v :: rest =>
    match lastLevel l rest with
    | some w => some w
    | none => if k = l then some v else none
  | .sample _ :: rest => lastLevel l rest

/-- No event drives line `l`. -/
def untouched (l : Line) (evs : List Event) : Prop := ∀ v, Event.pin l v ∉ evs

/-- Reads a trace with the heater enable at `h` and the payload enable at `p` before it: at no moment is the heater enabled
with the payload disabled (R36, V-41). -/
def heaterSafeFrom (p h : Bool) : List Event → Bool
  | [] => p || !h
  | .pin .payloadEn v :: rest => (p || !h) && heaterSafeFrom v h rest
  | .pin .heaterEn v :: rest => (p || !h) && heaterSafeFrom p v rest
  | _ :: rest => (p || !h) && heaterSafeFrom p h rest

/-- Reads a trace with the chip select of `cur` low before it, and answers which is low after it; none where two are low
at a time, or where one is released while another is low (R60, R70). -/
def chipSelectRun (cur : Option Dev) : List Event → Option (Option Dev)
  | [] => some cur
  | .pin (.cs d) false :: rest => if cur = none then chipSelectRun (some d) rest else none
  | .pin (.cs d) true :: rest => if cur = none ∨ cur = some d then chipSelectRun none rest else none
  | _ :: rest => chipSelectRun cur rest

/-! ## The invariants of the block -/

/-- The four flags between operations (R25, R26): the peripheral is at rest. -/
abbrev State.FlagsAtRest (s : State) : Prop :=
  s.txrdy = true ∧ s.rxrdy = false ∧ s.fe = false ∧ s.oe = false

/-- Once `BUS_READY = 1`: `CFG` holds a value, `CFG_CUR` equals its mode (R35), the clock rests at the idle level (R138), and
the peripheral, where there is one, runs (R34). -/
abbrev State.BusAtRest (s : State) : Prop :=
  s.busReady = true →
    (s.cfg.specified = true ∧ s.cfgCur = Reg.written s.cfg.val.mode
      ∧ s.sclk = Reg.written s.cfg.val.pol.idleLevel
      ∧ (s.board.variant = .peripheralTimed →
          s.swrst = false ∧ s.prescaler.specified = true ∧ 1 ≤ s.prescaler.val.toNat))

/-- No chip select is low; and once construction is done every chip select of the board is high (R40), and the enable
lines show the power state (R41). -/
abbrev State.LinesAtRest (s : State) : Prop :=
  (∀ e ∈ s.cs, e.2 = true) ∧ (s.constructed = true →
    (s.busReady = true ∧ (∀ d ∈ s.board.devs, s.csReg d = Reg.written true)
      ∧ s.payloadEn = Reg.written s.power.payloadOn ∧ s.heaterEn = Reg.written s.power.heaterOn))

/-- The invariant of the block between steps: the sequencer is not in the middle of an operation (R24), the flags, the bus
and the lines are at rest, and before construction the power state is `OffOff` (R36). -/
def State.AtRest (s : State) : Prop :=
  (s.opstate = .idle ∨ s.opstate = .halted) ∧ s.FlagsAtRest ∧ s.BusAtRest ∧ s.LinesAtRest
    ∧ (s.constructed = false → s.power = .offOff)

/-- The trace and the power state agree: the heater was never enabled without the payload, and the enable lines
were last driven to what the power state says (R41). The levels of `PAYLOAD_EN` and `HEATER_EN` before their first write are
unspecified (R46, D38). DESIGN CHOICE (log entry 4, unsafe): the invariant reads a line not driven yet as 0, not enabled, so
of the time before construction it says only what has been driven, not what the pins show. -/
def State.HeaterSafe (s : State) : Prop :=
  heaterSafeFrom false false s.trace = true
    ∧ (lastLevel .payloadEn s.trace).getD false = s.power.payloadOn
    ∧ (lastLevel .heaterEn s.trace).getD false = s.power.heaterOn

/-- Between steps no chip select is low, and at no moment of the trace were two low (R40, R60). The level of a chip select
before its first write is unspecified (R46, D38). DESIGN CHOICE (log entry 4, unsafe): the invariant reads one not driven yet
as 1, deasserted, so of the time before construction it says only what has been driven. -/
def State.ChipSelectsFramed (s : State) : Prop := chipSelectRun none s.trace = some none

/-! ## Comparing runs -/

/-- The same block with the other transport (R120). -/
def State.withVariant (v : Variant) (s : State) : State := { s with board := { s.board with variant := v } }

/-- Two states that the two variants may be in after the same operation: everything is equal but the variant, the
peripheral's own registers and flags (R22, R25, R26, R34) and the error draws (R134). -/
abbrev SameSeen (t u : State) : Prop :=
  u = { t with board := u.board, txbuf := u.txbuf, rxbuf := u.rxbuf, txrdy := u.txrdy, rxrdy := u.rxrdy, fe := u.fe,
               oe := u.oe, swrst := u.swrst, prescaler := u.prescaler, errIn := u.errIn, errDraws := u.errDraws }
    ∧ u.board = { t.board with variant := u.board.variant }

/-- The outcomes of one operation in the two variants agree (R134): the same refusal, or next states that agree. -/
def SameOutcome : Host.Outcome State Fault Refusal → Host.Outcome State Fault Refusal → Prop
  | .next t, .next u => SameSeen t u
  | .refused r, .refused q => r = q
  | .fault f, .fault g => f = g
  | _, _ => False

/-- An outcome with the word it returns dropped (R127). -/
def dropWord : Host.Outcome State Fault Refusal → Host.Outcome State Fault Refusal
  | .next t =>
    match t.completion with
    | some (.done (.word _)) => .next { t with completion := some (.done .unit) }
    | _ => .next t
  | o => o

/-- An outcome with the result it returns mapped; an error, a refusal and a fault stay as they are (R107, R302). -/
def mapDone (f : Result → Result) : Host.Outcome State Fault Refusal → Host.Outcome State Fault Refusal
  | .next t =>
    match t.completion with
    | some (.done r) => .next { t with completion := some (.done (f r)) }
    | _ => .next t
  | o => o

/-- A count as millivolts (R163). -/
def Result.millivolts (vrefMv : Nat) : Result → Result
  | .count12 c => .value ((c.toNat * vrefMv / 4095 : Nat) : Int)
  | r => r

/-- Millivolts through a calibration of the board (R242). -/
def Result.calibrated (b : Board) (c : Calibration) : Result → Result
  | .value x => .value (b.calibrate c x)
  | r => r

/-- What the environment must answer for a read of channel `k` to return the conversion `c` (R164): in the long form 16 bits of
the first window and 4 track bits, in the short form 4 track bits, then the 12 bits of the conversion. -/
def AdcAnswers (k : Nat) (c : BitVec 12) (s : State) : Prop :=
  ∀ j < 12, s.misoAnswer ((if k = 0 then 4 else 20) + j) = c.getLsbD (11 - j)

end Sys2Proof.Machine
end

