-- ==== Sys2Proof/Certificates/Slice0/Obligations.lean ====
section
/-! DEFINITION. The statements for the provers. Each docstring names the rules of spec/ it formalises, and the log entry
where a clause rests on the model's own choice. -/

open Sys2Proof Sys2Proof.Machine

/-! ## Step and decode -/

/-- The host's next step, where it issues an operation, runs that operation on the state without that step (R75); the
same for a table word that decodes; and `withFetchWord` places a word for the next step on a block that runs it, which is
the block itself where it can, else the booted one. The script, the table word and the boot before it are the model's (log
entries 2 and 12). -/
def Obligations.StepRunsTheIssuedOperation : Prop :=
  ∀ (s : State) (i : Instr) (rest : List HostStep) (nbits w : Nat),
    (s.script = .issue i :: rest → step s = exec i { s with script := rest })
    ∧ (s.script = .tableWord nbits w :: rest → decodeTableWord nbits w = some i →
        step s = exec i { s with script := rest })
    ∧ (decodeTableWord nbits w = some i → step (s.withFetchWord nbits w) = exec i s.readied)
    ∧ s.readied.runsWords = true ∧ (s.runsWords = true → s.readied = s)

/-- Words of the opcode table decode to the operations whose frames they are: V-17, V-37, V-12, V-5 of
95_test_vectors.md, with the codes of G3 and the configuration T (log entry 12). -/
def Obligations.TableWordsDecode : Prop :=
  decodeTableWord 24 0x32ABC0 = some (.dacWriteUpdateOne 2 0xABC)
    ∧ decodeTableWord 16 0x0180 = some (.dpotWrite 0x01 0x80)
    ∧ decodeTableWord 32 0x28000000 = some (.adcReadCount .temperatureAdc (.pinpullerCurrent 0))
    ∧ decodeTableWord 32 0 = some (.busRecv 32)
    ∧ decodeTableWord 32 0xDEADBEEF = some (.busXfer 32 0xDEADBEEF)

/-- R98: the DAC frame is the sum of its three shifted fields, and the sum is their bitwise or. R93 and R103 give the
fields' places and the four zero bits. -/
def Obligations.DacFrameLayout : Prop :=
  ∀ (b : Board) (cmd : DacCommand) (ch v : Nat), ch < 16 → v < 4096 →
    ∃ w : Word, encode b (cmd.instr ch v) = some ⟨some .dac, 24, w⟩
      ∧ w.toNat = ((b.dacCodes.code cmd).toNat <<< 20) + (ch <<< 16) + (v <<< 4)
      ∧ w.toNat = ((b.dacCodes.code cmd).toNat <<< 20) ||| (ch <<< 16) ||| (v <<< 4)

/-- R99: the digipot frame is `(h << 8) + w`, which is `(h << 8) | w`, and not the source's `h << (8 + w)` (R214, C2).
-/
def Obligations.DpotFrameLayout : Prop :=
  ∀ (b : Board) (h w : Nat), h < 256 → w < 256 →
    ∃ f : Word, encode b (.dpotWrite h w) = some ⟨some .digipot, 16, f⟩
      ∧ f.toNat = (h <<< 8) + w ∧ f.toNat = (h <<< 8) ||| w

/-- Decoding the frame of a DAC command or of a digipot write gives the operation back with every operand, on every
well-formed board (R93, R94, R102). -/
def Obligations.DecodeEncodeDeviceFrames : Prop :=
  ∀ (b : Board) (cmd : DacCommand) (ch v h w : Nat), b.wf = true → ch < 16 → v < 4096 → h < 256 → w < 256 →
    (∃ f, encode b (cmd.instr ch v) = some f ∧ decodeFrame b f = .ok (cmd.instr ch v))
    ∧ (∃ f, encode b (.dpotWrite h w) = some f ∧ decodeFrame b f = .ok (.dpotWrite h w))

/-- Every frame an operation puts on the bus decodes, on a well-formed board, to a well-formed operation with the same
frame: no bit of an encoding is dropped (R91 to R95, R107). -/
def Obligations.DecodedOperationHasTheFrame : Prop :=
  ∀ (b : Board) (i : Instr) (f : Frame), b.wf = true → encode b i = some f →
    ∃ j, decodeFrame b f = .ok j ∧ encode b j = some f ∧ j.wellFormed = true

/-- A DAC code no command has is refused by the decoder by name (R102). -/
def Obligations.ReservedDacCodesRefused : Prop :=
  ∀ (b : Board) (w : Word), w.toNat < 2 ^ 24 →
    (∀ cmd, b.dacCodes.code cmd ≠ BitVec.ofNat 4 (w.toNat / 2 ^ 20)) →
    decodeFrame b ⟨some .dac, 24, w⟩ = .error .reservedDacCode

/-- What an operation that returns a result puts on data-out is exactly the bits of its frame, most significant first,
and nothing where it has no frame (R64, R90 to R95, the column "frame" of R101). That every bit writes data-out, also
where its level stays, is R96's table (D9, log entry 17). The spec's decisions: D9, D23, D28. -/
def Obligations.WireCarriesTheEncoding : Prop :=
  ∀ (i : Instr) (s t : State) (r : Result), exec i s = .next t → t.completion = some (.done r) →
    ∃ evs, t.trace = s.trace ++ evs
      ∧ mosiLevels evs = (match encode s.board i with
          | some f => bitsOf f.nbits f.bits
          | none => [])

/-- The chip-select framing of a completed operation: a device frame is sent with exactly its device's chip select
falling before and rising after it, anything else moves no chip select (R70, R136, R180, R210, R166). That every bit
writes data-out once and the clock twice is R96's table (D9, log entry 17). The spec's decision: D9. -/
def Obligations.ChipSelectFramesTheEncoding : Prop :=
  ∀ (i : Instr) (s t : State) (r : Result), exec i s = .next t → t.completion = some (.done r) →
    match encode s.board i with
    | some ⟨some d, n, w⟩ =>
      ∃ before inside, t.trace = s.trace ++ before ++ [.pin (.cs d) false] ++ inside ++ [.pin (.cs d) true]
        ∧ mosiLevels before = [] ∧ csEvents before = [] ∧ csEvents inside = []
        ∧ mosiLevels inside = bitsOf n w ∧ clockEdges inside = 2 * n
    | some ⟨none, n, _⟩ =>
      ∃ evs, t.trace = s.trace ++ evs ∧ csEvents evs = [] ∧ clockEdges evs = 2 * n
    | none => ∃ evs, t.trace = s.trace ++ evs ∧ csEvents evs = []

/-! ## The transport -/

/-- R121: what `BUS.INIT` leaves, in both variants, and its frame. The admission's order is log entry 9. That the
clock event is appended in both variants is log entry 16. The spec's decisions: D18, D19, D48. -/
def Obligations.BusInitCompletes : Prop :=
  ∀ (s : State) (baud : Nat) (cfg : BusConfig),
    s.opstate = .idle → s.busReady = false → s.board.wf = true →
    ∃ t, exec (.busInit baud cfg) s = .next t
      ∧ t.cfg = Reg.written cfg ∧ t.cfgCur = Reg.written cfg.mode ∧ t.busReady = true
      ∧ t.sclk = Reg.written cfg.pol.idleLevel ∧ t.trace = s.trace ++ [.pin .sclk cfg.pol.idleLevel]
      ∧ t.completion = some (.done .unit)
      ∧ (s.board.variant = .peripheralTimed →
          t.prescaler = Reg.written (BitVec.ofNat 16 (max 1 (min (s.board.clockHz / max baud 1) 65535)))
            ∧ t.swrst = false ∧ t.txrdy = true ∧ t.rxrdy = false ∧ t.fe = false ∧ t.oe = false)
      ∧ (s.board.variant = .softwareTimed →
          t.prescaler = s.prescaler ∧ t.swrst = s.swrst ∧ t.txrdy = s.txrdy ∧ t.rxrdy = s.rxrdy ∧ t.fe = s.fe ∧ t.oe = s.oe)
      ∧ t = { s with cfg := t.cfg, cfgCur := t.cfgCur, busReady := t.busReady, sclk := t.sclk, trace := t.trace,
                     completion := t.completion, prescaler := t.prescaler, swrst := t.swrst, txrdy := t.txrdy,
                     rxrdy := t.rxrdy, fe := t.fe, oe := t.oe }

/-- R121, R330: a second `BUS.INIT` is refused `AlreadyConstructed`. The two clauses on construction are the model's:
that it is a host step, and the reasons it gives (log entry 8). The spec's decision: D19. -/
def Obligations.ConstructionHappensOnce : Prop :=
  ∀ (s : State) (baud : Nat) (cfg : BusConfig) (rest : List HostStep), s.opstate = .idle →
    (s.busReady = true → s.board.wf = true → exec (.busInit baud cfg) s = .refused .alreadyConstructed)
    ∧ (s.busReady = false → s.script = .construct :: rest → step s = .refused .unconfigured)
    ∧ (s.busReady = true → s.constructed = true → s.script = .construct :: rest →
        step s = .refused .alreadyConstructed)

/-- R122: what `BUS.CONFIG` leaves: the whole configuration, the clock at its idle level, the memo; in the
peripheral-timed variant the flags at their reset-hold values; the prescaler is kept. That the one clock event is in the
trace in both variants, also where the level is unchanged, is log entry 16. The spec's decision: D18. -/
def Obligations.BusConfigCompletes : Prop :=
  ∀ (s : State) (cfg : BusConfig), s.Admits → s.busReady = true →
    ∃ t, exec (.busConfig cfg) s = .next t
      ∧ t.cfg = Reg.written cfg ∧ t.cfgCur = Reg.written cfg.mode
      ∧ t.sclk = Reg.written cfg.pol.idleLevel ∧ t.trace = s.trace ++ [.pin .sclk cfg.pol.idleLevel]
      ∧ t.completion = some (.done .unit)
      ∧ (s.board.variant = .peripheralTimed →
          t.swrst = false ∧ t.txrdy = true ∧ t.rxrdy = false ∧ t.fe = false ∧ t.oe = false)
      ∧ (s.board.variant = .softwareTimed →
          t.swrst = s.swrst ∧ t.txrdy = s.txrdy ∧ t.rxrdy = s.rxrdy ∧ t.fe = s.fe ∧ t.oe = s.oe)
      ∧ t = { s with cfg := t.cfg, cfgCur := t.cfgCur, sclk := t.sclk, trace := t.trace, completion := t.completion,
                     swrst := t.swrst, txrdy := t.txrdy, rxrdy := t.rxrdy, fe := t.fe, oe := t.oe }

/-- R123, R124: an idle operation changes nothing where the level is already as asked, and otherwise does what
`BUS.CONFIG` with the polarity changed does. That a reconfiguration appends its clock event in both variants is log
entry 16. The spec's decision: D50. -/
def Obligations.IdleOperationsComplete : Prop :=
  ∀ (s : State), s.Admits → s.busReady = true → s.cfg.specified = true →
    (s.cfg.val.pol = .idleLow → exec .busIdleLow s = .next { s with completion := some (.done .unit) })
    ∧ (s.cfg.val.pol = .idleHigh → exec .busIdleHigh s = .next { s with completion := some (.done .unit) })
    ∧ (s.cfg.val.pol = .idleHigh →
        (∃ t, exec .busIdleLow s = .next t ∧ t.trace = s.trace ++ [.pin .sclk false] ∧ t.cfg.val.pol = .idleLow)
        ∧ exec .busIdleLow s = exec (.busConfig { s.cfg.val with pol := .idleLow }) s)
    ∧ (s.cfg.val.pol = .idleLow →
        (∃ t, exec .busIdleHigh s = .next t ∧ t.trace = s.trace ++ [.pin .sclk true] ∧ t.cfg.val.pol = .idleHigh)
        ∧ exec .busIdleHigh s = exec (.busConfig { s.cfg.val with pol := .idleHigh }) s)

/-- R126, R65, R68, R96: a transfer of `n` bits sends `data[n-1:0]` most significant bit first with the events of R96,
and returns the bits sampled, right-aligned; nothing else changes. In the peripheral-timed variant `TXBUF` holds the
bits sent, `RXBUF` the word received (R22, R129), and one pair of errors is drawn (R132). The order of events in a bit
is R96's, general knowledge in the spec (D9, log entry 17). The spec's decisions: D4, D9. -/
def Obligations.BusXferCompletes : Prop :=
  ∀ (s : State) (n : Nat) (data : Word), s.Admits → s.CanTransfer → s.NoError 1 → 1 ≤ n → n ≤ 32 →
    ∃ t, exec (.busXfer n data) s = .next t
      ∧ t.completion = some (.done (.word (packBits (s.samples s.cfg.val (bitsOf n data)))))
      ∧ t.trace = s.trace ++ transferEvents s.cfg.val.mode (bitsOf n data) (s.samples s.cfg.val (bitsOf n data))
      ∧ t.sclk = Reg.written s.cfg.val.pol.idleLevel ∧ t.mosi = Reg.written (data.getLsbD 0)
      ∧ AnswersUsed s t s.cfg.val (bitsOf n data) ∧ OnlyTransferState s t
      ∧ (s.board.variant = .softwareTimed →
          t.txbuf = s.txbuf ∧ t.rxbuf = s.rxbuf ∧ t.errIn = s.errIn ∧ t.errDraws = s.errDraws)
      ∧ (s.board.variant = .peripheralTimed →
          t.txbuf = Reg.written (BitVec.ofNat 32 (data.toNat % 2 ^ n))
            ∧ t.rxbuf = Reg.written (packBits (s.samples s.cfg.val (bitsOf n data)))
            ∧ ∀ k, t.errAnswer k = s.errAnswer (k + 1))

/-- R127, R107: `BUS.SEND n, d` is `BUS.XFER n, d` with the result dropped, in every state; and it completes where a
transfer can run. The spec's decision: D8. -/
def Obligations.BusSendDropsTheWord : Prop :=
  ∀ (s : State) (n : Nat) (data : Word),
    exec (.busSend n data) s = dropWord (exec (.busXfer n data) s)
    ∧ (s.Admits → s.CanTransfer → s.NoError 1 → 1 ≤ n → n ≤ 32 →
        ∃ t, exec (.busSend n data) s = .next t ∧ t.completion = some (.done .unit))

/-- R128, R107: `BUS.RECV n` is `BUS.XFER n, 0`, in every state; and it completes where a transfer can run. The spec's
decision: D7. -/
def Obligations.BusRecvIsXferOfZero : Prop :=
  ∀ (s : State) (n : Nat),
    exec (.busRecv n) s = exec (.busXfer n 0) s
    ∧ (s.Admits → s.CanTransfer → s.NoError 1 → 1 ≤ n → n ≤ 32 →
        ∃ t, exec (.busRecv n) s = .next t
          ∧ t.completion = some (.done (.word (packBits (s.samples s.cfg.val (bitsOf n 0))))))

/-- R133: in loopback a transfer returns exactly the bits sent, in both variants, and the environment is not asked.
The spec's decision: D10. -/
def Obligations.LoopbackReturnsTheBitsSent : Prop :=
  ∀ (s : State) (n : Nat) (data : Word),
    s.Admits → s.CanTransfer → s.NoError 1 → 1 ≤ n → n ≤ 32 → s.cfg.val.loopback = true →
    ∃ t, exec (.busXfer n data) s = .next t
      ∧ t.completion = some (.done (.word (BitVec.ofNat 32 (data.toNat % 2 ^ n))))
      ∧ t.misoIn = s.misoIn ∧ t.misoDraws = s.misoDraws

/-- R137, R122 to R124: the admission of the three raw transfers, in the order of the rule, and that of `BUS.CONFIG`
and the two idle operations. With `BUS_READY = 0` it holds in every idle state whose parameters are well formed once
construction is done, the states before `BUS.INIT` among them (V-5d). Admission to the block itself is log entry 9; the
refusal of an unspecified configuration is R46's, and the place of that check is the model's (log entry 5). The spec's
decisions: D5, D11, D19. -/
def Obligations.TransportAdmission : Prop :=
  ∀ (s : State) (n : Nat) (data : Word) (cfg : BusConfig) (i : Instr), s.opstate = .idle →
    (s.constructed = true → s.board.wf = true) →
    (s.busReady = false →
      exec (.busConfig cfg) s = .refused .unconfigured ∧ exec .busIdleLow s = .refused .unconfigured
        ∧ exec .busIdleHigh s = .refused .unconfigured
        ∧ ((i = .busXfer n data ∨ i = .busSend n data ∨ i = .busRecv n) → exec i s = .refused .unconfigured))
    ∧ ((i = .busXfer n data ∨ i = .busSend n data ∨ i = .busRecv n) → s.constructed = true →
      (s.busReady = true → (n = 0 ∨ 32 < n) → exec i s = .refused .bitCountOutOfRange)
      ∧ (s.busReady = true → 1 ≤ n → n ≤ 32 → s.cfg.specified = false → exec i s = .refused .unspecifiedRead)
      ∧ (s.busReady = true → 1 ≤ n → n ≤ 32 → s.cfg.specified = true →
          (s.cfg.val.order = .lsbFirst ∨ s.cfg.val.width = .seven) → exec i s = .refused .unsupportedConfig))

/-- R129, R290, R291, R299, R301: a peripheral-timed transfer that draws an error has made all its clock pulses,
raises framing before overrun, an overrun carrying the word received, and leaves the flags clear. In the trace, the
order of events in a bit is R96's, general knowledge in the spec (D9, log entry 17). The spec's decisions: D9, D14,
D15. -/
def Obligations.BusErrorsAreRaised : Prop :=
  ∀ (s : State) (n : Nat) (data : Word),
    s.Admits → s.CanTransfer → s.board.variant = .peripheralTimed → s.errAnswer 0 ≠ (false, false) → 1 ≤ n → n ≤ 32 →
    ∃ t, exec (.busXfer n data) s = .next t
      ∧ t.completion = some (.raised
          (if (s.errAnswer 0).1 then .framing else .overrun (packBits (s.samples s.cfg.val (bitsOf n data)))))
      ∧ t.trace = s.trace ++ transferEvents s.cfg.val.mode (bitsOf n data) (s.samples s.cfg.val (bitsOf n data))
      ∧ t.opstate = .idle ∧ t.FlagsAtRest ∧ t.sclk = Reg.written s.cfg.val.pol.idleLevel
      ∧ OnlyTransferState s t

/-- R26, R292: in the software-timed variant no operation raises an error. The spec's decision: D14. -/
def Obligations.SoftwareTimedNeverRaises : Prop :=
  ∀ (i : Instr) (s t : State) (e : BusError),
    s.board.variant = .softwareTimed → exec i s = .next t → t.completion ≠ some (.raised e)

/-- R134: for every operation, from the same state, the same answers and no error drawn, the two variants end alike:
the same refusal, or next states with the same trace, result, lines, configuration and power state. That a
reconfiguration appends its clock event in both variants is log entry 16. -/
def Obligations.VariantsAreInterchangeable : Prop :=
  ∀ (i : Instr) (s : State), s.FlagsAtRest → (s.busReady = true → s.swrst = false) →
    (∀ j < 5, s.errAnswer j = (false, false)) →
    SameOutcome (exec i (s.withVariant .softwareTimed)) (exec i (s.withVariant .peripheralTimed))

/-! ## The ADC engine -/

/-- R161, R166, R91, R92, R97, R100: a read of the count runs one 16-bit window for channel 0 and 32 bits for any
other channel, under the ADC's mode and chip select, and returns the last 12 bits sampled; nothing else changes. In
the trace, the clock event of `EnsureConfig` (R135) in both variants, also where only the phase changes, is log entry
16, and the order of events in a bit is R96's, general knowledge in the spec (D9, log entry 17). The spec's decisions:
D9, D20, D23, D24. -/
def Obligations.AdcReadCountCompletes : Prop :=
  ∀ (s : State) (n : SensorName) (r : Sensor) (m : Mode),
    s.Admits → s.CanTransfer → s.board.sensor n = some r → s.board.devMode (.adc r.adc) = some m →
    (r.cls = .always ∨ s.power ≠ .offOff) → s.NoError (adcBounds r.channel).length →
    ∃ t, exec (.adcReadCount r.adc n) s = .next t
      ∧ t.completion = some (.done (.count12 (s.adcCount (s.cfgFor m) r.channel)))
      ∧ TransactionDone s t (.adc r.adc) m (adcOut r.channel)

/-- R163: the millivolts are `(count * vref_mv) / 4095`, truncating, of the count the same read gives, between 0 and
`vref_mv`; and for every ADC named and in every state the read is `ADC.READ_COUNT` with its result so scaled, its
errors and refusals the same (R107, R165). In the trace, the clock event of `EnsureConfig` (R135) in both variants,
also where only the phase changes, is log entry 16, and the order of events in a bit is R96's, general knowledge in
the spec (D9, log entry 17). The spec's decisions: D9, D20, D23, D25. -/
def Obligations.AdcReadMvCompletes : Prop :=
  ∀ (s : State) (n : SensorName) (r : Sensor), s.board.sensor n = some r →
    (∀ a, exec (.adcReadMv a n) s = mapDone (Result.millivolts r.vrefMv) (exec (.adcReadCount a n) s))
    ∧ ∀ (m : Mode), s.Admits → s.CanTransfer → s.board.devMode (.adc r.adc) = some m →
    (r.cls = .always ∨ s.power ≠ .offOff) → s.NoError (adcBounds r.channel).length →
    ∃ t, exec (.adcReadMv r.adc n) s = .next t
      ∧ t.completion = some (.done (.value
          (((s.adcCount (s.cfgFor m) r.channel).toNat * r.vrefMv / 4095 : Nat) : Int)))
      ∧ (s.adcCount (s.cfgFor m) r.channel).toNat * r.vrefMv / 4095 ≤ r.vrefMv
      ∧ TransactionDone s t (.adc r.adc) m (adcOut r.channel)

/-- R162, R225, R293: the power gate first; then a name that is no sensor; then a sensor of another ADC. The spec's
decisions: D26, D36, D51. -/
def Obligations.AdcAdmission : Prop :=
  ∀ (s : State) (a : AdcId) (n : SensorName) (i : Instr), s.Admits → (i = .adcReadCount a n ∨ i = .adcReadMv a n) →
    (∀ r, s.board.sensor n = some r → r.cls = .payloadOn → s.power = .offOff → exec i s = .refused .illegalInState)
    ∧ (∀ r, s.board.sensor n = some r → (r.cls = .always ∨ s.power ≠ .offOff) → r.adc ≠ a →
        exec i s = .refused .sensorAdcMismatch)
    ∧ (s.board.sensor n = none → exec i s = .refused .noSuchSensor)

/-- R165, R302: when the `j`-th transfer of an ADC read is the first to draw an error, the remaining ones are not
issued, the chip select goes high, the configuration is as before, and the error is raised, an overrun carrying the
word of that transfer. The same for the operations that read a sensor: `ADC.READ_MV`, `SENSE.READ` and the six reads
of a supply, which pass the error up unchanged (R302). The clock event with which the configuration is put back is log
entry 29. In the trace, the clock event of `EnsureConfig` (R135) in both variants, also where only the phase changes,
is log entry 16, and the order of events in a bit is R96's, general knowledge in the spec (D9, log entry 17). The
spec's decisions: D9, D16, D20, D23. -/
def Obligations.AdcErrorCutsTheRead : Prop :=
  ∀ (s : State) (i : Instr) (n : SensorName) (r : Sensor) (m : Mode) (j p q : Nat),
    s.Admits → s.CanTransfer → s.board.sensor n = some r → s.board.devMode (.adc r.adc) = some m →
    (((i = .adcReadCount r.adc n ∨ i = .adcReadMv r.adc n ∨ i = .senseRead n)
        ∧ (r.cls = .always ∨ s.power ≠ .offOff))
      ∨ (s.power ≠ .offOff ∧ ∃ u, (i = getMvOf u ∧ (s.board.supplySensors u).voltage = some n)
        ∨ (i = getMaOf u ∧ (s.board.supplySensors u).current = some n))) →
    s.board.variant = .peripheralTimed →
    (adcBounds r.channel)[j]? = some (p, q) → (∀ k < j, s.errAnswer k = (false, false)) →
    s.errAnswer j ≠ (false, false) →
    ∃ t, exec i s = .next t
      ∧ t.completion = some (.raised
          (if (s.errAnswer j).1 then .framing
           else .overrun (packBits ((s.samples (s.cfgFor m) ((adcOut r.channel).take q)).drop p))))
      ∧ TransactionFailed s t (.adc r.adc) m ((adcOut r.channel).take q)

/-- R164, R161: if the environment answers as the document describes the ADC, a read of a sensor outside loopback
returns the conversion of its channel. -/
def Obligations.WellBehavedAdcIsReadRight : Prop :=
  ∀ (s : State) (n : SensorName) (r : Sensor) (m : Mode) (c : BitVec 12),
    s.Admits → s.CanTransfer → s.board.sensor n = some r → s.board.devMode (.adc r.adc) = some m →
    (r.cls = .always ∨ s.power ≠ .offOff) → s.NoError (adcBounds r.channel).length →
    s.cfg.val.loopback = false → AdcAnswers r.channel c s →
    ∃ t, exec (.adcReadCount r.adc n) s = .next t ∧ t.completion = some (.done (.count12 c))

/-! ## The DAC and the digipot engines -/

/-- R180 to R190: each of the nine DAC commands (`dacWrite`, `dacUpdate`, `dacWriteUpdateOne`, `dacWriteUpdateAll`,
`dacPoweroffChannel`, `dacPoweroffChip`, `dacRefInternal`, `dacRefExternal`, `dacNop`) sends its 24-bit frame under
the DAC's mode and chip select with the payload on; nothing else changes. In the trace, the clock event of
`EnsureConfig` (R135) in both variants, also where only the phase changes, is log entry 16, and the order of events in
a bit is R96's, general knowledge in the spec (D9, log entry 17). The spec's decisions: D9, D20, D28. -/
def Obligations.DacCommandsComplete : Prop :=
  ∀ (s : State) (cmd : DacCommand) (ch v : Nat),
    s.Admits → s.CanTransfer → s.NoError 1 → s.power ≠ .offOff → ch < 16 → v < 4096 →
    ∃ t, exec (cmd.instr ch v) s = .next t ∧ t.completion = some (.done .unit)
      ∧ TransactionDone s t .dac s.board.dacMode
          (bitsOf 24 (BitVec.ofNat 32 (((s.board.dacCodes.code cmd).toNat <<< 20) + (ch <<< 16) + (v <<< 4))))

/-- R210, R211: `DPOT.WRITE` sends its 16-bit frame under the digipot's mode and chip select with the payload on;
nothing else changes. In the trace, the clock event of `EnsureConfig` (R135) in both variants, also where only the
phase changes, is log entry 16, and the order of events in a bit is R96's, general knowledge in the spec (D9, log
entry 17). The spec's decisions: D9, D20, D30. -/
def Obligations.DpotWriteCompletes : Prop :=
  ∀ (s : State) (h w : Nat),
    s.Admits → s.CanTransfer → s.NoError 1 → s.power ≠ .offOff → h < 256 → w < 256 →
    ∃ t, exec (.dpotWrite h w) s = .next t ∧ t.completion = some (.done .unit)
      ∧ TransactionDone s t .digipot s.board.digipotMode (bitsOf 16 (BitVec.ofNat 32 ((h <<< 8) + w)))

/-- R190, R211, R293, R300: the power gate first, then an operand wider than its field. The spec's decisions: D28,
D36, D51. -/
def Obligations.FieldWidthsRefused : Prop :=
  ∀ (s : State) (cmd : DacCommand) (ch v h w r : Nat), s.Admits →
    (s.power = .offOff → exec (cmd.instr ch v) s = .refused .illegalInState
      ∧ exec (.dpotWrite h w) s = .refused .illegalInState ∧ exec (.relayConnect r) s = .refused .illegalInState
      ∧ exec (.relayDisconnect r) s = .refused .illegalInState)
    ∧ (s.power ≠ .offOff → (16 ≤ ch ∨ 4096 ≤ v) → exec (cmd.instr ch v) s = .refused .operandOutOfRange)
    ∧ (s.power ≠ .offOff → (256 ≤ h ∨ 256 ≤ w) → exec (.dpotWrite h w) s = .refused .operandOutOfRange)
    ∧ (s.power ≠ .offOff → 2 ≤ r → exec (.relayConnect r) s = .refused .operandOutOfRange
        ∧ exec (.relayDisconnect r) s = .refused .operandOutOfRange)

/-- R192, R213, R302: when the frame of a DAC command or of a digipot write ends in an error, the whole frame has been
sent, the chip select is high, the configuration is as before, and the error is raised unchanged. The clock event with
which the configuration is put back is log entry 29. In the trace, the clock event of `EnsureConfig` (R135) in both
variants, also where only the phase changes, is log entry 16, and the order of events in a bit is R96's, general
knowledge in the spec (D9, log entry 17). The spec's decisions: D9, D16, D20, D28, D30. -/
def Obligations.FrameErrorsAreRaised : Prop :=
  ∀ (s : State) (cmd : DacCommand) (ch v h w : Nat),
    s.Admits → s.CanTransfer → s.board.variant = .peripheralTimed → s.errAnswer 0 ≠ (false, false) →
    s.power ≠ .offOff → ch < 16 → v < 4096 → h < 256 → w < 256 →
    (∃ t, exec (cmd.instr ch v) s = .next t
      ∧ t.completion = some (.raised (if (s.errAnswer 0).1 then .framing else .overrun
          (packBits (s.samples (s.cfgFor s.board.dacMode) (bitsOf 24 (dacFrame (s.board.dacCodes.code cmd) ch v))))))
      ∧ TransactionFailed s t .dac s.board.dacMode (bitsOf 24 (dacFrame (s.board.dacCodes.code cmd) ch v)))
    ∧ (∃ t, exec (.dpotWrite h w) s = .next t
      ∧ t.completion = some (.raised (if (s.errAnswer 0).1 then .framing else .overrun
          (packBits (s.samples (s.cfgFor s.board.digipotMode) (bitsOf 16 (dpotFrame h w))))))
      ∧ TransactionFailed s t .digipot s.board.digipotMode (bitsOf 16 (dpotFrame h w)))

/-- R191: `DAC.MV2COUNT` returns the scaled, saturated count in every power state and changes nothing else. The spec's
decision: D29. -/
def Obligations.Mv2CountCompletes : Prop :=
  ∀ (s : State) (mv : Int), s.Admits →
    exec (.dacMv2Count mv) s = .next { s with completion := some (.done (.count12
      (if mv ≤ 0 then 0 else BitVec.ofNat 12 (min (mv.toNat * 4095 / s.board.dacVccMv) 4095)))) }

/-- R191: the scale spans the full range between 0 and the reference, stays in 12 bits and is monotonic. The spec's
decision: D29. -/
def Obligations.Mv2CountMonotone : Prop :=
  ∀ (vcc : Nat) (x y : Int), 0 < vcc →
    mv2Count vcc 0 = 0 ∧ mv2Count vcc vcc = 4095 ∧ mv2Count vcc x ≤ 4095
    ∧ (x ≤ 0 → mv2Count vcc x = 0) ∧ ((vcc : Int) ≤ x → mv2Count vcc x = 4095)
    ∧ (x ≤ y → mv2Count vcc x ≤ mv2Count vcc y)

/-- R212: `DPOT.OHMS2COUNT` returns the clamped, scaled count in every power state and changes nothing else. The
spec's decision: D31. -/
def Obligations.Ohms2CountCompletes : Prop :=
  ∀ (s : State) (ohms : Int), s.Admits →
    exec (.dpotOhms2Count ohms) s = .next { s with completion := some (.done (.count8 (BitVec.ofNat 8
      (((max (s.board.digipotWiperR : Int) (min ohms s.board.digipotMaxR) - s.board.digipotWiperR).toNat * 255)
        / (s.board.digipotMaxR - s.board.digipotWiperR))))) }

/-- R212: the scale is monotonically non-decreasing and saturates at 0 and 255 outside [wiper_r, max_r]. The spec's
decision: D31. -/
def Obligations.Ohms2CountMonotone : Prop :=
  ∀ (wiperR maxR : Nat) (x y : Int), wiperR < maxR →
    (x ≤ y → ohms2Count wiperR maxR 255 x ≤ ohms2Count wiperR maxR 255 y)
    ∧ (x ≤ wiperR → ohms2Count wiperR maxR 255 x = 0)
    ∧ ((maxR : Int) ≤ x → ohms2Count wiperR maxR 255 x = 255)
    ∧ ohms2Count wiperR maxR 255 x ≤ 255

/-! ## The power-sequencing controller -/

/-- R226 to R229, R232: each transition writes its one pin and `POWER` and nothing else. The spec's decision: D37. -/
def Obligations.TransitionsComplete : Prop :=
  ∀ (s : State), s.Admits →
    (s.power = .offOff → exec .pwrEnablePayload s =
          .next { s with power := .onOff, payloadEn := Reg.written true, trace := s.trace ++ [.pin .payloadEn true],
                         completion := some (.done .unit) })
    ∧ (s.power = .onOff → exec .pwrDisablePayload s =
          .next { s with power := .offOff, payloadEn := Reg.written false, trace := s.trace ++ [.pin .payloadEn false],
                         completion := some (.done .unit) })
    ∧ (s.power = .onOff → exec .pwrEnableHeater s =
          .next { s with power := .onOn, heaterEn := Reg.written true, trace := s.trace ++ [.pin .heaterEn true],
                         completion := some (.done .unit) })
    ∧ (s.power = .onOn → exec .pwrDisableHeater s =
          .next { s with power := .onOff, heaterEn := Reg.written false, trace := s.trace ++ [.pin .heaterEn false],
                         completion := some (.done .unit) })

/-- R225: every operation the legality table marks refused in the current power state is refused `IllegalInState`. The
spec's decisions: D36, D51. -/
def Obligations.GateRefusesByTheTable : Prop :=
  ∀ (s : State) (i : Instr), s.opstate = .idle →
    (s.power ≠ .offOff → i = .pwrEnablePayload → exec i s = .refused .illegalInState)
    ∧ (s.power ≠ .onOff → (i = .pwrDisablePayload ∨ i = .pwrEnableHeater) → exec i s = .refused .illegalInState)
    ∧ (s.power ≠ .onOn → i = .pwrDisableHeater → exec i s = .refused .illegalInState)
    ∧ (s.power = .offOff →
        ((∃ (u : Supply) (mv : Int), i = setMvOf mv u ∨ i = getMvOf u ∨ i = getMaOf u)
          ∨ (∃ r, i = .relayConnect r ∨ i = .relayDisconnect r)
          ∨ (∃ (cmd : DacCommand) (ch v : Nat), i = cmd.instr ch v) ∨ (∃ h w, i = .dpotWrite h w)
          ∨ (∃ (a : AdcId) (n : SensorName) (r : Sensor), s.board.sensor n = some r ∧ r.cls = .payloadOn
              ∧ (i = .senseRead n ∨ i = .adcReadCount a n ∨ i = .adcReadMv a n))) →
        exec i s = .refused .illegalInState)

/-- R36, R230: no operation but the four transitions changes `POWER`, and each changes one axis along its edge. -/
def Obligations.PowerChangesOnlyByTransitions : Prop :=
  ∀ (i : Instr) (s t : State), exec i s = .next t →
    t.power = s.power
    ∨ (i = .pwrEnablePayload ∧ s.power = .offOff ∧ t.power = .onOff)
    ∨ (i = .pwrDisablePayload ∧ s.power = .onOff ∧ t.power = .offOff)
    ∨ (i = .pwrEnableHeater ∧ s.power = .onOff ∧ t.power = .onOn)
    ∨ (i = .pwrDisableHeater ∧ s.power = .onOn ∧ t.power = .onOff)

/-- R225, R341: with the payload off no operation drives a relay or the chip select of the DAC or of the digipot. The
spec's decision: D51. -/
def Obligations.PayloadOffMovesNoActuator : Prop :=
  ∀ (i : Instr) (s t : State), exec i s = .next t → s.power = .offOff →
    ∃ evs, t.trace = s.trace ++ evs ∧ untouched .relay0 evs ∧ untouched .relay1 evs ∧ untouched (.cs .dac) evs
      ∧ untouched (.cs .digipot) evs ∧ t.relay0 = s.relay0 ∧ t.relay1 = s.relay1

/-- R240, R242: `SENSE.READ` returns the calibrated millivolts of the sensor's own ADC, in `OffOff` too for an
always-available sensor; nothing else changes. In every state it is `ADC.READ_MV` of the sensor's own ADC with its
result calibrated, its errors and refusals the same (R107); a name not in `SENSORS` is refused (R293). In the trace,
the clock event of `EnsureConfig` (R135) in both variants, also where only the phase changes, is log entry 16, and the
order of events in a bit is R96's, general knowledge in the spec (D9, log entry 17). The spec's decisions: D9, D20,
D23, D25. -/
def Obligations.SenseReadCompletes : Prop :=
  ∀ (s : State) (n : SensorName),
    (s.Admits → s.board.sensor n = none → exec (.senseRead n) s = .refused .noSuchSensor)
    ∧ ∀ (r : Sensor), s.board.sensor n = some r →
    exec (.senseRead n) s = mapDone (Result.calibrated s.board r.calRead) (exec (.adcReadMv r.adc n) s)
    ∧ ∀ (m : Mode), s.Admits → s.CanTransfer → s.board.devMode (.adc r.adc) = some m →
    (r.cls = .always ∨ s.power ≠ .offOff) → s.NoError (adcBounds r.channel).length →
    ∃ t, exec (.senseRead n) s = .next t
      ∧ t.completion = some (.done (.value (s.board.calibrate r.calRead
          (((s.adcCount (s.cfgFor m) r.channel).toNat * r.vrefMv / 4095 : Nat) : Int))))
      ∧ TransactionDone s t (.adc r.adc) m (adcOut r.channel)

/-- R247 to R249, R252 to R254: the six supply reads return the calibrated reading of the supply's voltage or current
sensor, with the payload on; and with the payload on each is, in every state and whatever its outcome, `SENSE.READ` of
that sensor (R107). In the trace, the clock event of `EnsureConfig` (R135) in both variants, also where only the phase
changes, is log entry 16, and the order of events in a bit is R96's, general knowledge in the spec (D9, log entry 17).
The spec's decisions: D9, D20, D23, D25. -/
def Obligations.SupplyReadsComplete : Prop :=
  ∀ (s : State) (u : Supply) (i : Instr) (n : SensorName), s.power ≠ .offOff →
    ((i = getMvOf u ∧ (s.board.supplySensors u).voltage = some n)
      ∨ (i = getMaOf u ∧ (s.board.supplySensors u).current = some n)) →
    exec i s = exec (.senseRead n) s
    ∧ ∀ (r : Sensor) (m : Mode), s.Admits → s.CanTransfer →
    s.board.sensor n = some r → s.board.devMode (.adc r.adc) = some m → s.NoError (adcBounds r.channel).length →
    ∃ t, exec i s = .next t
      ∧ t.completion = some (.done (.value (s.board.calibrate r.calRead
          (((s.adcCount (s.cfgFor m) r.channel).toNat * r.vrefMv / 4095 : Nat) : Int))))
      ∧ TransactionDone s t (.adc r.adc) m (adcOut r.channel)

/-- R252 to R254, R300: a current read of a supply without a current sensor is refused `NoSuchSensor`, after the gate;
the voltage reads likewise (log entry 15). The spec's decisions: D34, D36. -/
def Obligations.MissingSupplySensorRefused : Prop :=
  ∀ (s : State) (u : Supply), s.Admits →
    (s.power = .offOff → exec (getMaOf u) s = .refused .illegalInState ∧ exec (getMvOf u) s = .refused .illegalInState)
    ∧ (s.power ≠ .offOff → (s.board.supplySensors u).current = none → exec (getMaOf u) s = .refused .noSuchSensor)
    ∧ (s.power ≠ .offOff → (s.board.supplySensors u).voltage = none → exec (getMvOf u) s = .refused .noSuchSensor)

/-- R244 to R246, R107: with the payload on a voltage set is the device operation it expands to, in every such state and
whatever its outcome: `CAL_SET_COUNT` of the clamped target on the supply's DAC channel, a count that R7 keeps in
0..4095, or the scaled ohms of the clamped target on the digipot. The spec's decision: D32. -/
def Obligations.VoltageSetsExpand : Prop :=
  ∀ (s : State) (mv c k : Int), s.Admits → s.power ≠ .offOff →
    c = s.board.calibrate s.board.calTetherCount (s.board.clampTarget .tetherBias mv) →
    k = s.board.calibrate s.board.calCathodeCount (s.board.clampTarget .cathodeOffset mv) →
    exec (.heaterSetMv mv) s
      = exec (.dpotWrite s.board.digipotHeaterChannel.toNat
          (s.board.ohms2Count (s.board.calibrate s.board.calHeaterMvToOhms (s.board.clampTarget .heater mv)))) s
    ∧ exec (.tetherSetMv mv) s = exec (s.board.setVoltageCmd.instr s.board.tetherChannel.toNat c.toNat) s
    ∧ exec (.cathodeSetMv mv) s = exec (s.board.setVoltageCmd.instr s.board.cathodeChannel.toNat k.toNat) s
    ∧ 0 ≤ c ∧ c ≤ 4095 ∧ 0 ≤ k ∧ k ≤ 4095

/-- R7, R293: a board that breaks a constraint of R7 does not boot: `BUS.INIT` and construction are refused, and were the
block constructed, every operation the gate lets through would be. A board whose `CAL_SET_COUNT` leaves 0..4095 on some
point of the supply's range is such a board. Where each constraint is checked is the model's (log entries 9 and 14). -/
def Obligations.BrokenParametersRefused : Prop :=
  ∀ (s : State) (i : Instr) (baud : Nat) (cfg : BusConfig) (rest : List HostStep) (x : Int),
    (s.opstate = .idle → s.board.wf = false → exec (.busInit baud cfg) s = .refused .illFormedConfiguration)
    ∧ (s.opstate = .idle → s.board.wf = false → s.busReady = true → s.constructed = false →
        s.script = .construct :: rest → step s = .refused .illFormedConfiguration)
    ∧ (s.opstate = .idle → s.constructed = true → gateLegal s.board s.power i = true → s.board.wf = false →
        exec i s = .refused .illFormedConfiguration)
    ∧ (s.board.tetherRange.minMv ≤ x → x ≤ s.board.tetherRange.maxMv →
        (s.board.calibrate s.board.calTetherCount x < 0 ∨ 4095 < s.board.calibrate s.board.calTetherCount x) →
        s.board.wf = false)
    ∧ (s.board.cathodeRange.minMv ≤ x → x ≤ s.board.cathodeRange.maxMv →
        (s.board.calibrate s.board.calCathodeCount x < 0 ∨ 4095 < s.board.calibrate s.board.calCathodeCount x) →
        s.board.wf = false)

/-- R244 to R246: the three voltage sets complete, each with its frame. In the trace, the clock event of
`EnsureConfig` (R135) in both variants, also where only the phase changes, is log entry 16, and the order of events in
a bit is R96's, general knowledge in the spec (D9, log entry 17). The spec's decisions: D9, D20, D28, D30, D32. -/
def Obligations.VoltageSetsComplete : Prop :=
  ∀ (s : State) (mv : Int), s.Admits → s.CanTransfer → s.NoError 1 → s.power ≠ .offOff →
    (∃ t, exec (.heaterSetMv mv) s = .next t ∧ t.completion = some (.done .unit)
      ∧ TransactionDone s t .digipot s.board.digipotMode
          (bitsOf 16 (dpotFrame s.board.digipotHeaterChannel.toNat
            (s.board.ohms2Count (s.board.calibrate s.board.calHeaterMvToOhms (s.board.clampTarget .heater mv))))))
    ∧ (∃ t, exec (.tetherSetMv mv) s = .next t ∧ t.completion = some (.done .unit)
      ∧ TransactionDone s t .dac s.board.dacMode (bitsOf 24 (dacFrame (s.board.dacCodes.code s.board.setVoltageCmd)
          s.board.tetherChannel.toNat
          (s.board.calibrate s.board.calTetherCount (s.board.clampTarget .tetherBias mv)).toNat)))
    ∧ (∃ t, exec (.cathodeSetMv mv) s = .next t ∧ t.completion = some (.done .unit)
      ∧ TransactionDone s t .dac s.board.dacMode (bitsOf 24 (dacFrame (s.board.dacCodes.code s.board.setVoltageCmd)
          s.board.cathodeChannel.toNat
          (s.board.calibrate s.board.calCathodeCount (s.board.clampTarget .cathodeOffset mv)).toNat)))

/-- R243, R292: a target outside the range of its supply is silently clamped: every voltage set does what it does for
the clamped target. -/
def Obligations.TargetsAreClamped : Prop :=
  ∀ (s : State) (u : Supply) (mv : Int), s.Admits →
    exec (setMvOf mv u) s
      = exec (setMvOf (max (s.board.supplyRange u).minMv (min mv (s.board.supplyRange u).maxMv)) u) s

/-- R250, R251: connecting drives the relay's line to its active level, disconnecting to the other; nothing else
changes. The spec's decision: D35. -/
def Obligations.RelaysComplete : Prop :=
  ∀ (s : State), s.Admits → s.power ≠ .offOff →
    exec (.relayConnect 0) s =
          .next { s with relay0 := Reg.written s.board.relay0Active,
                         trace := s.trace ++ [.pin .relay0 s.board.relay0Active], completion := some (.done .unit) }
    ∧ exec (.relayConnect 1) s =
          .next { s with relay1 := Reg.written s.board.relay1Active,
                         trace := s.trace ++ [.pin .relay1 s.board.relay1Active], completion := some (.done .unit) }
    ∧ exec (.relayDisconnect 0) s =
          .next { s with relay0 := Reg.written (!s.board.relay0Active),
                         trace := s.trace ++ [.pin .relay0 (!s.board.relay0Active)], completion := some (.done .unit) }
    ∧ exec (.relayDisconnect 1) s =
          .next { s with relay1 := Reg.written (!s.board.relay1Active),
                         trace := s.trace ++ [.pin .relay1 (!s.board.relay1Active)], completion := some (.done .unit) }

/-! ## Errors, halt, reset and construction -/

/-- R302, R303: an operation that raises an error leaves the sequencer idle and changes neither the power state
nor an enable line nor a relay, and leaves every chip select as it was or high, and the configuration as it was. That
`CFG`, `CFG_CUR` and the chip selects are restored and `OPSTATE` is `Idle` is the spec's own decision D16 (R302); that the
clock goes back to its idle level with the configuration is R138 (log entry 29). -/
def Obligations.ErrorsLeaveControlAlone : Prop :=
  ∀ (i : Instr) (s t : State) (e : BusError), exec i s = .next t → t.completion = some (.raised e) →
    t.opstate = .idle ∧ t.power = s.power ∧ t.payloadEn = s.payloadEn ∧ t.heaterEn = s.heaterEn ∧ t.relay0 = s.relay0
      ∧ t.relay1 = s.relay1 ∧ t.constructed = s.constructed ∧ t.busReady = s.busReady ∧ t.prescaler = s.prescaler
      ∧ (s.BusAtRest → t.cfg = s.cfg ∧ t.cfgCur = s.cfgCur ∧ t.sclk = s.sclk)
      ∧ (∀ d, t.csReg d = s.csReg d ∨ t.csReg d = Reg.written true)

/-- R24, R44, R296: in `Halted` no operation is accepted, whatever it is; of the host's steps only physical reset is. That
the answer is a fault, and its name, are the model's (log entry 10). The spec's decision: D40. -/
def Obligations.HaltedAcceptsNothing : Prop :=
  ∀ (s : State) (i : Instr) (h : HostStep) (rest : List HostStep), s.opstate = .halted →
    exec i s = .fault .halted
    ∧ (s.script = h :: rest → h ≠ .physicalReset → step s = .fault .halted)
    ∧ (s.script = .physicalReset :: rest → ∃ t, step s = .next t ∧ t.opstate = .idle)

/-- R296: `HostHalt` between operations sets `OPSTATE` and nothing else: all pins keep their levels. The spec's
decision: D40. -/
def Obligations.HostHaltKeepsTheLines : Prop :=
  ∀ (s : State) (rest : List HostStep), s.opstate = .idle → s.script = .halt :: rest →
    step s = .next { s with opstate := .halted, script := rest }

/-- R320: physical reset is possible in every state, and returns every piece of state to its reset value with the
trace empty. It may fall in the middle of an operation, after any number of the operation's events: the block is then
`Busy` at the position those events reach, in transfers and bits (R24; in `BUS.XFER` a bit is four events), its trace
has grown by those events, a chip select they have driven low is low, and in the peripheral-timed variant one draw is
used up for each transfer completed (R132; a finished `BUS.XFER` has used up what it uses up uncut). What stays is
outside the block: the parameters, the host's further steps and the environment's answers (log entry 23). The values
of the registers R46 leaves unspecified are the model's (log entry 4). That the host's script says where the reset
falls, and that a transfer whose last event has happened counts as complete, are log entry 3. That a bit is four
events is R96's table (D9, log entry 17). The spec's decisions: D9, D47. -/
def Obligations.PhysicalResetFromAnyState : Prop :=
  ∀ (s u : State) (i : Instr) (k : Nat) (rest : List HostStep) (evs : List Event) (mid : State),
    (s.script = .physicalReset :: rest →
      step s = .next { State.resetOn s.board with script := rest, misoIn := s.misoIn, misoDraws := s.misoDraws,
                                                  errIn := s.errIn, errDraws := s.errDraws })
    ∧ (s.script = .resetDuring i k :: rest → exec i { s with script := rest } = .next u → u.trace = s.trace ++ evs →
        mid = ({ s with script := rest } : State).midway i (evs.take k) →
        step s = .next { State.resetOn s.board with script := rest, misoIn := mid.misoIn, misoDraws := mid.misoDraws,
                                                    errIn := mid.errIn, errDraws := mid.errDraws }
          ∧ mid.opstate = .busy i (Position.after (transferBitsOf s.board i) (bitTimes (evs.take k)))
          ∧ mid.errIn = (match s.board.variant with
              | .softwareTimed => s.errIn
              | .peripheralTimed => s.errIn.drop
                  (Position.after (transferBitsOf s.board i) (bitTimes (evs.take k))).transfers)
          ∧ mid.errDraws = (match s.board.variant with
              | .softwareTimed => s.errDraws
              | .peripheralTimed => s.errDraws
                  + ((Position.after (transferBitsOf s.board i) (bitTimes (evs.take k))).transfers - s.errIn.length))
          ∧ (∀ n d, i = .busXfer n d → mid.opstate = .busy i (if k < 4 * n then ⟨0, k / 4⟩ else ⟨1, 0⟩)
              ∧ mid.errIn = (if k < 4 * n then s.errIn else u.errIn)
              ∧ mid.errDraws = (if k < 4 * n then s.errDraws else u.errDraws))
          ∧ mid.trace = s.trace ++ evs.take k
          ∧ ∀ d v, lastLevel (.cs d) (evs.take k) = some v → mid.csReg d = Reg.written v)

/-- R321, R46: the reset values the spec gives, and which registers it leaves unspecified. The spec's decisions: D19,
D38. -/
def Obligations.ResetValues : Prop :=
  State.reset.opstate = .idle ∧ State.reset.power = .offOff ∧ State.reset.busReady = false ∧ State.reset.swrst = true
    ∧ State.reset.txrdy = true ∧ State.reset.rxrdy = false ∧ State.reset.fe = false ∧ State.reset.oe = false
    ∧ State.reset.trace = []
    ∧ State.reset.cfg.specified = false ∧ State.reset.cfgCur.specified = false ∧ State.reset.prescaler.specified = false
    ∧ State.reset.sr.specified = false ∧ State.reset.txbuf.specified = false ∧ State.reset.rxbuf.specified = false
    ∧ State.reset.sclk.specified = false ∧ State.reset.mosi.specified = false
    ∧ State.reset.payloadEn.specified = false ∧ State.reset.heaterEn.specified = false
    ∧ State.reset.relay0.specified = false ∧ State.reset.relay1.specified = false
    ∧ (∀ d, (State.reset.csReg d).specified = false)

/-- R328, R46: from reset on a well-formed board, `BUS.INIT` and construction take two steps, put the events of P0 on
the lines and leave the values of the column "after construction". That construction is a host step, and that the chip
selects rise in the order of the board's list, are log entry 8. That `BUS.INIT` appends its clock event in both
variants is log entry 16. The spec's decisions: D38, D39. -/
def Obligations.BootSequence : Prop :=
  ∀ (b : Board) (baud : Nat) (cfg : BusConfig) (rest : List HostStep) (s : State), b.wf = true →
    s = { State.resetOn b with script := .issue (.busInit baud cfg) :: .construct :: rest } →
    ∃ t u, step s = .next t ∧ step t = .next u
      ∧ u.trace = [.pin .sclk cfg.pol.idleLevel] ++ b.devs.map (fun d => .pin (.cs d) true)
          ++ [.pin .heaterEn false, .pin .payloadEn false]
      ∧ u.opstate = .idle ∧ u.busReady = true ∧ u.constructed = true ∧ u.power = .offOff
      ∧ u.cfg = Reg.written cfg ∧ u.cfgCur = Reg.written cfg.mode ∧ u.sclk = Reg.written cfg.pol.idleLevel
      ∧ (∀ d ∈ b.devs, u.csReg d = Reg.written true)
      ∧ u.payloadEn = Reg.written false ∧ u.heaterEn = Reg.written false
      ∧ u.mosi.specified = false ∧ u.relay0.specified = false ∧ u.relay1.specified = false
      ∧ u.sr.specified = false ∧ u.txbuf.specified = false ∧ u.rxbuf.specified = false
      ∧ u.FlagsAtRest
      ∧ (b.variant = .peripheralTimed → u.swrst = false ∧ u.prescaler = Reg.written (prescalerOf b.clockHz baud))
      ∧ u.script = rest

/-- R328, R293: before construction is done no operation other than `BUS.INIT` is admitted: one the gate forbids is refused
`IllegalInState` (R225, R300), any other `Unconfigured`. That reason is the spec's for a transport operation with
`BUS_READY = 0` (R293, V-5d). For the other operations, and for transport operations too between `BUS.INIT` and
construction (`BUS_READY = 1`), R328 names no reason, and `Unconfigured` is the model's choice (log entry 8). The spec's
decision: D39. -/
def Obligations.NothingBeforeConstruction : Prop :=
  ∀ (i : Instr) (s : State), s.opstate = .idle → s.constructed = false → (∀ baud cfg, i ≠ .busInit baud cfg) →
    (gateLegal s.board s.power i = true → exec i s = .refused .unconfigured)
    ∧ (gateLegal s.board s.power i = false → exec i s = .refused .illegalInState)

/-! ## Invariants of every step -/

/-- R24 to R26, R34 to R36, R40, R41, R138: every step keeps the block at rest: the sequencer between operations, the
flags, the memo, the clock, the chip selects and the enable lines. The spec's decisions: D18, D38. -/
def Obligations.StepKeepsTheBlockAtRest : Prop :=
  ∀ s t : State, s.AtRest → step s = .next t → t.AtRest

/-- R36, R41, V-41: every step keeps it true that at no moment of the pin trace the heater is enabled with the payload
disabled. That an enable line not driven yet, whose level R46 leaves unspecified, is read as 0 is the model's choice (log
entry 4): of the time before R328's step 5 this says only what has been driven. -/
def Obligations.StepKeepsTheHeaterSafe : Prop :=
  ∀ s t : State, s.HeaterSafe → step s = .next t → t.HeaterSafe

/-- R60, R70: every step keeps it true that at no moment of the pin trace two chip selects are low, and that between
steps none is. That a chip select not driven yet, whose level R46 leaves unspecified, is read as 1 is the model's choice
(log entry 4). -/
def Obligations.StepKeepsChipSelectsFramed : Prop :=
  ∀ s t : State, s.ChipSelectsFramed → step s = .next t → t.ChipSelectsFramed

/-- The three invariants hold at reset, where the trace is empty; that they read an enable line not driven yet as 0, and a
chip select not driven yet as 1, is the model's choice (log entry 4). -/
def Obligations.ResetMeetsTheInvariants : Prop :=
  State.reset.AtRest ∧ State.reset.HeaterSafe ∧ State.reset.ChipSelectsFramed

/-- R331, R45: no step changes the parameters; and but for physical reset, between operations or in the middle of one,
every step only adds to the pin trace. -/
def Obligations.StepsKeepParametersAndExtendTheTrace : Prop :=
  ∀ s t : State, step s = .next t →
    t.board = s.board
    ∧ ((∀ rest, s.script ≠ .physicalReset :: rest) → (∀ i k rest, s.script ≠ .resetDuring i k :: rest) →
        ∃ evs, t.trace = s.trace ++ evs)

/-! ## The test engine -/

/-- R278: the relative percent difference is the quotient of the difference and the sum of the absolute values, 0
where both arguments are 0; it lies in [-1, 1], and is 0 for equal arguments. -/
def Obligations.RpdBounded : Prop :=
  ∀ x y : Rat,
    rpd x y = (if x = 0 ∧ y = 0 then 0 else (x - y) / (|x| + |y|)) ∧ -1 ≤ rpd x y ∧ rpd x y ≤ 1 ∧ rpd x x = 0

/-- R279: a fold of the running mean is `avg + (new - avg) / (n + 1)`, and folding a constant value any positive
number of times gives exactly that value. -/
def Obligations.MeanOfConstant : Prop :=
  ∀ (avg v : Rat) (n : Nat) (rest : List Rat),
    meanFrom avg n (v :: rest) = meanFrom (avg + (v - avg) / (n + 1)) (n + 1) rest
    ∧ meanFrom 0 0 (List.replicate (n + 1) v) = v
end

