-- ==== Sys2Proof/Laws/State.lean ====
section
/-! SUPPORT. The small lemmas of the updates of State: one per field and update, true by unfolding. -/

namespace Sys2Proof.Machine

/-! ### Registers -/

@[simp] theorem Reg.written_val {α : Type} (v : α) : (Reg.written v).val = v := rfl
@[simp] theorem Reg.written_specified {α : Type} (v : α) : (Reg.written v).specified = true := rfl
@[simp] theorem Reg.unspecified_val {α : Type} (v : α) : (Reg.unspecified v).val = v := rfl
@[simp] theorem Reg.unspecified_specified {α : Type} (v : α) : (Reg.unspecified v).specified = false := rfl

variable (s : State)

/-! ### `State.emit` -/

@[simp] theorem State.emit_board (e : Event) : (s.emit e).board = s.board := rfl
@[simp] theorem State.emit_script (e : Event) : (s.emit e).script = s.script := rfl
@[simp] theorem State.emit_opstate (e : Event) : (s.emit e).opstate = s.opstate := rfl
@[simp] theorem State.emit_completion (e : Event) : (s.emit e).completion = s.completion := rfl
@[simp] theorem State.emit_constructed (e : Event) : (s.emit e).constructed = s.constructed := rfl
@[simp] theorem State.emit_sr (e : Event) : (s.emit e).sr = s.sr := rfl
@[simp] theorem State.emit_txbuf (e : Event) : (s.emit e).txbuf = s.txbuf := rfl
@[simp] theorem State.emit_rxbuf (e : Event) : (s.emit e).rxbuf = s.rxbuf := rfl
@[simp] theorem State.emit_txrdy (e : Event) : (s.emit e).txrdy = s.txrdy := rfl
@[simp] theorem State.emit_rxrdy (e : Event) : (s.emit e).rxrdy = s.rxrdy := rfl
@[simp] theorem State.emit_fe (e : Event) : (s.emit e).fe = s.fe := rfl
@[simp] theorem State.emit_oe (e : Event) : (s.emit e).oe = s.oe := rfl
@[simp] theorem State.emit_cfg (e : Event) : (s.emit e).cfg = s.cfg := rfl
@[simp] theorem State.emit_swrst (e : Event) : (s.emit e).swrst = s.swrst := rfl
@[simp] theorem State.emit_prescaler (e : Event) : (s.emit e).prescaler = s.prescaler := rfl
@[simp] theorem State.emit_busReady (e : Event) : (s.emit e).busReady = s.busReady := rfl
@[simp] theorem State.emit_cfgCur (e : Event) : (s.emit e).cfgCur = s.cfgCur := rfl
@[simp] theorem State.emit_power (e : Event) : (s.emit e).power = s.power := rfl
@[simp] theorem State.emit_sclk (e : Event) : (s.emit e).sclk = s.sclk := rfl
@[simp] theorem State.emit_mosi (e : Event) : (s.emit e).mosi = s.mosi := rfl
@[simp] theorem State.emit_cs (e : Event) : (s.emit e).cs = s.cs := rfl
@[simp] theorem State.emit_payloadEn (e : Event) : (s.emit e).payloadEn = s.payloadEn := rfl
@[simp] theorem State.emit_heaterEn (e : Event) : (s.emit e).heaterEn = s.heaterEn := rfl
@[simp] theorem State.emit_relay0 (e : Event) : (s.emit e).relay0 = s.relay0 := rfl
@[simp] theorem State.emit_relay1 (e : Event) : (s.emit e).relay1 = s.relay1 := rfl
@[simp] theorem State.emit_trace (e : Event) : (s.emit e).trace = s.trace ++ [e] := rfl
@[simp] theorem State.emit_misoIn (e : Event) : (s.emit e).misoIn = s.misoIn := rfl
@[simp] theorem State.emit_misoDraws (e : Event) : (s.emit e).misoDraws = s.misoDraws := rfl
@[simp] theorem State.emit_errIn (e : Event) : (s.emit e).errIn = s.errIn := rfl
@[simp] theorem State.emit_errDraws (e : Event) : (s.emit e).errDraws = s.errDraws := rfl

/-! ### `State.delay` -/

@[simp] theorem State.delay_board (n : Nat) : (s.delay n).board = s.board := rfl
@[simp] theorem State.delay_script (n : Nat) : (s.delay n).script = s.script := rfl
@[simp] theorem State.delay_opstate (n : Nat) : (s.delay n).opstate = s.opstate := rfl
@[simp] theorem State.delay_completion (n : Nat) : (s.delay n).completion = s.completion := rfl
@[simp] theorem State.delay_constructed (n : Nat) : (s.delay n).constructed = s.constructed := rfl
@[simp] theorem State.delay_sr (n : Nat) : (s.delay n).sr = s.sr := rfl
@[simp] theorem State.delay_txbuf (n : Nat) : (s.delay n).txbuf = s.txbuf := rfl
@[simp] theorem State.delay_rxbuf (n : Nat) : (s.delay n).rxbuf = s.rxbuf := rfl
@[simp] theorem State.delay_txrdy (n : Nat) : (s.delay n).txrdy = s.txrdy := rfl
@[simp] theorem State.delay_rxrdy (n : Nat) : (s.delay n).rxrdy = s.rxrdy := rfl
@[simp] theorem State.delay_fe (n : Nat) : (s.delay n).fe = s.fe := rfl
@[simp] theorem State.delay_oe (n : Nat) : (s.delay n).oe = s.oe := rfl
@[simp] theorem State.delay_cfg (n : Nat) : (s.delay n).cfg = s.cfg := rfl
@[simp] theorem State.delay_swrst (n : Nat) : (s.delay n).swrst = s.swrst := rfl
@[simp] theorem State.delay_prescaler (n : Nat) : (s.delay n).prescaler = s.prescaler := rfl
@[simp] theorem State.delay_busReady (n : Nat) : (s.delay n).busReady = s.busReady := rfl
@[simp] theorem State.delay_cfgCur (n : Nat) : (s.delay n).cfgCur = s.cfgCur := rfl
@[simp] theorem State.delay_power (n : Nat) : (s.delay n).power = s.power := rfl
@[simp] theorem State.delay_sclk (n : Nat) : (s.delay n).sclk = s.sclk := rfl
@[simp] theorem State.delay_mosi (n : Nat) : (s.delay n).mosi = s.mosi := rfl
@[simp] theorem State.delay_cs (n : Nat) : (s.delay n).cs = s.cs := rfl
@[simp] theorem State.delay_payloadEn (n : Nat) : (s.delay n).payloadEn = s.payloadEn := rfl
@[simp] theorem State.delay_heaterEn (n : Nat) : (s.delay n).heaterEn = s.heaterEn := rfl
@[simp] theorem State.delay_relay0 (n : Nat) : (s.delay n).relay0 = s.relay0 := rfl
@[simp] theorem State.delay_relay1 (n : Nat) : (s.delay n).relay1 = s.relay1 := rfl
@[simp] theorem State.delay_trace (n : Nat) : (s.delay n).trace = s.trace := rfl
@[simp] theorem State.delay_misoIn (n : Nat) : (s.delay n).misoIn = s.misoIn := rfl
@[simp] theorem State.delay_misoDraws (n : Nat) : (s.delay n).misoDraws = s.misoDraws := rfl
@[simp] theorem State.delay_errIn (n : Nat) : (s.delay n).errIn = s.errIn := rfl
@[simp] theorem State.delay_errDraws (n : Nat) : (s.delay n).errDraws = s.errDraws := rfl

/-! ### `State.setBitIndex` -/

@[simp] theorem State.setBitIndex_board (k : Nat) : (s.setBitIndex k).board = s.board := rfl
@[simp] theorem State.setBitIndex_script (k : Nat) : (s.setBitIndex k).script = s.script := rfl
@[simp] theorem State.setBitIndex_opstate (k : Nat) : (s.setBitIndex k).opstate = s.opstate := rfl
@[simp] theorem State.setBitIndex_completion (k : Nat) : (s.setBitIndex k).completion = s.completion := rfl
@[simp] theorem State.setBitIndex_constructed (k : Nat) : (s.setBitIndex k).constructed = s.constructed := rfl
@[simp] theorem State.setBitIndex_sr (k : Nat) : (s.setBitIndex k).sr = ⟨{ s.sr.val with i := k }, s.sr.specified⟩ := rfl
@[simp] theorem State.setBitIndex_txbuf (k : Nat) : (s.setBitIndex k).txbuf = s.txbuf := rfl
@[simp] theorem State.setBitIndex_rxbuf (k : Nat) : (s.setBitIndex k).rxbuf = s.rxbuf := rfl
@[simp] theorem State.setBitIndex_txrdy (k : Nat) : (s.setBitIndex k).txrdy = s.txrdy := rfl
@[simp] theorem State.setBitIndex_rxrdy (k : Nat) : (s.setBitIndex k).rxrdy = s.rxrdy := rfl
@[simp] theorem State.setBitIndex_fe (k : Nat) : (s.setBitIndex k).fe = s.fe := rfl
@[simp] theorem State.setBitIndex_oe (k : Nat) : (s.setBitIndex k).oe = s.oe := rfl
@[simp] theorem State.setBitIndex_cfg (k : Nat) : (s.setBitIndex k).cfg = s.cfg := rfl
@[simp] theorem State.setBitIndex_swrst (k : Nat) : (s.setBitIndex k).swrst = s.swrst := rfl
@[simp] theorem State.setBitIndex_prescaler (k : Nat) : (s.setBitIndex k).prescaler = s.prescaler := rfl
@[simp] theorem State.setBitIndex_busReady (k : Nat) : (s.setBitIndex k).busReady = s.busReady := rfl
@[simp] theorem State.setBitIndex_cfgCur (k : Nat) : (s.setBitIndex k).cfgCur = s.cfgCur := rfl
@[simp] theorem State.setBitIndex_power (k : Nat) : (s.setBitIndex k).power = s.power := rfl
@[simp] theorem State.setBitIndex_sclk (k : Nat) : (s.setBitIndex k).sclk = s.sclk := rfl
@[simp] theorem State.setBitIndex_mosi (k : Nat) : (s.setBitIndex k).mosi = s.mosi := rfl
@[simp] theorem State.setBitIndex_cs (k : Nat) : (s.setBitIndex k).cs = s.cs := rfl
@[simp] theorem State.setBitIndex_payloadEn (k : Nat) : (s.setBitIndex k).payloadEn = s.payloadEn := rfl
@[simp] theorem State.setBitIndex_heaterEn (k : Nat) : (s.setBitIndex k).heaterEn = s.heaterEn := rfl
@[simp] theorem State.setBitIndex_relay0 (k : Nat) : (s.setBitIndex k).relay0 = s.relay0 := rfl
@[simp] theorem State.setBitIndex_relay1 (k : Nat) : (s.setBitIndex k).relay1 = s.relay1 := rfl
@[simp] theorem State.setBitIndex_trace (k : Nat) : (s.setBitIndex k).trace = s.trace := rfl
@[simp] theorem State.setBitIndex_misoIn (k : Nat) : (s.setBitIndex k).misoIn = s.misoIn := rfl
@[simp] theorem State.setBitIndex_misoDraws (k : Nat) : (s.setBitIndex k).misoDraws = s.misoDraws := rfl
@[simp] theorem State.setBitIndex_errIn (k : Nat) : (s.setBitIndex k).errIn = s.errIn := rfl
@[simp] theorem State.setBitIndex_errDraws (k : Nat) : (s.setBitIndex k).errDraws = s.errDraws := rfl

/-! ### `State.shiftInBit` -/

@[simp] theorem State.shiftInBit_board (b : Bool) : (s.shiftInBit b).board = s.board := rfl
@[simp] theorem State.shiftInBit_script (b : Bool) : (s.shiftInBit b).script = s.script := rfl
@[simp] theorem State.shiftInBit_opstate (b : Bool) : (s.shiftInBit b).opstate = s.opstate := rfl
@[simp] theorem State.shiftInBit_completion (b : Bool) : (s.shiftInBit b).completion = s.completion := rfl
@[simp] theorem State.shiftInBit_constructed (b : Bool) : (s.shiftInBit b).constructed = s.constructed := rfl
@[simp] theorem State.shiftInBit_sr (b : Bool) : (s.shiftInBit b).sr = ⟨{ s.sr.val with rx := shiftIn s.sr.val.rx b }, s.sr.specified⟩ := rfl
@[simp] theorem State.shiftInBit_txbuf (b : Bool) : (s.shiftInBit b).txbuf = s.txbuf := rfl
@[simp] theorem State.shiftInBit_rxbuf (b : Bool) : (s.shiftInBit b).rxbuf = s.rxbuf := rfl
@[simp] theorem State.shiftInBit_txrdy (b : Bool) : (s.shiftInBit b).txrdy = s.txrdy := rfl
@[simp] theorem State.shiftInBit_rxrdy (b : Bool) : (s.shiftInBit b).rxrdy = s.rxrdy := rfl
@[simp] theorem State.shiftInBit_fe (b : Bool) : (s.shiftInBit b).fe = s.fe := rfl
@[simp] theorem State.shiftInBit_oe (b : Bool) : (s.shiftInBit b).oe = s.oe := rfl
@[simp] theorem State.shiftInBit_cfg (b : Bool) : (s.shiftInBit b).cfg = s.cfg := rfl
@[simp] theorem State.shiftInBit_swrst (b : Bool) : (s.shiftInBit b).swrst = s.swrst := rfl
@[simp] theorem State.shiftInBit_prescaler (b : Bool) : (s.shiftInBit b).prescaler = s.prescaler := rfl
@[simp] theorem State.shiftInBit_busReady (b : Bool) : (s.shiftInBit b).busReady = s.busReady := rfl
@[simp] theorem State.shiftInBit_cfgCur (b : Bool) : (s.shiftInBit b).cfgCur = s.cfgCur := rfl
@[simp] theorem State.shiftInBit_power (b : Bool) : (s.shiftInBit b).power = s.power := rfl
@[simp] theorem State.shiftInBit_sclk (b : Bool) : (s.shiftInBit b).sclk = s.sclk := rfl
@[simp] theorem State.shiftInBit_mosi (b : Bool) : (s.shiftInBit b).mosi = s.mosi := rfl
@[simp] theorem State.shiftInBit_cs (b : Bool) : (s.shiftInBit b).cs = s.cs := rfl
@[simp] theorem State.shiftInBit_payloadEn (b : Bool) : (s.shiftInBit b).payloadEn = s.payloadEn := rfl
@[simp] theorem State.shiftInBit_heaterEn (b : Bool) : (s.shiftInBit b).heaterEn = s.heaterEn := rfl
@[simp] theorem State.shiftInBit_relay0 (b : Bool) : (s.shiftInBit b).relay0 = s.relay0 := rfl
@[simp] theorem State.shiftInBit_relay1 (b : Bool) : (s.shiftInBit b).relay1 = s.relay1 := rfl
@[simp] theorem State.shiftInBit_trace (b : Bool) : (s.shiftInBit b).trace = s.trace := rfl
@[simp] theorem State.shiftInBit_misoIn (b : Bool) : (s.shiftInBit b).misoIn = s.misoIn := rfl
@[simp] theorem State.shiftInBit_misoDraws (b : Bool) : (s.shiftInBit b).misoDraws = s.misoDraws := rfl
@[simp] theorem State.shiftInBit_errIn (b : Bool) : (s.shiftInBit b).errIn = s.errIn := rfl
@[simp] theorem State.shiftInBit_errDraws (b : Bool) : (s.shiftInBit b).errDraws = s.errDraws := rfl

/-! ### `State.loadSr` -/

@[simp] theorem State.loadSr_board (n : Nat) (d : Word) : (s.loadSr n d).board = s.board := rfl
@[simp] theorem State.loadSr_script (n : Nat) (d : Word) : (s.loadSr n d).script = s.script := rfl
@[simp] theorem State.loadSr_opstate (n : Nat) (d : Word) : (s.loadSr n d).opstate = s.opstate := rfl
@[simp] theorem State.loadSr_completion (n : Nat) (d : Word) : (s.loadSr n d).completion = s.completion := rfl
@[simp] theorem State.loadSr_constructed (n : Nat) (d : Word) : (s.loadSr n d).constructed = s.constructed := rfl
@[simp] theorem State.loadSr_sr (n : Nat) (d : Word) : (s.loadSr n d).sr = Reg.written ⟨truncBits n d, 0, n - 1⟩ := rfl
@[simp] theorem State.loadSr_txbuf (n : Nat) (d : Word) : (s.loadSr n d).txbuf = s.txbuf := rfl
@[simp] theorem State.loadSr_rxbuf (n : Nat) (d : Word) : (s.loadSr n d).rxbuf = s.rxbuf := rfl
@[simp] theorem State.loadSr_txrdy (n : Nat) (d : Word) : (s.loadSr n d).txrdy = s.txrdy := rfl
@[simp] theorem State.loadSr_rxrdy (n : Nat) (d : Word) : (s.loadSr n d).rxrdy = s.rxrdy := rfl
@[simp] theorem State.loadSr_fe (n : Nat) (d : Word) : (s.loadSr n d).fe = s.fe := rfl
@[simp] theorem State.loadSr_oe (n : Nat) (d : Word) : (s.loadSr n d).oe = s.oe := rfl
@[simp] theorem State.loadSr_cfg (n : Nat) (d : Word) : (s.loadSr n d).cfg = s.cfg := rfl
@[simp] theorem State.loadSr_swrst (n : Nat) (d : Word) : (s.loadSr n d).swrst = s.swrst := rfl
@[simp] theorem State.loadSr_prescaler (n : Nat) (d : Word) : (s.loadSr n d).prescaler = s.prescaler := rfl
@[simp] theorem State.loadSr_busReady (n : Nat) (d : Word) : (s.loadSr n d).busReady = s.busReady := rfl
@[simp] theorem State.loadSr_cfgCur (n : Nat) (d : Word) : (s.loadSr n d).cfgCur = s.cfgCur := rfl
@[simp] theorem State.loadSr_power (n : Nat) (d : Word) : (s.loadSr n d).power = s.power := rfl
@[simp] theorem State.loadSr_sclk (n : Nat) (d : Word) : (s.loadSr n d).sclk = s.sclk := rfl
@[simp] theorem State.loadSr_mosi (n : Nat) (d : Word) : (s.loadSr n d).mosi = s.mosi := rfl
@[simp] theorem State.loadSr_cs (n : Nat) (d : Word) : (s.loadSr n d).cs = s.cs := rfl
@[simp] theorem State.loadSr_payloadEn (n : Nat) (d : Word) : (s.loadSr n d).payloadEn = s.payloadEn := rfl
@[simp] theorem State.loadSr_heaterEn (n : Nat) (d : Word) : (s.loadSr n d).heaterEn = s.heaterEn := rfl
@[simp] theorem State.loadSr_relay0 (n : Nat) (d : Word) : (s.loadSr n d).relay0 = s.relay0 := rfl
@[simp] theorem State.loadSr_relay1 (n : Nat) (d : Word) : (s.loadSr n d).relay1 = s.relay1 := rfl
@[simp] theorem State.loadSr_trace (n : Nat) (d : Word) : (s.loadSr n d).trace = s.trace := rfl
@[simp] theorem State.loadSr_misoIn (n : Nat) (d : Word) : (s.loadSr n d).misoIn = s.misoIn := rfl
@[simp] theorem State.loadSr_misoDraws (n : Nat) (d : Word) : (s.loadSr n d).misoDraws = s.misoDraws := rfl
@[simp] theorem State.loadSr_errIn (n : Nat) (d : Word) : (s.loadSr n d).errIn = s.errIn := rfl
@[simp] theorem State.loadSr_errDraws (n : Nat) (d : Word) : (s.loadSr n d).errDraws = s.errDraws := rfl

/-! ### `State.countBit` -/

@[simp] theorem State.countBit_board : (s.countBit).board = s.board := rfl
@[simp] theorem State.countBit_script : (s.countBit).script = s.script := rfl
@[simp] theorem State.countBit_opstate : (s.countBit).opstate = s.opstate.nextBit := rfl
@[simp] theorem State.countBit_completion : (s.countBit).completion = s.completion := rfl
@[simp] theorem State.countBit_constructed : (s.countBit).constructed = s.constructed := rfl
@[simp] theorem State.countBit_sr : (s.countBit).sr = s.sr := rfl
@[simp] theorem State.countBit_txbuf : (s.countBit).txbuf = s.txbuf := rfl
@[simp] theorem State.countBit_rxbuf : (s.countBit).rxbuf = s.rxbuf := rfl
@[simp] theorem State.countBit_txrdy : (s.countBit).txrdy = s.txrdy := rfl
@[simp] theorem State.countBit_rxrdy : (s.countBit).rxrdy = s.rxrdy := rfl
@[simp] theorem State.countBit_fe : (s.countBit).fe = s.fe := rfl
@[simp] theorem State.countBit_oe : (s.countBit).oe = s.oe := rfl
@[simp] theorem State.countBit_cfg : (s.countBit).cfg = s.cfg := rfl
@[simp] theorem State.countBit_swrst : (s.countBit).swrst = s.swrst := rfl
@[simp] theorem State.countBit_prescaler : (s.countBit).prescaler = s.prescaler := rfl
@[simp] theorem State.countBit_busReady : (s.countBit).busReady = s.busReady := rfl
@[simp] theorem State.countBit_cfgCur : (s.countBit).cfgCur = s.cfgCur := rfl
@[simp] theorem State.countBit_power : (s.countBit).power = s.power := rfl
@[simp] theorem State.countBit_sclk : (s.countBit).sclk = s.sclk := rfl
@[simp] theorem State.countBit_mosi : (s.countBit).mosi = s.mosi := rfl
@[simp] theorem State.countBit_cs : (s.countBit).cs = s.cs := rfl
@[simp] theorem State.countBit_payloadEn : (s.countBit).payloadEn = s.payloadEn := rfl
@[simp] theorem State.countBit_heaterEn : (s.countBit).heaterEn = s.heaterEn := rfl
@[simp] theorem State.countBit_relay0 : (s.countBit).relay0 = s.relay0 := rfl
@[simp] theorem State.countBit_relay1 : (s.countBit).relay1 = s.relay1 := rfl
@[simp] theorem State.countBit_trace : (s.countBit).trace = s.trace := rfl
@[simp] theorem State.countBit_misoIn : (s.countBit).misoIn = s.misoIn := rfl
@[simp] theorem State.countBit_misoDraws : (s.countBit).misoDraws = s.misoDraws := rfl
@[simp] theorem State.countBit_errIn : (s.countBit).errIn = s.errIn := rfl
@[simp] theorem State.countBit_errDraws : (s.countBit).errDraws = s.errDraws := rfl

/-! ### `State.endTransfer` -/

@[simp] theorem State.endTransfer_board : (s.endTransfer).board = s.board := rfl
@[simp] theorem State.endTransfer_script : (s.endTransfer).script = s.script := rfl
@[simp] theorem State.endTransfer_opstate : (s.endTransfer).opstate = s.opstate.next := rfl
@[simp] theorem State.endTransfer_completion : (s.endTransfer).completion = s.completion := rfl
@[simp] theorem State.endTransfer_constructed : (s.endTransfer).constructed = s.constructed := rfl
@[simp] theorem State.endTransfer_sr : (s.endTransfer).sr = Reg.unspecified s.sr.val := rfl
@[simp] theorem State.endTransfer_txbuf : (s.endTransfer).txbuf = s.txbuf := rfl
@[simp] theorem State.endTransfer_rxbuf : (s.endTransfer).rxbuf = s.rxbuf := rfl
@[simp] theorem State.endTransfer_txrdy : (s.endTransfer).txrdy = s.txrdy := rfl
@[simp] theorem State.endTransfer_rxrdy : (s.endTransfer).rxrdy = s.rxrdy := rfl
@[simp] theorem State.endTransfer_fe : (s.endTransfer).fe = s.fe := rfl
@[simp] theorem State.endTransfer_oe : (s.endTransfer).oe = s.oe := rfl
@[simp] theorem State.endTransfer_cfg : (s.endTransfer).cfg = s.cfg := rfl
@[simp] theorem State.endTransfer_swrst : (s.endTransfer).swrst = s.swrst := rfl
@[simp] theorem State.endTransfer_prescaler : (s.endTransfer).prescaler = s.prescaler := rfl
@[simp] theorem State.endTransfer_busReady : (s.endTransfer).busReady = s.busReady := rfl
@[simp] theorem State.endTransfer_cfgCur : (s.endTransfer).cfgCur = s.cfgCur := rfl
@[simp] theorem State.endTransfer_power : (s.endTransfer).power = s.power := rfl
@[simp] theorem State.endTransfer_sclk : (s.endTransfer).sclk = s.sclk := rfl
@[simp] theorem State.endTransfer_mosi : (s.endTransfer).mosi = s.mosi := rfl
@[simp] theorem State.endTransfer_cs : (s.endTransfer).cs = s.cs := rfl
@[simp] theorem State.endTransfer_payloadEn : (s.endTransfer).payloadEn = s.payloadEn := rfl
@[simp] theorem State.endTransfer_heaterEn : (s.endTransfer).heaterEn = s.heaterEn := rfl
@[simp] theorem State.endTransfer_relay0 : (s.endTransfer).relay0 = s.relay0 := rfl
@[simp] theorem State.endTransfer_relay1 : (s.endTransfer).relay1 = s.relay1 := rfl
@[simp] theorem State.endTransfer_trace : (s.endTransfer).trace = s.trace := rfl
@[simp] theorem State.endTransfer_misoIn : (s.endTransfer).misoIn = s.misoIn := rfl
@[simp] theorem State.endTransfer_misoDraws : (s.endTransfer).misoDraws = s.misoDraws := rfl
@[simp] theorem State.endTransfer_errIn : (s.endTransfer).errIn = s.errIn := rfl
@[simp] theorem State.endTransfer_errDraws : (s.endTransfer).errDraws = s.errDraws := rfl

/-! ### `State.writeTxbuf` -/

@[simp] theorem State.writeTxbuf_board (w : Word) : (s.writeTxbuf w).board = s.board := rfl
@[simp] theorem State.writeTxbuf_script (w : Word) : (s.writeTxbuf w).script = s.script := rfl
@[simp] theorem State.writeTxbuf_opstate (w : Word) : (s.writeTxbuf w).opstate = s.opstate := rfl
@[simp] theorem State.writeTxbuf_completion (w : Word) : (s.writeTxbuf w).completion = s.completion := rfl
@[simp] theorem State.writeTxbuf_constructed (w : Word) : (s.writeTxbuf w).constructed = s.constructed := rfl
@[simp] theorem State.writeTxbuf_sr (w : Word) : (s.writeTxbuf w).sr = s.sr := rfl
@[simp] theorem State.writeTxbuf_txbuf (w : Word) : (s.writeTxbuf w).txbuf = Reg.written w := rfl
@[simp] theorem State.writeTxbuf_rxbuf (w : Word) : (s.writeTxbuf w).rxbuf = s.rxbuf := rfl
@[simp] theorem State.writeTxbuf_txrdy (w : Word) : (s.writeTxbuf w).txrdy = false := rfl
@[simp] theorem State.writeTxbuf_rxrdy (w : Word) : (s.writeTxbuf w).rxrdy = s.rxrdy := rfl
@[simp] theorem State.writeTxbuf_fe (w : Word) : (s.writeTxbuf w).fe = s.fe := rfl
@[simp] theorem State.writeTxbuf_oe (w : Word) : (s.writeTxbuf w).oe = s.oe := rfl
@[simp] theorem State.writeTxbuf_cfg (w : Word) : (s.writeTxbuf w).cfg = s.cfg := rfl
@[simp] theorem State.writeTxbuf_swrst (w : Word) : (s.writeTxbuf w).swrst = s.swrst := rfl
@[simp] theorem State.writeTxbuf_prescaler (w : Word) : (s.writeTxbuf w).prescaler = s.prescaler := rfl
@[simp] theorem State.writeTxbuf_busReady (w : Word) : (s.writeTxbuf w).busReady = s.busReady := rfl
@[simp] theorem State.writeTxbuf_cfgCur (w : Word) : (s.writeTxbuf w).cfgCur = s.cfgCur := rfl
@[simp] theorem State.writeTxbuf_power (w : Word) : (s.writeTxbuf w).power = s.power := rfl
@[simp] theorem State.writeTxbuf_sclk (w : Word) : (s.writeTxbuf w).sclk = s.sclk := rfl
@[simp] theorem State.writeTxbuf_mosi (w : Word) : (s.writeTxbuf w).mosi = s.mosi := rfl
@[simp] theorem State.writeTxbuf_cs (w : Word) : (s.writeTxbuf w).cs = s.cs := rfl
@[simp] theorem State.writeTxbuf_payloadEn (w : Word) : (s.writeTxbuf w).payloadEn = s.payloadEn := rfl
@[simp] theorem State.writeTxbuf_heaterEn (w : Word) : (s.writeTxbuf w).heaterEn = s.heaterEn := rfl
@[simp] theorem State.writeTxbuf_relay0 (w : Word) : (s.writeTxbuf w).relay0 = s.relay0 := rfl
@[simp] theorem State.writeTxbuf_relay1 (w : Word) : (s.writeTxbuf w).relay1 = s.relay1 := rfl
@[simp] theorem State.writeTxbuf_trace (w : Word) : (s.writeTxbuf w).trace = s.trace := rfl
@[simp] theorem State.writeTxbuf_misoIn (w : Word) : (s.writeTxbuf w).misoIn = s.misoIn := rfl
@[simp] theorem State.writeTxbuf_misoDraws (w : Word) : (s.writeTxbuf w).misoDraws = s.misoDraws := rfl
@[simp] theorem State.writeTxbuf_errIn (w : Word) : (s.writeTxbuf w).errIn = s.errIn := rfl
@[simp] theorem State.writeTxbuf_errDraws (w : Word) : (s.writeTxbuf w).errDraws = s.errDraws := rfl

/-! ### `State.takeTxbuf` -/

@[simp] theorem State.takeTxbuf_board : (s.takeTxbuf).board = s.board := rfl
@[simp] theorem State.takeTxbuf_script : (s.takeTxbuf).script = s.script := rfl
@[simp] theorem State.takeTxbuf_opstate : (s.takeTxbuf).opstate = s.opstate := rfl
@[simp] theorem State.takeTxbuf_completion : (s.takeTxbuf).completion = s.completion := rfl
@[simp] theorem State.takeTxbuf_constructed : (s.takeTxbuf).constructed = s.constructed := rfl
@[simp] theorem State.takeTxbuf_sr : (s.takeTxbuf).sr = s.sr := rfl
@[simp] theorem State.takeTxbuf_txbuf : (s.takeTxbuf).txbuf = s.txbuf := rfl
@[simp] theorem State.takeTxbuf_rxbuf : (s.takeTxbuf).rxbuf = s.rxbuf := rfl
@[simp] theorem State.takeTxbuf_txrdy : (s.takeTxbuf).txrdy = true := rfl
@[simp] theorem State.takeTxbuf_rxrdy : (s.takeTxbuf).rxrdy = s.rxrdy := rfl
@[simp] theorem State.takeTxbuf_fe : (s.takeTxbuf).fe = s.fe := rfl
@[simp] theorem State.takeTxbuf_oe : (s.takeTxbuf).oe = s.oe := rfl
@[simp] theorem State.takeTxbuf_cfg : (s.takeTxbuf).cfg = s.cfg := rfl
@[simp] theorem State.takeTxbuf_swrst : (s.takeTxbuf).swrst = s.swrst := rfl
@[simp] theorem State.takeTxbuf_prescaler : (s.takeTxbuf).prescaler = s.prescaler := rfl
@[simp] theorem State.takeTxbuf_busReady : (s.takeTxbuf).busReady = s.busReady := rfl
@[simp] theorem State.takeTxbuf_cfgCur : (s.takeTxbuf).cfgCur = s.cfgCur := rfl
@[simp] theorem State.takeTxbuf_power : (s.takeTxbuf).power = s.power := rfl
@[simp] theorem State.takeTxbuf_sclk : (s.takeTxbuf).sclk = s.sclk := rfl
@[simp] theorem State.takeTxbuf_mosi : (s.takeTxbuf).mosi = s.mosi := rfl
@[simp] theorem State.takeTxbuf_cs : (s.takeTxbuf).cs = s.cs := rfl
@[simp] theorem State.takeTxbuf_payloadEn : (s.takeTxbuf).payloadEn = s.payloadEn := rfl
@[simp] theorem State.takeTxbuf_heaterEn : (s.takeTxbuf).heaterEn = s.heaterEn := rfl
@[simp] theorem State.takeTxbuf_relay0 : (s.takeTxbuf).relay0 = s.relay0 := rfl
@[simp] theorem State.takeTxbuf_relay1 : (s.takeTxbuf).relay1 = s.relay1 := rfl
@[simp] theorem State.takeTxbuf_trace : (s.takeTxbuf).trace = s.trace := rfl
@[simp] theorem State.takeTxbuf_misoIn : (s.takeTxbuf).misoIn = s.misoIn := rfl
@[simp] theorem State.takeTxbuf_misoDraws : (s.takeTxbuf).misoDraws = s.misoDraws := rfl
@[simp] theorem State.takeTxbuf_errIn : (s.takeTxbuf).errIn = s.errIn := rfl
@[simp] theorem State.takeTxbuf_errDraws : (s.takeTxbuf).errDraws = s.errDraws := rfl

/-! ### `State.deliver` -/

@[simp] theorem State.deliver_board : (s.deliver).board = s.board := rfl
@[simp] theorem State.deliver_script : (s.deliver).script = s.script := rfl
@[simp] theorem State.deliver_opstate : (s.deliver).opstate = s.opstate := rfl
@[simp] theorem State.deliver_completion : (s.deliver).completion = s.completion := rfl
@[simp] theorem State.deliver_constructed : (s.deliver).constructed = s.constructed := rfl
@[simp] theorem State.deliver_sr : (s.deliver).sr = s.sr := rfl
@[simp] theorem State.deliver_txbuf : (s.deliver).txbuf = s.txbuf := rfl
@[simp] theorem State.deliver_rxbuf : (s.deliver).rxbuf = Reg.written s.sr.val.rx := rfl
@[simp] theorem State.deliver_txrdy : (s.deliver).txrdy = s.txrdy := rfl
@[simp] theorem State.deliver_rxrdy : (s.deliver).rxrdy = true := rfl
@[simp] theorem State.deliver_fe : (s.deliver).fe = s.fe := rfl
@[simp] theorem State.deliver_oe : (s.deliver).oe = (s.oe || s.rxrdy) := rfl
@[simp] theorem State.deliver_cfg : (s.deliver).cfg = s.cfg := rfl
@[simp] theorem State.deliver_swrst : (s.deliver).swrst = s.swrst := rfl
@[simp] theorem State.deliver_prescaler : (s.deliver).prescaler = s.prescaler := rfl
@[simp] theorem State.deliver_busReady : (s.deliver).busReady = s.busReady := rfl
@[simp] theorem State.deliver_cfgCur : (s.deliver).cfgCur = s.cfgCur := rfl
@[simp] theorem State.deliver_power : (s.deliver).power = s.power := rfl
@[simp] theorem State.deliver_sclk : (s.deliver).sclk = s.sclk := rfl
@[simp] theorem State.deliver_mosi : (s.deliver).mosi = s.mosi := rfl
@[simp] theorem State.deliver_cs : (s.deliver).cs = s.cs := rfl
@[simp] theorem State.deliver_payloadEn : (s.deliver).payloadEn = s.payloadEn := rfl
@[simp] theorem State.deliver_heaterEn : (s.deliver).heaterEn = s.heaterEn := rfl
@[simp] theorem State.deliver_relay0 : (s.deliver).relay0 = s.relay0 := rfl
@[simp] theorem State.deliver_relay1 : (s.deliver).relay1 = s.relay1 := rfl
@[simp] theorem State.deliver_trace : (s.deliver).trace = s.trace := rfl
@[simp] theorem State.deliver_misoIn : (s.deliver).misoIn = s.misoIn := rfl
@[simp] theorem State.deliver_misoDraws : (s.deliver).misoDraws = s.misoDraws := rfl
@[simp] theorem State.deliver_errIn : (s.deliver).errIn = s.errIn := rfl
@[simp] theorem State.deliver_errDraws : (s.deliver).errDraws = s.errDraws := rfl

/-! ### `State.orErrors` -/

@[simp] theorem State.orErrors_board (e : Bool × Bool) : (s.orErrors e).board = s.board := rfl
@[simp] theorem State.orErrors_script (e : Bool × Bool) : (s.orErrors e).script = s.script := rfl
@[simp] theorem State.orErrors_opstate (e : Bool × Bool) : (s.orErrors e).opstate = s.opstate := rfl
@[simp] theorem State.orErrors_completion (e : Bool × Bool) : (s.orErrors e).completion = s.completion := rfl
@[simp] theorem State.orErrors_constructed (e : Bool × Bool) : (s.orErrors e).constructed = s.constructed := rfl
@[simp] theorem State.orErrors_sr (e : Bool × Bool) : (s.orErrors e).sr = s.sr := rfl
@[simp] theorem State.orErrors_txbuf (e : Bool × Bool) : (s.orErrors e).txbuf = s.txbuf := rfl
@[simp] theorem State.orErrors_rxbuf (e : Bool × Bool) : (s.orErrors e).rxbuf = s.rxbuf := rfl
@[simp] theorem State.orErrors_txrdy (e : Bool × Bool) : (s.orErrors e).txrdy = s.txrdy := rfl
@[simp] theorem State.orErrors_rxrdy (e : Bool × Bool) : (s.orErrors e).rxrdy = s.rxrdy := rfl
@[simp] theorem State.orErrors_fe (e : Bool × Bool) : (s.orErrors e).fe = (s.fe || e.1) := rfl
@[simp] theorem State.orErrors_oe (e : Bool × Bool) : (s.orErrors e).oe = (s.oe || e.2) := rfl
@[simp] theorem State.orErrors_cfg (e : Bool × Bool) : (s.orErrors e).cfg = s.cfg := rfl
@[simp] theorem State.orErrors_swrst (e : Bool × Bool) : (s.orErrors e).swrst = s.swrst := rfl
@[simp] theorem State.orErrors_prescaler (e : Bool × Bool) : (s.orErrors e).prescaler = s.prescaler := rfl
@[simp] theorem State.orErrors_busReady (e : Bool × Bool) : (s.orErrors e).busReady = s.busReady := rfl
@[simp] theorem State.orErrors_cfgCur (e : Bool × Bool) : (s.orErrors e).cfgCur = s.cfgCur := rfl
@[simp] theorem State.orErrors_power (e : Bool × Bool) : (s.orErrors e).power = s.power := rfl
@[simp] theorem State.orErrors_sclk (e : Bool × Bool) : (s.orErrors e).sclk = s.sclk := rfl
@[simp] theorem State.orErrors_mosi (e : Bool × Bool) : (s.orErrors e).mosi = s.mosi := rfl
@[simp] theorem State.orErrors_cs (e : Bool × Bool) : (s.orErrors e).cs = s.cs := rfl
@[simp] theorem State.orErrors_payloadEn (e : Bool × Bool) : (s.orErrors e).payloadEn = s.payloadEn := rfl
@[simp] theorem State.orErrors_heaterEn (e : Bool × Bool) : (s.orErrors e).heaterEn = s.heaterEn := rfl
@[simp] theorem State.orErrors_relay0 (e : Bool × Bool) : (s.orErrors e).relay0 = s.relay0 := rfl
@[simp] theorem State.orErrors_relay1 (e : Bool × Bool) : (s.orErrors e).relay1 = s.relay1 := rfl
@[simp] theorem State.orErrors_trace (e : Bool × Bool) : (s.orErrors e).trace = s.trace := rfl
@[simp] theorem State.orErrors_misoIn (e : Bool × Bool) : (s.orErrors e).misoIn = s.misoIn := rfl
@[simp] theorem State.orErrors_misoDraws (e : Bool × Bool) : (s.orErrors e).misoDraws = s.misoDraws := rfl
@[simp] theorem State.orErrors_errIn (e : Bool × Bool) : (s.orErrors e).errIn = s.errIn := rfl
@[simp] theorem State.orErrors_errDraws (e : Bool × Bool) : (s.orErrors e).errDraws = s.errDraws := rfl

/-! ### `State.clearOnRead` -/

@[simp] theorem State.clearOnRead_board : (s.clearOnRead).board = s.board := rfl
@[simp] theorem State.clearOnRead_script : (s.clearOnRead).script = s.script := rfl
@[simp] theorem State.clearOnRead_opstate : (s.clearOnRead).opstate = s.opstate := rfl
@[simp] theorem State.clearOnRead_completion : (s.clearOnRead).completion = s.completion := rfl
@[simp] theorem State.clearOnRead_constructed : (s.clearOnRead).constructed = s.constructed := rfl
@[simp] theorem State.clearOnRead_sr : (s.clearOnRead).sr = s.sr := rfl
@[simp] theorem State.clearOnRead_txbuf : (s.clearOnRead).txbuf = s.txbuf := rfl
@[simp] theorem State.clearOnRead_rxbuf : (s.clearOnRead).rxbuf = s.rxbuf := rfl
@[simp] theorem State.clearOnRead_txrdy : (s.clearOnRead).txrdy = s.txrdy := rfl
@[simp] theorem State.clearOnRead_rxrdy : (s.clearOnRead).rxrdy = false := rfl
@[simp] theorem State.clearOnRead_fe : (s.clearOnRead).fe = false := rfl
@[simp] theorem State.clearOnRead_oe : (s.clearOnRead).oe = false := rfl
@[simp] theorem State.clearOnRead_cfg : (s.clearOnRead).cfg = s.cfg := rfl
@[simp] theorem State.clearOnRead_swrst : (s.clearOnRead).swrst = s.swrst := rfl
@[simp] theorem State.clearOnRead_prescaler : (s.clearOnRead).prescaler = s.prescaler := rfl
@[simp] theorem State.clearOnRead_busReady : (s.clearOnRead).busReady = s.busReady := rfl
@[simp] theorem State.clearOnRead_cfgCur : (s.clearOnRead).cfgCur = s.cfgCur := rfl
@[simp] theorem State.clearOnRead_power : (s.clearOnRead).power = s.power := rfl
@[simp] theorem State.clearOnRead_sclk : (s.clearOnRead).sclk = s.sclk := rfl
@[simp] theorem State.clearOnRead_mosi : (s.clearOnRead).mosi = s.mosi := rfl
@[simp] theorem State.clearOnRead_cs : (s.clearOnRead).cs = s.cs := rfl
@[simp] theorem State.clearOnRead_payloadEn : (s.clearOnRead).payloadEn = s.payloadEn := rfl
@[simp] theorem State.clearOnRead_heaterEn : (s.clearOnRead).heaterEn = s.heaterEn := rfl
@[simp] theorem State.clearOnRead_relay0 : (s.clearOnRead).relay0 = s.relay0 := rfl
@[simp] theorem State.clearOnRead_relay1 : (s.clearOnRead).relay1 = s.relay1 := rfl
@[simp] theorem State.clearOnRead_trace : (s.clearOnRead).trace = s.trace := rfl
@[simp] theorem State.clearOnRead_misoIn : (s.clearOnRead).misoIn = s.misoIn := rfl
@[simp] theorem State.clearOnRead_misoDraws : (s.clearOnRead).misoDraws = s.misoDraws := rfl
@[simp] theorem State.clearOnRead_errIn : (s.clearOnRead).errIn = s.errIn := rfl
@[simp] theorem State.clearOnRead_errDraws : (s.clearOnRead).errDraws = s.errDraws := rfl

/-! ### `State.begin` -/

@[simp] theorem State.begin_board (i : Instr) : (s.begin i).board = s.board := rfl
@[simp] theorem State.begin_script (i : Instr) : (s.begin i).script = s.script := rfl
@[simp] theorem State.begin_opstate (i : Instr) : (s.begin i).opstate = .busy i ⟨0, 0⟩ := rfl
@[simp] theorem State.begin_completion (i : Instr) : (s.begin i).completion = s.completion := rfl
@[simp] theorem State.begin_constructed (i : Instr) : (s.begin i).constructed = s.constructed := rfl
@[simp] theorem State.begin_sr (i : Instr) : (s.begin i).sr = s.sr := rfl
@[simp] theorem State.begin_txbuf (i : Instr) : (s.begin i).txbuf = s.txbuf := rfl
@[simp] theorem State.begin_rxbuf (i : Instr) : (s.begin i).rxbuf = s.rxbuf := rfl
@[simp] theorem State.begin_txrdy (i : Instr) : (s.begin i).txrdy = s.txrdy := rfl
@[simp] theorem State.begin_rxrdy (i : Instr) : (s.begin i).rxrdy = s.rxrdy := rfl
@[simp] theorem State.begin_fe (i : Instr) : (s.begin i).fe = s.fe := rfl
@[simp] theorem State.begin_oe (i : Instr) : (s.begin i).oe = s.oe := rfl
@[simp] theorem State.begin_cfg (i : Instr) : (s.begin i).cfg = s.cfg := rfl
@[simp] theorem State.begin_swrst (i : Instr) : (s.begin i).swrst = s.swrst := rfl
@[simp] theorem State.begin_prescaler (i : Instr) : (s.begin i).prescaler = s.prescaler := rfl
@[simp] theorem State.begin_busReady (i : Instr) : (s.begin i).busReady = s.busReady := rfl
@[simp] theorem State.begin_cfgCur (i : Instr) : (s.begin i).cfgCur = s.cfgCur := rfl
@[simp] theorem State.begin_power (i : Instr) : (s.begin i).power = s.power := rfl
@[simp] theorem State.begin_sclk (i : Instr) : (s.begin i).sclk = s.sclk := rfl
@[simp] theorem State.begin_mosi (i : Instr) : (s.begin i).mosi = s.mosi := rfl
@[simp] theorem State.begin_cs (i : Instr) : (s.begin i).cs = s.cs := rfl
@[simp] theorem State.begin_payloadEn (i : Instr) : (s.begin i).payloadEn = s.payloadEn := rfl
@[simp] theorem State.begin_heaterEn (i : Instr) : (s.begin i).heaterEn = s.heaterEn := rfl
@[simp] theorem State.begin_relay0 (i : Instr) : (s.begin i).relay0 = s.relay0 := rfl
@[simp] theorem State.begin_relay1 (i : Instr) : (s.begin i).relay1 = s.relay1 := rfl
@[simp] theorem State.begin_trace (i : Instr) : (s.begin i).trace = s.trace := rfl
@[simp] theorem State.begin_misoIn (i : Instr) : (s.begin i).misoIn = s.misoIn := rfl
@[simp] theorem State.begin_misoDraws (i : Instr) : (s.begin i).misoDraws = s.misoDraws := rfl
@[simp] theorem State.begin_errIn (i : Instr) : (s.begin i).errIn = s.errIn := rfl
@[simp] theorem State.begin_errDraws (i : Instr) : (s.begin i).errDraws = s.errDraws := rfl

/-! ### `State.finish` -/

@[simp] theorem State.finish_board (r : Result) : (s.finish r).board = s.board := rfl
@[simp] theorem State.finish_script (r : Result) : (s.finish r).script = s.script := rfl
@[simp] theorem State.finish_opstate (r : Result) : (s.finish r).opstate = .idle := rfl
@[simp] theorem State.finish_completion (r : Result) : (s.finish r).completion = some (.done r) := rfl
@[simp] theorem State.finish_constructed (r : Result) : (s.finish r).constructed = s.constructed := rfl
@[simp] theorem State.finish_sr (r : Result) : (s.finish r).sr = s.sr := rfl
@[simp] theorem State.finish_txbuf (r : Result) : (s.finish r).txbuf = s.txbuf := rfl
@[simp] theorem State.finish_rxbuf (r : Result) : (s.finish r).rxbuf = s.rxbuf := rfl
@[simp] theorem State.finish_txrdy (r : Result) : (s.finish r).txrdy = s.txrdy := rfl
@[simp] theorem State.finish_rxrdy (r : Result) : (s.finish r).rxrdy = s.rxrdy := rfl
@[simp] theorem State.finish_fe (r : Result) : (s.finish r).fe = s.fe := rfl
@[simp] theorem State.finish_oe (r : Result) : (s.finish r).oe = s.oe := rfl
@[simp] theorem State.finish_cfg (r : Result) : (s.finish r).cfg = s.cfg := rfl
@[simp] theorem State.finish_swrst (r : Result) : (s.finish r).swrst = s.swrst := rfl
@[simp] theorem State.finish_prescaler (r : Result) : (s.finish r).prescaler = s.prescaler := rfl
@[simp] theorem State.finish_busReady (r : Result) : (s.finish r).busReady = s.busReady := rfl
@[simp] theorem State.finish_cfgCur (r : Result) : (s.finish r).cfgCur = s.cfgCur := rfl
@[simp] theorem State.finish_power (r : Result) : (s.finish r).power = s.power := rfl
@[simp] theorem State.finish_sclk (r : Result) : (s.finish r).sclk = s.sclk := rfl
@[simp] theorem State.finish_mosi (r : Result) : (s.finish r).mosi = s.mosi := rfl
@[simp] theorem State.finish_cs (r : Result) : (s.finish r).cs = s.cs := rfl
@[simp] theorem State.finish_payloadEn (r : Result) : (s.finish r).payloadEn = s.payloadEn := rfl
@[simp] theorem State.finish_heaterEn (r : Result) : (s.finish r).heaterEn = s.heaterEn := rfl
@[simp] theorem State.finish_relay0 (r : Result) : (s.finish r).relay0 = s.relay0 := rfl
@[simp] theorem State.finish_relay1 (r : Result) : (s.finish r).relay1 = s.relay1 := rfl
@[simp] theorem State.finish_trace (r : Result) : (s.finish r).trace = s.trace := rfl
@[simp] theorem State.finish_misoIn (r : Result) : (s.finish r).misoIn = s.misoIn := rfl
@[simp] theorem State.finish_misoDraws (r : Result) : (s.finish r).misoDraws = s.misoDraws := rfl
@[simp] theorem State.finish_errIn (r : Result) : (s.finish r).errIn = s.errIn := rfl
@[simp] theorem State.finish_errDraws (r : Result) : (s.finish r).errDraws = s.errDraws := rfl

/-! ### `State.takeError` -/

@[simp] theorem State.takeError_board (e : BusError) : (s.takeError e).board = s.board := rfl
@[simp] theorem State.takeError_script (e : BusError) : (s.takeError e).script = s.script := rfl
@[simp] theorem State.takeError_opstate (e : BusError) : (s.takeError e).opstate = .idle := rfl
@[simp] theorem State.takeError_completion (e : BusError) : (s.takeError e).completion = some (.raised e) := rfl
@[simp] theorem State.takeError_constructed (e : BusError) : (s.takeError e).constructed = s.constructed := rfl
@[simp] theorem State.takeError_sr (e : BusError) : (s.takeError e).sr = s.sr := rfl
@[simp] theorem State.takeError_txbuf (e : BusError) : (s.takeError e).txbuf = s.txbuf := rfl
@[simp] theorem State.takeError_rxbuf (e : BusError) : (s.takeError e).rxbuf = s.rxbuf := rfl
@[simp] theorem State.takeError_txrdy (e : BusError) : (s.takeError e).txrdy = s.txrdy := rfl
@[simp] theorem State.takeError_rxrdy (e : BusError) : (s.takeError e).rxrdy = s.rxrdy := rfl
@[simp] theorem State.takeError_fe (e : BusError) : (s.takeError e).fe = s.fe := rfl
@[simp] theorem State.takeError_oe (e : BusError) : (s.takeError e).oe = s.oe := rfl
@[simp] theorem State.takeError_cfg (e : BusError) : (s.takeError e).cfg = s.cfg := rfl
@[simp] theorem State.takeError_swrst (e : BusError) : (s.takeError e).swrst = s.swrst := rfl
@[simp] theorem State.takeError_prescaler (e : BusError) : (s.takeError e).prescaler = s.prescaler := rfl
@[simp] theorem State.takeError_busReady (e : BusError) : (s.takeError e).busReady = s.busReady := rfl
@[simp] theorem State.takeError_cfgCur (e : BusError) : (s.takeError e).cfgCur = s.cfgCur := rfl
@[simp] theorem State.takeError_power (e : BusError) : (s.takeError e).power = s.power := rfl
@[simp] theorem State.takeError_sclk (e : BusError) : (s.takeError e).sclk = s.sclk := rfl
@[simp] theorem State.takeError_mosi (e : BusError) : (s.takeError e).mosi = s.mosi := rfl
@[simp] theorem State.takeError_cs (e : BusError) : (s.takeError e).cs = s.cs := rfl
@[simp] theorem State.takeError_payloadEn (e : BusError) : (s.takeError e).payloadEn = s.payloadEn := rfl
@[simp] theorem State.takeError_heaterEn (e : BusError) : (s.takeError e).heaterEn = s.heaterEn := rfl
@[simp] theorem State.takeError_relay0 (e : BusError) : (s.takeError e).relay0 = s.relay0 := rfl
@[simp] theorem State.takeError_relay1 (e : BusError) : (s.takeError e).relay1 = s.relay1 := rfl
@[simp] theorem State.takeError_trace (e : BusError) : (s.takeError e).trace = s.trace := rfl
@[simp] theorem State.takeError_misoIn (e : BusError) : (s.takeError e).misoIn = s.misoIn := rfl
@[simp] theorem State.takeError_misoDraws (e : BusError) : (s.takeError e).misoDraws = s.misoDraws := rfl
@[simp] theorem State.takeError_errIn (e : BusError) : (s.takeError e).errIn = s.errIn := rfl
@[simp] theorem State.takeError_errDraws (e : BusError) : (s.takeError e).errDraws = s.errDraws := rfl

/-! ### `State.misoAdvance` -/

@[simp] theorem State.misoAdvance_board : s.misoAdvance.board = s.board := by
  unfold State.misoAdvance; split <;> simp [*]
@[simp] theorem State.misoAdvance_script : s.misoAdvance.script = s.script := by
  unfold State.misoAdvance; split <;> simp [*]
@[simp] theorem State.misoAdvance_opstate : s.misoAdvance.opstate = s.opstate := by
  unfold State.misoAdvance; split <;> simp [*]
@[simp] theorem State.misoAdvance_completion : s.misoAdvance.completion = s.completion := by
  unfold State.misoAdvance; split <;> simp [*]
@[simp] theorem State.misoAdvance_constructed : s.misoAdvance.constructed = s.constructed := by
  unfold State.misoAdvance; split <;> simp [*]
@[simp] theorem State.misoAdvance_sr : s.misoAdvance.sr = s.sr := by
  unfold State.misoAdvance; split <;> simp [*]
@[simp] theorem State.misoAdvance_txbuf : s.misoAdvance.txbuf = s.txbuf := by
  unfold State.misoAdvance; split <;> simp [*]
@[simp] theorem State.misoAdvance_rxbuf : s.misoAdvance.rxbuf = s.rxbuf := by
  unfold State.misoAdvance; split <;> simp [*]
@[simp] theorem State.misoAdvance_txrdy : s.misoAdvance.txrdy = s.txrdy := by
  unfold State.misoAdvance; split <;> simp [*]
@[simp] theorem State.misoAdvance_rxrdy : s.misoAdvance.rxrdy = s.rxrdy := by
  unfold State.misoAdvance; split <;> simp [*]
@[simp] theorem State.misoAdvance_fe : s.misoAdvance.fe = s.fe := by
  unfold State.misoAdvance; split <;> simp [*]
@[simp] theorem State.misoAdvance_oe : s.misoAdvance.oe = s.oe := by
  unfold State.misoAdvance; split <;> simp [*]
@[simp] theorem State.misoAdvance_cfg : s.misoAdvance.cfg = s.cfg := by
  unfold State.misoAdvance; split <;> simp [*]
@[simp] theorem State.misoAdvance_swrst : s.misoAdvance.swrst = s.swrst := by
  unfold State.misoAdvance; split <;> simp [*]
@[simp] theorem State.misoAdvance_prescaler : s.misoAdvance.prescaler = s.prescaler := by
  unfold State.misoAdvance; split <;> simp [*]
@[simp] theorem State.misoAdvance_busReady : s.misoAdvance.busReady = s.busReady := by
  unfold State.misoAdvance; split <;> simp [*]
@[simp] theorem State.misoAdvance_cfgCur : s.misoAdvance.cfgCur = s.cfgCur := by
  unfold State.misoAdvance; split <;> simp [*]
@[simp] theorem State.misoAdvance_power : s.misoAdvance.power = s.power := by
  unfold State.misoAdvance; split <;> simp [*]
@[simp] theorem State.misoAdvance_sclk : s.misoAdvance.sclk = s.sclk := by
  unfold State.misoAdvance; split <;> simp [*]
@[simp] theorem State.misoAdvance_mosi : s.misoAdvance.mosi = s.mosi := by
  unfold State.misoAdvance; split <;> simp [*]
@[simp] theorem State.misoAdvance_cs : s.misoAdvance.cs = s.cs := by
  unfold State.misoAdvance; split <;> simp [*]
@[simp] theorem State.misoAdvance_payloadEn : s.misoAdvance.payloadEn = s.payloadEn := by
  unfold State.misoAdvance; split <;> simp [*]
@[simp] theorem State.misoAdvance_heaterEn : s.misoAdvance.heaterEn = s.heaterEn := by
  unfold State.misoAdvance; split <;> simp [*]
@[simp] theorem State.misoAdvance_relay0 : s.misoAdvance.relay0 = s.relay0 := by
  unfold State.misoAdvance; split <;> simp [*]
@[simp] theorem State.misoAdvance_relay1 : s.misoAdvance.relay1 = s.relay1 := by
  unfold State.misoAdvance; split <;> simp [*]
@[simp] theorem State.misoAdvance_trace : s.misoAdvance.trace = s.trace := by
  unfold State.misoAdvance; split <;> simp [*]
@[simp] theorem State.misoAdvance_misoIn : s.misoAdvance.misoIn = s.misoIn.tail := by
  unfold State.misoAdvance; split <;> simp [*]
@[simp] theorem State.misoAdvance_misoDraws : s.misoAdvance.misoDraws = s.misoDraws + (1 - s.misoIn.length) := by
  unfold State.misoAdvance; split <;> simp [*]
@[simp] theorem State.misoAdvance_errIn : s.misoAdvance.errIn = s.errIn := by
  unfold State.misoAdvance; split <;> simp [*]
@[simp] theorem State.misoAdvance_errDraws : s.misoAdvance.errDraws = s.errDraws := by
  unfold State.misoAdvance; split <;> simp [*]

/-! ### `State.errAdvance` -/

@[simp] theorem State.errAdvance_board : s.errAdvance.board = s.board := by
  unfold State.errAdvance; split <;> simp [*]
@[simp] theorem State.errAdvance_script : s.errAdvance.script = s.script := by
  unfold State.errAdvance; split <;> simp [*]
@[simp] theorem State.errAdvance_opstate : s.errAdvance.opstate = s.opstate := by
  unfold State.errAdvance; split <;> simp [*]
@[simp] theorem State.errAdvance_completion : s.errAdvance.completion = s.completion := by
  unfold State.errAdvance; split <;> simp [*]
@[simp] theorem State.errAdvance_constructed : s.errAdvance.constructed = s.constructed := by
  unfold State.errAdvance; split <;> simp [*]
@[simp] theorem State.errAdvance_sr : s.errAdvance.sr = s.sr := by
  unfold State.errAdvance; split <;> simp [*]
@[simp] theorem State.errAdvance_txbuf : s.errAdvance.txbuf = s.txbuf := by
  unfold State.errAdvance; split <;> simp [*]
@[simp] theorem State.errAdvance_rxbuf : s.errAdvance.rxbuf = s.rxbuf := by
  unfold State.errAdvance; split <;> simp [*]
@[simp] theorem State.errAdvance_txrdy : s.errAdvance.txrdy = s.txrdy := by
  unfold State.errAdvance; split <;> simp [*]
@[simp] theorem State.errAdvance_rxrdy : s.errAdvance.rxrdy = s.rxrdy := by
  unfold State.errAdvance; split <;> simp [*]
@[simp] theorem State.errAdvance_fe : s.errAdvance.fe = s.fe := by
  unfold State.errAdvance; split <;> simp [*]
@[simp] theorem State.errAdvance_oe : s.errAdvance.oe = s.oe := by
  unfold State.errAdvance; split <;> simp [*]
@[simp] theorem State.errAdvance_cfg : s.errAdvance.cfg = s.cfg := by
  unfold State.errAdvance; split <;> simp [*]
@[simp] theorem State.errAdvance_swrst : s.errAdvance.swrst = s.swrst := by
  unfold State.errAdvance; split <;> simp [*]
@[simp] theorem State.errAdvance_prescaler : s.errAdvance.prescaler = s.prescaler := by
  unfold State.errAdvance; split <;> simp [*]
@[simp] theorem State.errAdvance_busReady : s.errAdvance.busReady = s.busReady := by
  unfold State.errAdvance; split <;> simp [*]
@[simp] theorem State.errAdvance_cfgCur : s.errAdvance.cfgCur = s.cfgCur := by
  unfold State.errAdvance; split <;> simp [*]
@[simp] theorem State.errAdvance_power : s.errAdvance.power = s.power := by
  unfold State.errAdvance; split <;> simp [*]
@[simp] theorem State.errAdvance_sclk : s.errAdvance.sclk = s.sclk := by
  unfold State.errAdvance; split <;> simp [*]
@[simp] theorem State.errAdvance_mosi : s.errAdvance.mosi = s.mosi := by
  unfold State.errAdvance; split <;> simp [*]
@[simp] theorem State.errAdvance_cs : s.errAdvance.cs = s.cs := by
  unfold State.errAdvance; split <;> simp [*]
@[simp] theorem State.errAdvance_payloadEn : s.errAdvance.payloadEn = s.payloadEn := by
  unfold State.errAdvance; split <;> simp [*]
@[simp] theorem State.errAdvance_heaterEn : s.errAdvance.heaterEn = s.heaterEn := by
  unfold State.errAdvance; split <;> simp [*]
@[simp] theorem State.errAdvance_relay0 : s.errAdvance.relay0 = s.relay0 := by
  unfold State.errAdvance; split <;> simp [*]
@[simp] theorem State.errAdvance_relay1 : s.errAdvance.relay1 = s.relay1 := by
  unfold State.errAdvance; split <;> simp [*]
@[simp] theorem State.errAdvance_trace : s.errAdvance.trace = s.trace := by
  unfold State.errAdvance; split <;> simp [*]
@[simp] theorem State.errAdvance_misoIn : s.errAdvance.misoIn = s.misoIn := by
  unfold State.errAdvance; split <;> simp [*]
@[simp] theorem State.errAdvance_misoDraws : s.errAdvance.misoDraws = s.misoDraws := by
  unfold State.errAdvance; split <;> simp [*]
@[simp] theorem State.errAdvance_errIn : s.errAdvance.errIn = s.errIn.tail := by
  unfold State.errAdvance; split <;> simp [*]
@[simp] theorem State.errAdvance_errDraws : s.errAdvance.errDraws = s.errDraws + (1 - s.errIn.length) := by
  unfold State.errAdvance; split <;> simp [*]

/-! ### `State.pinWrite` -/

@[simp] theorem State.pinWrite_board (l : Line) (v : Level) : (s.pinWrite l v).board = s.board := by cases l <;> rfl
@[simp] theorem State.pinWrite_script (l : Line) (v : Level) : (s.pinWrite l v).script = s.script := by cases l <;> rfl
@[simp] theorem State.pinWrite_opstate (l : Line) (v : Level) : (s.pinWrite l v).opstate = s.opstate := by cases l <;> rfl
@[simp] theorem State.pinWrite_completion (l : Line) (v : Level) : (s.pinWrite l v).completion = s.completion := by cases l <;> rfl
@[simp] theorem State.pinWrite_constructed (l : Line) (v : Level) : (s.pinWrite l v).constructed = s.constructed := by cases l <;> rfl
@[simp] theorem State.pinWrite_sr (l : Line) (v : Level) : (s.pinWrite l v).sr = s.sr := by cases l <;> rfl
@[simp] theorem State.pinWrite_txbuf (l : Line) (v : Level) : (s.pinWrite l v).txbuf = s.txbuf := by cases l <;> rfl
@[simp] theorem State.pinWrite_rxbuf (l : Line) (v : Level) : (s.pinWrite l v).rxbuf = s.rxbuf := by cases l <;> rfl
@[simp] theorem State.pinWrite_txrdy (l : Line) (v : Level) : (s.pinWrite l v).txrdy = s.txrdy := by cases l <;> rfl
@[simp] theorem State.pinWrite_rxrdy (l : Line) (v : Level) : (s.pinWrite l v).rxrdy = s.rxrdy := by cases l <;> rfl
@[simp] theorem State.pinWrite_fe (l : Line) (v : Level) : (s.pinWrite l v).fe = s.fe := by cases l <;> rfl
@[simp] theorem State.pinWrite_oe (l : Line) (v : Level) : (s.pinWrite l v).oe = s.oe := by cases l <;> rfl
@[simp] theorem State.pinWrite_cfg (l : Line) (v : Level) : (s.pinWrite l v).cfg = s.cfg := by cases l <;> rfl
@[simp] theorem State.pinWrite_swrst (l : Line) (v : Level) : (s.pinWrite l v).swrst = s.swrst := by cases l <;> rfl
@[simp] theorem State.pinWrite_prescaler (l : Line) (v : Level) : (s.pinWrite l v).prescaler = s.prescaler := by cases l <;> rfl
@[simp] theorem State.pinWrite_busReady (l : Line) (v : Level) : (s.pinWrite l v).busReady = s.busReady := by cases l <;> rfl
@[simp] theorem State.pinWrite_cfgCur (l : Line) (v : Level) : (s.pinWrite l v).cfgCur = s.cfgCur := by cases l <;> rfl
@[simp] theorem State.pinWrite_power (l : Line) (v : Level) : (s.pinWrite l v).power = s.power := by cases l <;> rfl
@[simp] theorem State.pinWrite_trace (l : Line) (v : Level) : (s.pinWrite l v).trace = s.trace ++ [.pin l v] := by cases l <;> rfl
@[simp] theorem State.pinWrite_misoIn (l : Line) (v : Level) : (s.pinWrite l v).misoIn = s.misoIn := by cases l <;> rfl
@[simp] theorem State.pinWrite_misoDraws (l : Line) (v : Level) : (s.pinWrite l v).misoDraws = s.misoDraws := by cases l <;> rfl
@[simp] theorem State.pinWrite_errIn (l : Line) (v : Level) : (s.pinWrite l v).errIn = s.errIn := by cases l <;> rfl
@[simp] theorem State.pinWrite_errDraws (l : Line) (v : Level) : (s.pinWrite l v).errDraws = s.errDraws := by cases l <;> rfl
@[simp] theorem State.pinWrite_sclk_sclk (v : Level) : (s.pinWrite (.sclk) v).sclk = Reg.written v := rfl
@[simp] theorem State.pinWrite_sclk_mosi (v : Level) : (s.pinWrite (.sclk) v).mosi = s.mosi := rfl
@[simp] theorem State.pinWrite_sclk_cs (v : Level) : (s.pinWrite (.sclk) v).cs = s.cs := rfl
@[simp] theorem State.pinWrite_sclk_payloadEn (v : Level) : (s.pinWrite (.sclk) v).payloadEn = s.payloadEn := rfl
@[simp] theorem State.pinWrite_sclk_heaterEn (v : Level) : (s.pinWrite (.sclk) v).heaterEn = s.heaterEn := rfl
@[simp] theorem State.pinWrite_sclk_relay0 (v : Level) : (s.pinWrite (.sclk) v).relay0 = s.relay0 := rfl
@[simp] theorem State.pinWrite_sclk_relay1 (v : Level) : (s.pinWrite (.sclk) v).relay1 = s.relay1 := rfl
@[simp] theorem State.pinWrite_mosi_sclk (v : Level) : (s.pinWrite (.mosi) v).sclk = s.sclk := rfl
@[simp] theorem State.pinWrite_mosi_mosi (v : Level) : (s.pinWrite (.mosi) v).mosi = Reg.written v := rfl
@[simp] theorem State.pinWrite_mosi_cs (v : Level) : (s.pinWrite (.mosi) v).cs = s.cs := rfl
@[simp] theorem State.pinWrite_mosi_payloadEn (v : Level) : (s.pinWrite (.mosi) v).payloadEn = s.payloadEn := rfl
@[simp] theorem State.pinWrite_mosi_heaterEn (v : Level) : (s.pinWrite (.mosi) v).heaterEn = s.heaterEn := rfl
@[simp] theorem State.pinWrite_mosi_relay0 (v : Level) : (s.pinWrite (.mosi) v).relay0 = s.relay0 := rfl
@[simp] theorem State.pinWrite_mosi_relay1 (v : Level) : (s.pinWrite (.mosi) v).relay1 = s.relay1 := rfl
@[simp] theorem State.pinWrite_cs_sclk (d : Dev) (v : Level) : (s.pinWrite (.cs d) v).sclk = s.sclk := rfl
@[simp] theorem State.pinWrite_cs_mosi (d : Dev) (v : Level) : (s.pinWrite (.cs d) v).mosi = s.mosi := rfl
@[simp] theorem State.pinWrite_cs_cs (d : Dev) (v : Level) : (s.pinWrite (.cs d) v).cs = setCs d v s.cs := rfl
@[simp] theorem State.pinWrite_cs_payloadEn (d : Dev) (v : Level) : (s.pinWrite (.cs d) v).payloadEn = s.payloadEn := rfl
@[simp] theorem State.pinWrite_cs_heaterEn (d : Dev) (v : Level) : (s.pinWrite (.cs d) v).heaterEn = s.heaterEn := rfl
@[simp] theorem State.pinWrite_cs_relay0 (d : Dev) (v : Level) : (s.pinWrite (.cs d) v).relay0 = s.relay0 := rfl
@[simp] theorem State.pinWrite_cs_relay1 (d : Dev) (v : Level) : (s.pinWrite (.cs d) v).relay1 = s.relay1 := rfl
@[simp] theorem State.pinWrite_payloadEn_sclk (v : Level) : (s.pinWrite (.payloadEn) v).sclk = s.sclk := rfl
@[simp] theorem State.pinWrite_payloadEn_mosi (v : Level) : (s.pinWrite (.payloadEn) v).mosi = s.mosi := rfl
@[simp] theorem State.pinWrite_payloadEn_cs (v : Level) : (s.pinWrite (.payloadEn) v).cs = s.cs := rfl
@[simp] theorem State.pinWrite_payloadEn_payloadEn (v : Level) : (s.pinWrite (.payloadEn) v).payloadEn = Reg.written v := rfl
@[simp] theorem State.pinWrite_payloadEn_heaterEn (v : Level) : (s.pinWrite (.payloadEn) v).heaterEn = s.heaterEn := rfl
@[simp] theorem State.pinWrite_payloadEn_relay0 (v : Level) : (s.pinWrite (.payloadEn) v).relay0 = s.relay0 := rfl
@[simp] theorem State.pinWrite_payloadEn_relay1 (v : Level) : (s.pinWrite (.payloadEn) v).relay1 = s.relay1 := rfl
@[simp] theorem State.pinWrite_heaterEn_sclk (v : Level) : (s.pinWrite (.heaterEn) v).sclk = s.sclk := rfl
@[simp] theorem State.pinWrite_heaterEn_mosi (v : Level) : (s.pinWrite (.heaterEn) v).mosi = s.mosi := rfl
@[simp] theorem State.pinWrite_heaterEn_cs (v : Level) : (s.pinWrite (.heaterEn) v).cs = s.cs := rfl
@[simp] theorem State.pinWrite_heaterEn_payloadEn (v : Level) : (s.pinWrite (.heaterEn) v).payloadEn = s.payloadEn := rfl
@[simp] theorem State.pinWrite_heaterEn_heaterEn (v : Level) : (s.pinWrite (.heaterEn) v).heaterEn = Reg.written v := rfl
@[simp] theorem State.pinWrite_heaterEn_relay0 (v : Level) : (s.pinWrite (.heaterEn) v).relay0 = s.relay0 := rfl
@[simp] theorem State.pinWrite_heaterEn_relay1 (v : Level) : (s.pinWrite (.heaterEn) v).relay1 = s.relay1 := rfl
@[simp] theorem State.pinWrite_relay0_sclk (v : Level) : (s.pinWrite (.relay0) v).sclk = s.sclk := rfl
@[simp] theorem State.pinWrite_relay0_mosi (v : Level) : (s.pinWrite (.relay0) v).mosi = s.mosi := rfl
@[simp] theorem State.pinWrite_relay0_cs (v : Level) : (s.pinWrite (.relay0) v).cs = s.cs := rfl
@[simp] theorem State.pinWrite_relay0_payloadEn (v : Level) : (s.pinWrite (.relay0) v).payloadEn = s.payloadEn := rfl
@[simp] theorem State.pinWrite_relay0_heaterEn (v : Level) : (s.pinWrite (.relay0) v).heaterEn = s.heaterEn := rfl
@[simp] theorem State.pinWrite_relay0_relay0 (v : Level) : (s.pinWrite (.relay0) v).relay0 = Reg.written v := rfl
@[simp] theorem State.pinWrite_relay0_relay1 (v : Level) : (s.pinWrite (.relay0) v).relay1 = s.relay1 := rfl
@[simp] theorem State.pinWrite_relay1_sclk (v : Level) : (s.pinWrite (.relay1) v).sclk = s.sclk := rfl
@[simp] theorem State.pinWrite_relay1_mosi (v : Level) : (s.pinWrite (.relay1) v).mosi = s.mosi := rfl
@[simp] theorem State.pinWrite_relay1_cs (v : Level) : (s.pinWrite (.relay1) v).cs = s.cs := rfl
@[simp] theorem State.pinWrite_relay1_payloadEn (v : Level) : (s.pinWrite (.relay1) v).payloadEn = s.payloadEn := rfl
@[simp] theorem State.pinWrite_relay1_heaterEn (v : Level) : (s.pinWrite (.relay1) v).heaterEn = s.heaterEn := rfl
@[simp] theorem State.pinWrite_relay1_relay0 (v : Level) : (s.pinWrite (.relay1) v).relay0 = s.relay0 := rfl
@[simp] theorem State.pinWrite_relay1_relay1 (v : Level) : (s.pinWrite (.relay1) v).relay1 = Reg.written v := rfl

end Sys2Proof.Machine
end

