-- ==== Sys2Proof/Laws/Transfer.lean ====
section
/-! SUPPORT. What a transfer does, said once: the bit engine in closed form, then `transfer` in both variants. -/

namespace Sys2Proof.Machine

/-! ## Bits -/

@[simp] theorem bitsOf_length (n : Nat) (d : Word) : (bitsOf n d).length = n := by
  induction n with
  | zero => rfl
  | succ n ih => simp [bitsOf, ih]

theorem truncBits_getLsbD {n : Nat} (h : n ≤ 32) (d : Word) (k : Nat) :
    (truncBits n d).getLsbD k = (decide (k < n) && d.getLsbD k) := by
  have hlt : d.toNat % 2 ^ n < 2 ^ 32 :=
    lt_of_lt_of_le (Nat.mod_lt _ (by positivity)) (Nat.pow_le_pow_right (by norm_num) h)
  simp only [truncBits, BitVec.getLsbD, BitVec.toNat_ofNat, Nat.mod_eq_of_lt hlt, Nat.testBit_mod_two_pow]

/-- The bits sent do not depend on the bits above the bit count (R68). -/
theorem bitsOf_congr {n : Nat} {d e : Word} (h : ∀ k < n, d.getLsbD k = e.getLsbD k) : bitsOf n d = bitsOf n e := by
  induction n with
  | zero => rfl
  | succ n ih => simp [bitsOf, h n (Nat.lt_succ_self n), ih fun k hk => h k (Nat.lt_succ_of_lt hk)]

theorem bitsOf_truncBits {n : Nat} (h : n ≤ 32) (d : Word) : bitsOf n (truncBits n d) = bitsOf n d :=
  bitsOf_congr fun k hk => by simp [truncBits_getLsbD h, hk]

theorem bitsOf_getLast? {n : Nat} (d : Word) : (bitsOf n d).getLast? = if n = 0 then none else some (d.getLsbD 0) := by
  induction n with
  | zero => rfl
  | succ n ih =>
    cases n with
    | zero => simp [bitsOf]
    | succ m => rw [bitsOf, List.getLast?_cons, ih]; simp

/-! ## Samples -/

@[simp] theorem samples_length (cfg : BusConfig) (out : List Bool) (s : State) :
    (s.samples cfg out).length = out.length := by
  unfold State.samples; split <;> simp

theorem samples_loopback {cfg : BusConfig} (h : cfg.loopback = true) (out : List Bool) (s : State) :
    s.samples cfg out = out := by simp [State.samples, h]

/-- The samples depend on the environment's answers alone (R63). -/
theorem samples_congr {s t : State} (cfg : BusConfig) (out : List Bool) (h1 : t.misoIn = s.misoIn)
    (h2 : t.misoDraws = s.misoDraws) : t.samples cfg out = s.samples cfg out := by
  have : t.misoAnswer = s.misoAnswer := by funext k; simp only [State.misoAnswer, h1, h2]
  simp only [State.samples, this]

theorem transferEvents_append (m : Mode) (ts bs ts' bs' : List Bool) (h : ts.length = bs.length) :
    transferEvents m (ts ++ ts') (bs ++ bs') = transferEvents m ts bs ++ transferEvents m ts' bs' := by
  induction ts generalizing bs with
  | nil => cases bs with
    | nil => rfl
    | cons b bs => simp at h
  | cons t ts ih => cases bs with
    | nil => simp at h
    | cons b bs => simp [transferEvents, ih bs (by simpa using h)]

/-- The position after `k` more bits of the running transfer (R24). -/
def OpState.advance (k : Nat) : OpState → OpState
  | .busy op p => .busy op ⟨p.transfers, p.bits + k⟩
  | .idle => .idle
  | .halted => .halted

@[simp] theorem OpState.advance_advance (j k : Nat) (o : OpState) : (o.advance j).advance k = o.advance (j + k) := by
  cases o <;> simp [OpState.advance, Nat.add_assoc]

theorem OpState.nextBit_eq (o : OpState) : o.nextBit = o.advance 1 := by cases o <;> rfl

/-- The end of a transfer does not depend on the bits counted. -/
@[simp] theorem OpState.advance_next (k : Nat) (o : OpState) : (o.advance k).next = o.next := by cases o <;> rfl

/-- The state after the bit engine has sent the bits `out`, with `i` the index of the last bit (R125). -/
def State.shifted (cfg : BusConfig) (i : Nat) (out : List Bool) (s : State) : State :=
  { s with
    sr := ⟨⟨s.sr.val.tx, (s.samples cfg out).foldl shiftIn s.sr.val.rx, i⟩, s.sr.specified⟩
    opstate := s.opstate.advance out.length
    sclk := if out = [] then s.sclk else Reg.written cfg.pol.idleLevel
    mosi := match out.getLast? with
      | none => s.mosi
      | some t => Reg.written t
    trace := s.trace ++ transferEvents cfg.mode out (s.samples cfg out)
    misoIn := if cfg.loopback then s.misoIn else s.misoIn.drop out.length
    misoDraws := if cfg.loopback then s.misoDraws else s.misoDraws + (out.length - s.misoIn.length) }

theorem misoAnswer_zero (s : State) : s.misoAnswer 0 = s.misoNext := by
  unfold State.misoAnswer State.misoNext
  cases h : s.misoIn <;> simp

theorem misoAnswer_shifted {cfg : BusConfig} (h : cfg.loopback = false) (i : Nat) (out : List Bool) (s : State)
    (k : Nat) : (s.shifted cfg i out).misoAnswer k = s.misoAnswer (out.length + k) := by
  simp only [State.misoAnswer, State.shifted, h, Bool.false_eq_true, if_false, List.getElem?_drop, List.length_drop]
  cases hk : s.misoIn[out.length + k]? with
  | some b => rfl
  | none =>
    have : s.misoIn.length ≤ out.length + k := List.getElem?_eq_none_iff.1 hk
    show Config.freeMiso _ = Config.freeMiso _
    congr 1; omega

theorem samples_append (cfg : BusConfig) (i : Nat) (out out' : List Bool) (s : State) :
    s.samples cfg (out ++ out') = s.samples cfg out ++ (s.shifted cfg i out).samples cfg out' := by
  unfold State.samples
  split
  · rfl
  · rename_i h
    have h' : cfg.loopback = false := by simpa using h
    simp only [List.length_append, List.range_add, List.map_append, List.map_map]
    congr 1
    apply List.map_congr_left
    intro k _
    simp [misoAnswer_shifted h']

/-- Sending bits in two goes is sending them in one (R66). -/
theorem shifted_shifted (cfg : BusConfig) (i j : Nat) (out out' : List Bool) (s : State) :
    (s.shifted cfg i out).shifted cfg j out' = s.shifted cfg j (out ++ out') := by
  apply State.ext <;> try rfl
  · simp only [State.shifted, OpState.advance_advance, List.length_append]
  · simp only [State.shifted, samples_append cfg i out out' s, List.foldl_append]
  · simp only [State.shifted]; cases out <;> cases out' <;> simp
  · simp only [State.shifted, List.getLast?_append]
    cases h : out'.getLast? <;> simp
  · simp only [State.shifted]
    rw [show s.samples cfg (out ++ out') = s.samples cfg out ++ (s.shifted cfg i out).samples cfg out' from
      samples_append cfg i out out' s, transferEvents_append _ _ _ _ _ (by simp)]
    simp [State.shifted, List.append_assoc]
  · simp only [State.shifted]; split <;> simp
  · simp only [State.shifted]
    split
    · simp
    · simp only [List.length_append, List.length_drop]; omega

/-- One bit time in closed form (R96). -/
theorem shiftBit_eq (cfg : BusConfig) (da db k : Nat) (s : State) :
    s.shiftBit cfg da db k = s.shifted cfg k [s.sr.val.tx.getLsbD k] := by
  cases hl : cfg.loopback <;> cases hp : cfg.pha <;> apply State.ext <;>
    simp [State.shiftBit, State.shifted, State.sampled, State.sampleBit, State.samples, BusConfig.mode, hl, hp,
      transferEvents, bitEvents, misoAnswer_zero, State.misoNext, OpState.nextBit_eq]

/-- The bit engine in closed form (R125): `n` bits, the most significant first. -/
theorem shiftLoop_eq (cfg : BusConfig) (da db n : Nat) (s : State) (h : n ≠ 0) :
    s.shiftLoop cfg da db n = s.shifted cfg 0 (bitsOf n s.sr.val.tx) := by
  induction n generalizing s with
  | zero => exact absurd rfl h
  | succ n ih =>
    cases n with
    | zero => simp [State.shiftLoop, shiftBit_eq, bitsOf]
    | succ m =>
      rw [State.shiftLoop, ih _ (by omega), shiftBit_eq, shifted_shifted]
      rfl

/-- The draw depends on the environment's answers alone (R132). -/
theorem errNext_congr {s t : State} (h1 : t.errIn = s.errIn) (h2 : t.errDraws = s.errDraws) : t.errNext = s.errNext := by
  simp only [State.errNext, h1, h2]

/-! ## Transfers -/

/-- The word a transfer of `n` bits of `d` receives (R65, R133). -/
def State.received (s : State) (n : Nat) (d : Word) : Word := packBits (s.samples s.cfg.val (bitsOf n d))

/-- The state after a transfer of `n` bits of `d`, whether or not it ends in an error. -/
def State.transferred (n : Nat) (d : Word) (s : State) : State :=
  { s with
    sr := Reg.unspecified ⟨truncBits n d, s.received n d, 0⟩
    opstate := s.opstate.next
    sclk := Reg.written s.cfg.val.pol.idleLevel
    mosi := Reg.written (d.getLsbD 0)
    trace := s.trace ++ transferEvents s.cfg.val.mode (bitsOf n d) (s.samples s.cfg.val (bitsOf n d))
    misoIn := if s.cfg.val.loopback then s.misoIn else s.misoIn.drop n
    misoDraws := if s.cfg.val.loopback then s.misoDraws else s.misoDraws + (n - s.misoIn.length)
    txbuf := match s.board.variant with
      | .softwareTimed => s.txbuf
      | .peripheralTimed => Reg.written (truncBits n d)
    rxbuf := match s.board.variant with
      | .softwareTimed => s.rxbuf
      | .peripheralTimed => Reg.written (s.received n d)
    rxrdy := match s.board.variant with
      | .softwareTimed => s.rxrdy
      | .peripheralTimed => false
    fe := match s.board.variant with
      | .softwareTimed => s.fe
      | .peripheralTimed => false
    oe := match s.board.variant with
      | .softwareTimed => s.oe
      | .peripheralTimed => false
    errIn := match s.board.variant with
      | .softwareTimed => s.errIn
      | .peripheralTimed => s.errIn.tail
    errDraws := match s.board.variant with
      | .softwareTimed => s.errDraws
      | .peripheralTimed => s.errDraws + (1 - s.errIn.length) }

/-- The error a transfer of `n` bits of `d` ends in (R129, R131, R132); the software-timed variant has none (R26). -/
def State.transferError (n : Nat) (d : Word) (s : State) : Option BusError :=
  match s.board.variant with
  | .softwareTimed => none
  | .peripheralTimed => errorOf (s.fe || s.errNext.1) ((s.oe || s.rxrdy) || s.errNext.2) (s.received n d)

theorem bitCountOk_iff {n : Nat} : bitCountOk n = true ↔ 1 ≤ n ∧ n ≤ 32 := by simp [bitCountOk]

theorem bitCountOk_of_transferRefusal {n : Nat} {s : State} (h : transferRefusal n s = none) : 1 ≤ n ∧ n ≤ 32 := by
  unfold transferRefusal at h
  split at h
  · cases h
  · split at h
    · cases h
    · rename_i _ hb; exact bitCountOk_iff.1 (by simpa using hb)

/-- A transfer in closed form: refusal, endless poll, error or value, and the state it leaves. -/
theorem transfer_eq (n : Nat) (d : Word) (s : State) :
    transfer n d s =
      match transferRefusal n s with
      | some r => .refuse r
      | none =>
        if s.board.variant = .peripheralTimed ∧ (s.swrst || !s.txrdy) = true then .fault .pollNeverEnds
        else match s.transferError n d with
          | some e => .raise e (s.transferred n d)
          | none => .ok (s.received n d) (s.transferred n d) := by
  unfold transfer
  cases hr : transferRefusal n s with
  | some r => rfl
  | none =>
    obtain ⟨h1, h32⟩ := bitCountOk_of_transferRefusal hr
    have hn : n ≠ 0 := by omega
    have hb := bitsOf_truncBits h32 d
    have hbb : truncBits n (truncBits n d) = truncBits n d := by
      apply BitVec.eq_of_getLsbD_eq
      intro k _
      simp [truncBits_getLsbD h32]
    have hne : bitsOf n d ≠ [] := fun h0 => hn (by simpa using congrArg List.length h0)
    cases hv : s.board.variant with
    | softwareTimed =>
      have hsam : (s.loadSr n d).samples s.cfg.val (bitsOf n d) = s.samples s.cfg.val (bitsOf n d) :=
        samples_congr _ _ rfl rfl
      simp only [State.transferError, hv, transferSw, State.shiftBitsSw, reduceCtorEq, false_and, if_false]
      rw [shiftLoop_eq _ _ _ _ _ hn]
      simp only [State.loadSr_sr, Reg.written_val, hb]
      have hrx : ((s.loadSr n d).shifted s.cfg.val 0 (bitsOf n d)).sr.val.rx = s.received n d := by
        simp [State.shifted, State.received, hsam, packBits]
      rw [hrx]
      congr 1
      apply State.ext <;>
        simp [State.transferred, State.shifted, State.received, hv, hne, bitsOf_getLast?, hn, hsam, packBits]
    | peripheralTimed =>
      simp only [State.transferError, hv, transferHw, true_and]
      cases hp : (s.swrst || !s.txrdy) with
      | true => rfl
      | false =>
        simp only [Bool.false_eq_true, if_false, State.shifterStep]
        rw [shiftLoop_eq _ _ _ _ _ hn]
        have htx : s.txrdy = true := by
          cases h : s.txrdy <;> simp [h] at hp ⊢
        set w := s.writeTxbuf (truncBits n d) with hw
        have hsam : (w.takeTxbuf.loadSr n w.txbuf.val).samples s.cfg.val (bitsOf n d)
            = s.samples s.cfg.val (bitsOf n d) := samples_congr _ _ rfl rfl
        have hout : bitsOf n (w.takeTxbuf.loadSr n w.txbuf.val).sr.val.tx = bitsOf n d := by
          simp [hw, hbb, hb]
        rw [hout]
        set v := (w.takeTxbuf.loadSr n w.txbuf.val).shifted s.cfg.val 0 (bitsOf n d) with hv'
        have hrx : v.sr.val.rx = s.received n d := by
          simp [hv', State.shifted, State.received, hsam, packBits]
        have herr : v.deliver.errNext = s.errNext := errNext_congr rfl rfl
        have hsam' : (State.loadSr n (truncBits n d) (s.writeTxbuf (truncBits n d)).takeTxbuf).samples s.cfg.val (bitsOf n d)
            = s.samples s.cfg.val (bitsOf n d) := samples_congr _ _ rfl rfl
        have hst : ((v.deliver.errAdvance.orErrors v.deliver.errNext).clearOnRead).endTransfer = s.transferred n d := by
          apply State.ext <;>
            simp [State.transferred, hv', hw, State.shifted, State.received, hv, hne, bitsOf_getLast?, hn, hsam', packBits,
              hbb, htx]
        have hfe : (v.deliver.errAdvance.orErrors v.deliver.errNext).fe = (s.fe || s.errNext.1) := by
          rw [herr]; simp [hv', hw, State.shifted]
        have hoe : (v.deliver.errAdvance.orErrors v.deliver.errNext).oe = ((s.oe || s.rxrdy) || s.errNext.2) := by
          rw [herr]; simp [hv', hw, State.shifted]
        have hrb : (v.deliver.errAdvance.orErrors v.deliver.errNext).rxbuf.val = s.received n d := by
          simp [hrx]
        rw [hst, hfe, hoe, hrb] <;>
          (cases errorOf (s.fe || s.errNext.1) ((s.oe || s.rxrdy) || s.errNext.2) (s.received n d) <;> rfl)

end Sys2Proof.Machine
end

