-- ==== Sys2Proof/Laws/Bits.lean ====
section
/-! SUPPORT. Bits received and frames, as numbers. -/

namespace Sys2Proof.Machine

/-- The number the bits stand for, the first bit most significant. -/
def bitsVal : List Bool → Nat
  | [] => 0
  | b :: rest => b.toNat * 2 ^ rest.length + bitsVal rest

theorem shiftIn_toNat (w : Word) (b : Bool) : (shiftIn w b).toNat = (w.toNat * 2 + b.toNat) % 2 ^ 32 := by
  unfold shiftIn
  rw [BitVec.toNat_add, BitVec.toNat_shiftLeft, BitVec.toNat_ofNat, Nat.shiftLeft_eq]
  cases b <;> simp

theorem foldl_shiftIn_toNat (l : List Bool) (w : Word) :
    (l.foldl shiftIn w).toNat = (w.toNat * 2 ^ l.length + bitsVal l) % 2 ^ 32 := by
  induction l generalizing w with
  | nil => simp [bitsVal, Nat.mod_eq_of_lt w.isLt]
  | cons b rest ih =>
    have h : (((w.toNat * 2 + b.toNat) % 2 ^ 32) * 2 ^ rest.length + bitsVal rest) % 2 ^ 32
        = ((w.toNat * 2 + b.toNat) * 2 ^ rest.length + bitsVal rest) % 2 ^ 32 := by
      rw [Nat.add_mod, Nat.mod_mul_mod, ← Nat.add_mod]
    rw [List.foldl_cons, ih, shiftIn_toNat, h, bitsVal, List.length_cons]
    congr 1
    ring

/-- The low bits of what was received are the last bits (R65, R100). -/
theorem packBits_low {k : Nat} (hk : k ≤ 32) (l m : List Bool) (hm : k ≤ m.length) :
    (packBits (l ++ m)).setWidth k = (packBits m).setWidth k := by
  apply BitVec.eq_of_toNat_eq
  unfold packBits
  rw [List.foldl_append, BitVec.toNat_setWidth, BitVec.toNat_setWidth, foldl_shiftIn_toNat, foldl_shiftIn_toNat m]
  have hd : 2 ^ k ∣ 2 ^ 32 := Nat.pow_dvd_pow 2 hk
  rw [Nat.mod_mod_of_dvd _ hd, Nat.mod_mod_of_dvd _ hd]
  obtain ⟨c, hc⟩ : 2 ^ k ∣ 2 ^ m.length := Nat.pow_dvd_pow 2 hm
  rw [hc, show (List.foldl shiftIn 0 l).toNat * (2 ^ k * c) = 2 ^ k * ((List.foldl shiftIn 0 l).toNat * c) by ring]
  simp

theorem bitsOf_ne {n : Nat} (h : n ≠ 0) (d : Word) : bitsOf n d ≠ [] := fun h0 =>
    h (by simpa using congrArg List.length h0)

theorem packBits_bitsOf {n : Nat} (d : Word) : packBits (bitsOf n d) = BitVec.ofNat 32 (d.toNat % 2 ^ n) := by
  have hv : ∀ n, bitsVal (bitsOf n d) = d.toNat % 2 ^ n := by
    intro n
    induction n with
    | zero => simp [bitsOf, bitsVal, Nat.mod_one]
    | succ n ih =>
      rw [bitsOf, bitsVal, ih, bitsOf_length, BitVec.getLsbD, Nat.mod_pow_succ, Nat.testBit_eq_decide_div_mod_eq]
      rcases Nat.mod_two_eq_zero_or_one (d.toNat / 2 ^ n) with h | h <;> simp [h] <;> omega
  apply BitVec.eq_of_toNat_eq
  rw [packBits, foldl_shiftIn_toNat, hv, BitVec.toNat_ofNat]
  simp

theorem or_eq_add {k a b : Nat} (h : b < 2 ^ k) : (a <<< k) ||| b = (a <<< k) + b := by
  rw [Nat.shiftLeft_eq, Nat.mul_comm]; exact (Nat.two_pow_add_eq_or_of_lt h a).symm

theorem dacFrame_toNat {c : BitVec 4} {ch v : Nat} (hc : ch < 16) (hv : v < 4096) :
    (dacFrame c ch v).toNat = c.toNat * 2 ^ 20 + ch * 2 ^ 16 + v * 2 ^ 4 := by
  have hk : c.toNat < 16 := c.isLt
  rw [dacFrame, BitVec.toNat_ofNat]; simp only [Nat.shiftLeft_eq]; apply Nat.mod_eq_of_lt; omega

theorem dpotFrame_toNat {h w : Nat} (hh : h < 256) (hw : w < 256) : (dpotFrame h w).toNat = h * 256 + w := by
  rw [dpotFrame, BitVec.toNat_ofNat]; simp only [Nat.shiftLeft_eq]
  rw [Nat.mod_eq_of_lt (by omega)]

theorem truncBits_toNat {n : Nat} (h : n ≤ 32) (d : Word) : (truncBits n d).toNat = d.toNat % 2 ^ n := by
  rw [truncBits, BitVec.toNat_ofNat]
  apply Nat.mod_eq_of_lt
  exact lt_of_lt_of_le (Nat.mod_lt _ (by positivity)) (Nat.pow_le_pow_right (by norm_num) h)

end Sys2Proof.Machine
end

