-- ==== Sys2Proof/Laws/Ops.lean ====
section
/-! SUPPORT. What each shared operation can do, said once: chip selects, configuration, transactions, admission, the
start and the end of an operation. -/

namespace Sys2Proof.Machine

/-! ## Runs -/

@[simp] theorem Run.bind_ok {α β : Type} (a : α) (s : State) (f : α → State → Run β) : (Run.ok a s).bind f = f a s := rfl
@[simp] theorem Run.bind_raise {α β : Type} (e : BusError) (s : State) (f : α → State → Run β) :
    (Run.raise e s : Run α).bind f = .raise e s := rfl
@[simp] theorem Run.bind_refuse {α β : Type} (r : Refusal) (f : α → State → Run β) :
    (Run.refuse r : Run α).bind f = .refuse r := rfl
@[simp] theorem Run.bind_fault {α β : Type} (x : Fault) (f : α → State → Run β) :
    (Run.fault x : Run α).bind f = .fault x := rfl
@[simp] theorem Run.deassert_ok {α : Type} (d : Dev) (a : α) (s : State) :
    (Run.ok a s).deassert d = .ok a (s.pinWrite (.cs d) true) := rfl
@[simp] theorem Run.deassert_raise {α : Type} (d : Dev) (e : BusError) (s : State) :
    (Run.raise e s : Run α).deassert d = .raise e (s.pinWrite (.cs d) true) := rfl
@[simp] theorem Run.deassert_refuse {α : Type} (d : Dev) (r : Refusal) : (Run.refuse r : Run α).deassert d = .refuse r := rfl
@[simp] theorem Run.deassert_fault {α : Type} (d : Dev) (x : Fault) : (Run.fault x : Run α).deassert d = .fault x := rfl
@[simp] theorem Run.complete_ok {α : Type} (f : α → Result) (a : α) (s : State) :
    (Run.ok a s).complete f = .next (s.finish (f a)) := rfl
@[simp] theorem Run.complete_raise {α : Type} (f : α → Result) (e : BusError) (s : State) :
    (Run.raise e s : Run α).complete f = .next (s.takeError e) := rfl
@[simp] theorem Run.complete_refuse {α : Type} (f : α → Result) (r : Refusal) :
    (Run.refuse r : Run α).complete f = .refused r := rfl
@[simp] theorem Run.complete_fault {α : Type} (f : α → Result) (x : Fault) :
    (Run.fault x : Run α).complete f = .fault x := rfl

/-- Every state a run ends in, with a value or with an error, has `P`. -/
def Run.Ends {α : Type} (P : State → Prop) : Run α → Prop
  | .ok _ s => P s
  | .raise _ s => P s
  | .refuse _ => True
  | .fault _ => True

/-- A property that holds where the first part ends and that the rest keeps holds where the whole ends. -/
theorem Run.Ends.bind {α β : Type} {P : State → Prop} {x : Run α} {f : α → State → Run β} (hx : x.Ends P)
    (hf : ∀ a s, P s → (f a s).Ends P) : (x.bind f).Ends P := by
  cases x with
  | ok a s => exact hf a s hx
  | raise e s => exact hx
  | refuse r => trivial
  | fault x => trivial

theorem Run.Ends.mono {α : Type} {P Q : State → Prop} {x : Run α} (hx : x.Ends P) (h : ∀ s, P s → Q s) : x.Ends Q := by
  cases x with
  | ok a s => exact h s hx
  | raise e s => exact h s hx
  | refuse r => trivial
  | fault x => trivial

/-! ## Chip selects -/

theorem assoc_setCs (d e : Dev) (v : Level) (l : List (Dev × Level)) :
    assoc e (setCs d v l) = if e = d then some v else assoc e l := by
  induction l with
  | nil => simp [setCs, assoc, eq_comm]
  | cons p rest ih =>
    obtain ⟨a, w⟩ := p
    by_cases h : a = d
    · subst h; by_cases h' : a = e
      · subst h'; simp [setCs, assoc]
      · simp [setCs, assoc, h', Ne.symm h']
    · by_cases h' : a = e
      · subst h'; simp [setCs, assoc, h]
      · simp [setCs, assoc, h, h', ih]

@[simp] theorem csReg_pinWrite_cs (s : State) (d e : Dev) (v : Level) :
    (s.pinWrite (.cs d) v).csReg e = if e = d then Reg.written v else s.csReg e := by
  simp only [State.csReg, State.pinWrite_cs_cs, assoc_setCs]
  by_cases h : e = d <;> simp [h]

/-- The chip selects depend on their list alone. -/
theorem csReg_congr {s t : State} (h : t.cs = s.cs) (d : Dev) : t.csReg d = s.csReg d := by simp only [State.csReg, h]

/-- The levels written so far stay free of repetitions (R40). -/
theorem setCs_keys (d : Dev) (v : Level) (l : List (Dev × Level)) :
    (setCs d v l).map Prod.fst = if d ∈ l.map Prod.fst then l.map Prod.fst else l.map Prod.fst ++ [d] := by
  induction l with
  | nil => rfl
  | cons p rest ih =>
    obtain ⟨a, w⟩ := p
    by_cases h : a = d
    · subst h; simp [setCs]
    · simp only [setCs, h, if_false, List.map_cons, ih, List.mem_cons, Ne.symm h, false_or]
      split <;> simp

theorem setCs_all_true {d : Dev} {l : List (Dev × Level)} {b : Level} (h : ∀ e ∈ l, e.2 = true) :
    ∀ e ∈ setCs d true (setCs d b l), e.2 = true := by
  induction l with
  | nil => simp [setCs]
  | cons p rest ih =>
    obtain ⟨a, w⟩ := p
    have hr : ∀ e ∈ rest, e.2 = true := fun e he => h e (List.mem_cons_of_mem _ he)
    by_cases ha : a = d
    · subst ha
      simp only [setCs, if_true, List.mem_cons]
      rintro e (rfl | he)
      · rfl
      · exact hr e he
    · simp only [setCs, ha, if_false, List.mem_cons]
      rintro e (rfl | he)
      · exact h (a, w) (List.mem_cons_self)
      · exact ih hr e he

/-! ## Configuration -/

/-- What the write of a configuration does to each piece of state (R122). -/
theorem applyConfig_eq (cfg : BusConfig) (s : State) :
    s.applyConfig cfg =
      { s with
        cfg := Reg.written cfg
        cfgCur := Reg.written cfg.mode
        sclk := Reg.written cfg.pol.idleLevel
        trace := s.trace ++ [.pin .sclk cfg.pol.idleLevel]
        swrst := match s.board.variant with
          | .softwareTimed => s.swrst
          | .peripheralTimed => false
        txrdy := match s.board.variant with
          | .softwareTimed => s.txrdy
          | .peripheralTimed => true
        rxrdy := match s.board.variant with
          | .softwareTimed => s.rxrdy
          | .peripheralTimed => false
        fe := match s.board.variant with
          | .softwareTimed => s.fe
          | .peripheralTimed => false
        oe := match s.board.variant with
          | .softwareTimed => s.oe
          | .peripheralTimed => false } := by
  cases h : s.board.variant <;> simp only [State.applyConfig, h] <;> rfl

@[simp] theorem Run.restoring_ok {α : Type} (b : State) (a : α) (s : State) : (Run.ok a s).restoring b = .ok a s := rfl
@[simp] theorem Run.restoring_raise {α : Type} (b : State) (e : BusError) (s : State) :
    (Run.raise e s : Run α).restoring b = .raise e (b.restoreConfig s) := rfl
@[simp] theorem Run.restoring_refuse {α : Type} (b : State) (r : Refusal) :
    (Run.refuse r : Run α).restoring b = .refuse r := rfl
@[simp] theorem Run.restoring_fault {α : Type} (b : State) (x : Fault) : (Run.fault x : Run α).restoring b = .fault x := rfl

/-- The state after `EnsureConfig` for a device of mode `m` (R135). -/
def State.ensured (m : Mode) (s : State) : State :=
  if s.cfgCur.val = m then s else s.applyConfig (s.cfg.val.withMode m)

/-- `EnsureConfig` refuses, or leaves the device's mode in force (R135). -/
theorem ensureConfig_cases (d : Dev) (s : State) :
    (∃ r, ensureConfig d s = .refuse r) ∨
      ∃ m, s.board.devMode d = some m ∧ s.busReady = true ∧ s.cfg.specified = true ∧ s.cfgCur.specified = true
        ∧ ensureConfig d s = .ok () (s.ensured m) := by
  unfold ensureConfig
  by_cases hb : s.busReady = true
  · by_cases hc : (s.cfg.specified && s.cfgCur.specified) = true
    · cases hm : s.board.devMode d with
      | none => left; simp [hb, hc]
      | some m =>
        right
        have hc' : s.cfg.specified = true ∧ s.cfgCur.specified = true := by simpa using hc
        refine ⟨m, rfl, hb, hc'.1, hc'.2, ?_⟩
        by_cases h : s.cfgCur.val = m <;> simp [hb, hc'.1, hc'.2, h, State.ensured, reconfigure]
    · left; exact ⟨.unspecifiedRead, by simp only [hb, Bool.eq_false_iff.2 hc, Bool.not_true, Bool.not_false]; rfl⟩
  · left; exact ⟨.unconfigured, by simp [hb]⟩

theorem ensureConfig_ok {d : Dev} {s : State} {m : Mode} (hu : s.BusUp) (hm : s.board.devMode d = some m) :
    ensureConfig d s = .ok () (s.ensured m) := by
  obtain ⟨hb, hc, hcur⟩ := hu
  have hcs : s.cfgCur.specified = true := by rw [hcur]; rfl
  unfold ensureConfig
  by_cases h : s.cfgCur.val = m <;> simp [hb, hc, hcs, hm, h, State.ensured, reconfigure]

/-! ## Transfers -/

/-- A transfer refuses, or waits for ever, or ends in its one final state with an error or with the word received. -/
theorem transfer_cases (n : Nat) (d : Word) (s : State) :
    (∃ r, transferRefusal n s = some r ∧ transfer n d s = .refuse r)
    ∨ transfer n d s = .fault .pollNeverEnds
    ∨ (transferRefusal n s = none ∧ ∃ e, s.transferError n d = some e ∧ transfer n d s = .raise e (s.transferred n d))
    ∨ (transferRefusal n s = none ∧ s.transferError n d = none
        ∧ transfer n d s = .ok (s.received n d) (s.transferred n d)) := by
  rw [transfer_eq]
  cases hr : transferRefusal n s with
  | some r => exact .inl ⟨r, rfl, rfl⟩
  | none =>
    by_cases hf : s.board.variant = .peripheralTimed ∧ (s.swrst || !s.txrdy) = true
    · right; left; exact if_pos hf
    · cases he : s.transferError n d with
      | some e => right; right; left; refine ⟨rfl, e, rfl, ?_⟩; simp only [if_neg hf]
      | none => right; right; right; refine ⟨rfl, rfl, ?_⟩; simp only [if_neg hf]

theorem transferRefusal_none {n : Nat} {s : State} (h : s.CanTransfer) (h1 : 1 ≤ n) (h32 : n ≤ 32) :
    transferRefusal n s = none := by
  obtain ⟨⟨hb, hc, -⟩, hs, -⟩ := h
  simp [transferRefusal, hb, hc, hs, bitCountOk, h1, h32]

theorem errAnswer_zero (s : State) : s.errAnswer 0 = s.errNext := by
  unfold State.errAnswer State.errNext
  cases h : s.errIn <;> simp

/-- Where a transfer can run, it ends in its final state, with the error drawn if there is one. -/
theorem transfer_of_ready {n : Nat} (d : Word) {s : State} (h : s.CanTransfer) (h1 : 1 ≤ n) (h32 : n ≤ 32) :
    transfer n d s =
      match s.transferError n d with
      | some e => .raise e (s.transferred n d)
      | none => .ok (s.received n d) (s.transferred n d) := by
  rw [transfer_eq, transferRefusal_none h h1 h32]
  have : ¬ (s.board.variant = .peripheralTimed ∧ (s.swrst || !s.txrdy) = true) := by
    rintro ⟨hv, hp⟩
    rcases h.2.2 with hsw | ⟨h1, h2, -⟩
    · rw [hv] at hsw; cases hsw
    · simp [h1, h2] at hp
  simp only [if_neg this] <;> (cases s.transferError n d <;> rfl)

theorem transferError_none {n : Nat} {d : Word} {s : State} (h : s.CanTransfer) (he : s.NoError 1) :
    s.transferError n d = none := by
  unfold State.transferError
  rcases he with hv | he
  · simp [hv]
  · cases hv : s.board.variant with
    | softwareTimed => rfl
    | peripheralTimed =>
      have h0 := he 0 (by norm_num)
      rw [errAnswer_zero] at h0
      rcases h.2.2 with hsw | ⟨-, -, h3, h4, h5⟩
      · rw [hv] at hsw; cases hsw
      · simp [h3, h4, h5, h0, errorOf]

theorem transferError_some {n : Nat} {d : Word} {s : State} (h : s.CanTransfer) (hv : s.board.variant = .peripheralTimed)
    (he : s.errAnswer 0 ≠ (false, false)) :
    s.transferError n d = some (if (s.errAnswer 0).1 then .framing else .overrun (s.received n d)) := by
  rw [errAnswer_zero] at he ⊢
  rcases h.2.2 with hsw | ⟨-, -, h3, h4, h5⟩
  · rw [hv] at hsw; cases hsw
  · rcases hn : s.errNext with ⟨_ | _, _ | _⟩ <;> simp_all [State.transferError, errorOf]

/-- A transfer leaves everything a further transfer needs (R129, R139). -/
theorem canTransfer_transferred {n : Nat} {d : Word} {s : State} (h : s.CanTransfer) : (s.transferred n d).CanTransfer := by
  obtain ⟨hu, hs, hp⟩ := h
  refine ⟨hu, hs, ?_⟩
  rcases hp with hv | ⟨h1, h2, -⟩
  · exact .inl hv
  · by_cases hv : s.board.variant = .softwareTimed
    · exact .inl hv
    · right
      have hv' : s.board.variant = .peripheralTimed := by cases h : s.board.variant <;> simp_all
      simp [State.transferred, hv', h1, h2]

theorem errAnswer_transferred {n : Nat} {d : Word} {s : State} (hv : s.board.variant = .peripheralTimed) (k : Nat) :
    (s.transferred n d).errAnswer k = s.errAnswer (k + 1) := by
  unfold State.errAnswer
  cases h : s.errIn with
  | nil => simp only [State.transferred, hv, h]; simp; congr 1; omega
  | cons e rest => simp [State.transferred, hv, h]

/-- Two transfers in a row sample what one transfer of both bit strings samples (R66). -/
theorem samples_transferred {n : Nat} {d : Word} {s : State} (out : List Bool) :
    s.samples s.cfg.val (bitsOf n d ++ out)
      = s.samples s.cfg.val (bitsOf n d) ++ (s.transferred n d).samples s.cfg.val out := by
  rw [samples_append s.cfg.val 0 (bitsOf n d) out s]
  congr 1
  exact (samples_congr _ _ (by simp [State.shifted, State.transferred]) (by simp [State.shifted, State.transferred])).symm

/-! ## Admission, the start and the end of an operation -/

theorem admission_none {b : Bool} {i : Instr} {s : State} (h : s.Admits) (hg : gateLegal s.board s.power i = true) :
    admission b i s = none := by
  obtain ⟨ho, hc, hw⟩ := h
  simp [admission, ho, hc, hw, hg]

/-- An admitted operation is its body and its end. -/
theorem issue_of_admits {α : Type} {i : Instr} {f : α → Result} {body : State → Run α} {s : State} (h : s.Admits)
    (hg : gateLegal s.board s.power i = true) : issue i f body s = (body (s.begin i)).complete f := by
  simp [issue, admission_none h hg]

/-- The gate refuses before anything else (R225, R300). -/
theorem issue_of_gate {α : Type} {i : Instr} {f : α → Result} {body : State → Run α} {s : State}
    (ho : s.opstate = .idle) (hg : gateLegal s.board s.power i = false) :
    issue i f body s = .refused .illegalInState := by
  simp [issue, admission, ho, hg]

theorem admission_some {b : Bool} {i : Instr} {s : State} {o : Host.Outcome State Fault Refusal}
    (h : admission b i s = some o) : ∀ t, o ≠ .next t := by
  intro t
  unfold admission at h
  split at h
  · simp only [Option.some.injEq] at h; subst h; simp
  · simp only [Option.some.injEq] at h; subst h; simp
  · split at h
    · simp only [Option.some.injEq] at h; subst h; simp
    · split at h
      · simp only [Option.some.injEq] at h; subst h; simp
      · split at h
        · simp only [Option.some.injEq] at h; subst h; simp
        · cases h

theorem admission_none_iff {b : Bool} {i : Instr} {s : State} :
    admission b i s = none ↔ s.opstate = .idle ∧ gateLegal s.board s.power i = true ∧ (s.constructed || b) = true
      ∧ s.board.wf = true := by
  unfold admission
  cases ho : s.opstate <;> simp
  cases hg : gateLegal s.board s.power i <;> simp
  cases hc : s.constructed <;> cases b <;> cases hw : s.board.wf <;> simp

/-- An operation that answers a next state was admitted, and its body ended with a value or with an error. -/
theorem issue_next {α : Type} {i : Instr} {f : α → Result} {body : State → Run α} {s t : State}
    (h : issue i f body s = .next t) :
    s.Admits ∧ gateLegal s.board s.power i = true
      ∧ ((∃ a u, body (s.begin i) = .ok a u ∧ t = u.finish (f a)) ∨ (∃ e u, body (s.begin i) = .raise e u ∧ t = u.takeError e)) := by
  unfold issue at h
  cases ha : admission false i s with
  | some o => rw [ha] at h; exact absurd h (admission_some ha t)
  | none =>
    rw [ha] at h
    obtain ⟨ho, hg, hc, hw⟩ := admission_none_iff.1 ha
    refine ⟨⟨ho, by simpa using hc, hw⟩, hg, ?_⟩
    cases hb : body (s.begin i) with
    | ok a u => rw [hb] at h; left; exact ⟨a, u, rfl, by simpa using h.symm⟩
    | raise e u => rw [hb] at h; right; exact ⟨e, u, rfl, by simpa using h.symm⟩
    | refuse r => rw [hb] at h; cases h
    | fault x => rw [hb] at h; cases h

/-- The same for `BUS.INIT`, which may come before construction. -/
theorem issueBoot_next {i : Instr} {body : State → Run Unit} {s t : State} (h : issueBoot i body s = .next t) :
    s.opstate = .idle ∧ s.board.wf = true
      ∧ ((∃ a u, body (s.begin i) = .ok a u ∧ t = u.finish .unit) ∨ (∃ e u, body (s.begin i) = .raise e u ∧ t = u.takeError e)) := by
  unfold issueBoot at h
  cases ha : admission true i s with
  | some o => rw [ha] at h; exact absurd h (admission_some ha t)
  | none =>
    rw [ha] at h
    obtain ⟨ho, hg, hc, hw⟩ := admission_none_iff.1 ha
    refine ⟨ho, hw, ?_⟩
    cases hb : body (s.begin i) with
    | ok a u => rw [hb] at h; left; exact ⟨a, u, rfl, by simpa using h.symm⟩
    | raise e u => rw [hb] at h; right; exact ⟨e, u, rfl, by simpa using h.symm⟩
    | refuse r => rw [hb] at h; cases h
    | fault x => rw [hb] at h; cases h

end Sys2Proof.Machine
end

