-- ==== Sys2Proof/Laws/Board.lean ====
section
/-! SUPPORT. What a well-formed board gives (R7): its parts, its catalog, its codes, its scales. -/

namespace Sys2Proof.Machine

theorem assoc_mem {α β : Type} [DecidableEq α] {k : α} {v : β} {l : List (α × β)} (h : assoc k l = some v) :
    (k, v) ∈ l := by
  induction l with
  | nil => simp [assoc] at h
  | cons p rest ih =>
    obtain ⟨a, w⟩ := p
    by_cases ha : a = k
    · simp_all [assoc]
    · exact List.mem_cons_of_mem _ (ih (by simpa [assoc, ha] using h))

theorem assoc_of_mem {α β : Type} [DecidableEq α] {l : List (α × β)} (hn : (l.map Prod.fst).Nodup) {k : α} {v :
    β} (h : (k, v) ∈ l) :
    assoc k l = some v := by
  induction l with
  | nil => cases h
  | cons p rest ih =>
    obtain ⟨a, w⟩ := p
    simp only [List.map_cons, List.nodup_cons] at hn
    rcases List.mem_cons.1 h with h | h
    · cases h; simp [assoc]
    · have : a ≠ k := by rintro rfl; exact hn.1 (List.mem_map_of_mem (f := Prod.fst) h)
      simp [assoc, this, ih hn.2 h]

theorem wf_parts {b : Board} (h : b.wf = true) : b.adcsOk = true ∧ (b.sensors.map Prod.fst).Nodup
    ∧ (∀ e ∈ b.sensors, b.sensorOk e.2 = true) ∧ b.supplySensorsOk = true ∧ b.dacOk = true ∧ b.digipotOk = true
    ∧ b.rangesOk = true := by
  simp only [Board.wf, Board.catalogOk, Bool.and_eq_true, decide_eq_true_eq, List.all_eq_true] at h
  obtain ⟨⟨⟨⟨⟨⟨⟨h1, h2, h3⟩, h4⟩, h5⟩, h6⟩, h7⟩, -⟩, -⟩ := h
  exact ⟨h1, h2, fun e he => (h3 e he).1, h4, h5, h6, h7⟩

/-- The gate class of a sensor of a well-formed board is that of its group (R241). -/
theorem wf_cls {b : Board} (h : b.wf = true) {n : SensorName} {r : Sensor} (hr : b.sensor n = some r) :
    r.cls = n.cls := by
  simp only [Board.wf, Board.catalogOk, Bool.and_eq_true, decide_eq_true_eq, List.all_eq_true] at h
  exact (h.1.1.1.1.1.1.2.2 _ (assoc_mem hr)).2

/-- The sensors of a supply of a well-formed board are that supply's own (R7, R241). -/
theorem wf_supplySensors {b : Board} (h : b.wf = true) {u : Supply} {n : SensorName} :
    ((b.supplySensors u).voltage = some n → n = .supplyVoltage u)
      ∧ ((b.supplySensors u).current = some n → n = .supplyCurrent u) := by
  have hs := (wf_parts h).2.2.2.1
  simp only [Board.supplySensorsOk, Bool.and_eq_true] at hs
  have hu : b.supplyNamed u = true := by
    cases u
    · exact hs.1.1
    · exact hs.1.2
    · exact hs.2
  simp only [Board.supplyNamed, Bool.and_eq_true] at hu
  constructor <;> intro hn
  · have := hu.1
    rw [hn] at this
    exact of_decide_eq_true ((Bool.and_eq_true _ _ ▸ this).1)
  · have := hu.2
    rw [hn] at this
    exact of_decide_eq_true ((Bool.and_eq_true _ _ ▸ this).1)

theorem allFrom_iff (f : Int → Bool) (lo : Int) (n : Nat) :
    allFrom f lo n = true ↔ ∀ x, lo ≤ x → x < lo + n → f x = true := by
  induction n generalizing lo with
  | zero => simp only [allFrom, true_iff]; intro x h1 h2; omega
  | succ n ih =>
    simp only [allFrom, Bool.and_eq_true, ih]
    constructor
    · rintro ⟨h0, h⟩ x h1 h2
      by_cases hx : x = lo
      · rw [hx]; exact h0
      · exact h x (by omega) (by omega)
    · intro h
      exact ⟨h lo (by omega) (by omega), fun x h1 h2 => h x (by omega) (by omega)⟩

/-- `tdiv` by a natural number keeps the order. -/
theorem tdiv_mono {x y : Int} (d : Nat) (h : x ≤ y) : Int.tdiv x d ≤ Int.tdiv y d := by
  rcases Nat.eq_zero_or_pos d with rfl | hd
  · simp
  · exact Int.tdiv_le_tdiv (by omega) h

/-- A linear form lies between its values at the ends of a range. -/
theorem linear_between (off num : Int) (den : Nat) {lo hi x : Int} (h1 : lo ≤ x) (h2 : x ≤ hi) :
    (Int.tdiv ((lo + off) * num) den ≤ Int.tdiv ((x + off) * num) den
        ∧ Int.tdiv ((x + off) * num) den ≤ Int.tdiv ((hi + off) * num) den)
      ∨ (Int.tdiv ((hi + off) * num) den ≤ Int.tdiv ((x + off) * num) den
        ∧ Int.tdiv ((x + off) * num) den ≤ Int.tdiv ((lo + off) * num) den) := by
  rcases le_total 0 num with hn | hn
  · exact .inl ⟨tdiv_mono _ (mul_le_mul_of_nonneg_right (by omega) hn),
      tdiv_mono _ (mul_le_mul_of_nonneg_right (by omega) hn)⟩
  · exact .inr ⟨tdiv_mono _ (mul_le_mul_of_nonpos_right (by omega) hn),
      tdiv_mono _ (mul_le_mul_of_nonpos_right (by omega) hn)⟩

theorem mv2Count_le (vcc : Nat) (mv : Int) : mv2Count vcc mv ≤ 4095 := by
  unfold mv2Count; split <;> omega

theorem countInRange_iff (c : Int) : countInRange c = true ↔ 0 ≤ c ∧ c ≤ 4095 := by simp [countInRange]

/-- `Board.countsIn` says of every point of a range that the value is a 12-bit count (R7). -/
theorem countsIn_iff (b : Board) {r : MvRange} (hr : r.minMv ≤ r.maxMv) (c : Calibration) :
    b.countsIn r c = true ↔ ∀ x, r.minMv ≤ x → x ≤ r.maxMv → countInRange (b.calibrate c x) = true := by
  cases c with
  | revision k =>
    rw [Board.countsIn, allFrom_iff]
    exact ⟨fun h x h1 h2 => h x h1 (by omega), fun h x h1 h2 => h x h1 (by omega)⟩
  | linear off num den =>
    simp only [Board.countsIn, Bool.and_eq_true]
    refine ⟨fun ⟨hl, hh⟩ x h1 h2 => ?_, fun h => ⟨h _ (le_refl _) hr, h _ hr (le_refl _)⟩⟩
    simp only [countInRange_iff, Board.calibrate, Calibration.apply] at *
    rcases linear_between off num den h1 h2 with h | h <;> omega
  | linearCount off num den =>
    simp only [Board.countsIn, true_iff]
    intro x _ _
    have := mv2Count_le b.dacVccMv (Int.tdiv ((x + off) * num) den)
    simp only [countInRange_iff, Board.calibrate, Calibration.apply]
    omega

theorem wf_digipot {b : Board} (h : b.wf = true) : b.digipotWiperR < b.digipotMaxR ∧ b.digipotResolution = 255 := by
  have := (wf_parts h).2.2.2.2.2.1
  simpa only [Board.digipotOk, Bool.and_eq_true, decide_eq_true_eq] using this

theorem sensor_channel {s : State} {n : SensorName} {r : Sensor} (hw : s.board.wf = true) (hr :
    s.board.sensor n = some r) :
    r.channel ≤ 7 := by
  have := (wf_parts hw).2.2.1 _ (assoc_mem hr)
  simp only [Board.sensorOk, Bool.and_eq_true, decide_eq_true_eq] at this
  exact this.1.2

theorem sensorLegal_of {s : State} {n : SensorName} {r : Sensor} (hr : s.board.sensor n = some r)
    (hp : r.cls = .always ∨ s.power ≠ .offOff) : sensorLegal s.board s.power n = true := by
  unfold sensorLegal
  rw [hr]
  rcases hp with h | h
  · simp [h]
  · cases hpw : s.power <;> simp_all [Power.payloadOn]

theorem payloadOn_of {p : Power} (h : p ≠ .offOff) : p.payloadOn = true := by cases p <;> simp_all [Power.payloadOn]

theorem off_of {p : Power} (h : p = .offOff) : p.payloadOn = false := by rw [h]; rfl

theorem gateLegal_dac (b : Board) (p : Power) (cmd : DacCommand) (ch v : Nat) :
    gateLegal b p (cmd.instr ch v) = p.payloadOn := by cases cmd <;> rfl

theorem millivolts_le (c : BitVec 12) (v : Nat) : c.toNat * v / 4095 ≤ v := by
  have : c.toNat * v ≤ 4095 * v := Nat.mul_le_mul_right _ (by omega)
  calc c.toNat * v / 4095 ≤ 4095 * v / 4095 := Nat.div_le_div_right this
    _ = v := by simp

/-- The scale of R212 stays in 8 bits. -/
theorem ohms2Count_le {wiperR maxR : Nat} (x : Int) (h : wiperR < maxR) : ohms2Count wiperR maxR 255 x ≤ 255 := by
  unfold ohms2Count clampInt
  have : (max (wiperR : Int) (min x maxR) - wiperR).toNat ≤ maxR - wiperR := by omega
  calc _ ≤ (maxR - wiperR) * 255 / (maxR - wiperR) := Nat.div_le_div_right (Nat.mul_le_mul_right _ this)
    _ = 255 := Nat.mul_div_cancel_left _ (by omega)

/-- The wiper count of a heater target fits 8 bits (R244). -/
theorem heaterWiper_lt {b : Board} (h : b.wf = true) (mv : Int) : b.heaterWiper mv < 256 := by
  obtain ⟨h1, h2⟩ := wf_digipot h
  have := ohms2Count_le (b.calibrate b.calHeaterMvToOhms (b.clampTarget .heater mv)) h1
  rw [Board.heaterWiper, Board.ohms2Count, h2]; omega

theorem wf_range {b : Board} (h : b.wf = true) (u : Supply) : (b.supplyRange u).minMv ≤ (b.supplyRange u).maxMv := by
  have := (wf_parts h).2.2.2.2.2.2
  simp only [Board.rangesOk, Bool.and_eq_true, decide_eq_true_eq] at this
  cases u
  · exact this.1.1
  · exact this.1.2
  · exact this.2

theorem clampTarget_clamped {b : Board} (h : b.wf = true) (u : Supply) (mv : Int) :
    b.clampTarget u (max (b.supplyRange u).minMv (min mv (b.supplyRange u).maxMv)) = b.clampTarget u mv := by
  have hr := wf_range h u
  unfold Board.clampTarget clampInt; omega

theorem clampTarget_mem {b : Board} (h : b.wf = true) (u : Supply) (mv : Int) :
    (b.supplyRange u).minMv ≤ b.clampTarget u mv ∧ b.clampTarget u mv ≤ (b.supplyRange u).maxMv := by
  have hr := wf_range h u
  unfold Board.clampTarget clampInt; omega

/-- On a well-formed board the counts of the voltage sets are 12-bit counts for every target (R7, R245, R246). -/
theorem wf_counts {b : Board} (h : b.wf = true) (mv : Int) :
    (0 ≤ b.tetherCount mv ∧ b.tetherCount mv ≤ 4095) ∧ (0 ≤ b.cathodeCount mv ∧ b.cathodeCount mv ≤ 4095) := by
  have hc : b.countsOk = true := by
    simp only [Board.wf, Bool.and_eq_true] at h
    exact h.1.2
  simp only [Board.countsOk, Bool.and_eq_true] at hc
  have ht := clampTarget_mem h .tetherBias mv
  have hk := clampTarget_mem h .cathodeOffset mv
  exact ⟨(countInRange_iff _).1 ((countsIn_iff b (wf_range h .tetherBias) _).1 hc.1 _ ht.1 ht.2),
    (countInRange_iff _).1 ((countsIn_iff b (wf_range h .cathodeOffset) _).1 hc.2 _ hk.1 hk.2)⟩

theorem sensorEncode {b : Board} {n : SensorName} {r : Sensor} (h : b.sensor n = some r) :
    encodeSensor b n = encodeAdc r.adc r.channel := by rw [encodeSensor, h]

theorem sensorAt_mem {a : AdcId} {k : Nat} {l : List (SensorName × Sensor)} {r : Sensor} {n :
    SensorName} (h : (n, r) ∈ l) (ha : r.adc = a)
    (hk : r.channel = k) : ∃ n' r', sensorAt a k l = some n' ∧ (n', r') ∈ l ∧ r'.adc = a ∧ r'.channel = k := by
  induction l with
  | nil => cases h
  | cons p rest ih =>
    obtain ⟨n0, r0⟩ := p
    unfold sensorAt
    split
    · rename_i hc; exact ⟨n0, r0, rfl, List.mem_cons_self, hc.1, hc.2⟩
    · rename_i hc
      rcases List.mem_cons.1 h with h | h
      · cases h; exact absurd ⟨ha, hk⟩ hc
      · obtain ⟨n', r', h1, h2, h3⟩ := ih h
        exact ⟨n', r', h1, List.mem_cons_of_mem _ h2, h3⟩

theorem command_code {b : Board} (hw : b.wf = true) (cmd : DacCommand) :
    b.dacCodes.command (b.dacCodes.code cmd) = some cmd := by
  have hd := (wf_parts hw).2.2.2.2.1
  simp only [Board.dacOk, Bool.and_eq_true, decide_eq_true_eq] at hd
  have hn := hd.1.1
  have hinj : ∀ c, b.dacCodes.code c = b.dacCodes.code cmd → c = cmd := by
    intro c h
    have := List.inj_on_of_nodup_map hn (x := c) (by cases c <;> decide) (y := cmd) (by cases cmd <;> decide) h
    exact this
  have hp : (fun c => decide (b.dacCodes.code c = b.dacCodes.code cmd)) = fun c => decide (c = cmd) := by
    funext c
    exact decide_eq_decide.2 ⟨hinj c, fun h => by rw [h]⟩
  unfold DacCodes.command
  rw [hp]
  cases cmd <;> rfl

end Sys2Proof.Machine
end

