-- ==== Sys2Proof/Laws/Transaction.lean ====
section
/-! SUPPORT. What a sequence of transfers and a device transaction do, said once. -/

namespace Sys2Proof.Machine

/-! ## Sequences of transfers -/

/-- The bits `out` have been sent from `s`, under the configuration of `s`, and `t` is the state after: everything a
transfer may change is said, and nothing else has changed. -/
structure Sent (s t : State) (out : List Bool) : Prop where
  only : t = { s with sr := t.sr, txbuf := t.txbuf, rxbuf := t.rxbuf, sclk := t.sclk, mosi := t.mosi, trace := t.trace,
                      misoIn := t.misoIn, misoDraws := t.misoDraws, errIn := t.errIn, errDraws := t.errDraws,
                      opstate := t.opstate }
  trace : t.trace = s.trace ++ transferEvents s.cfg.val.mode out (s.samples s.cfg.val out)
  sclk : t.sclk = if out = [] then s.sclk else Reg.written s.cfg.val.pol.idleLevel
  mosi : t.mosi = match out.getLast? with
    | none => s.mosi
    | some b => Reg.written b
  misoIn : t.misoIn = if s.cfg.val.loopback then s.misoIn else s.misoIn.drop out.length
  misoDraws : t.misoDraws = if s.cfg.val.loopback then s.misoDraws else s.misoDraws + (out.length - s.misoIn.length)

theorem Sent.cfg {s t : State} {out : List Bool} (h : Sent s t out) : t.cfg = s.cfg := by rw [h.only]
theorem Sent.cs {s t : State} {out : List Bool} (h : Sent s t out) : t.cs = s.cs := by rw [h.only]
theorem Sent.board {s t : State} {out : List Bool} (h : Sent s t out) : t.board = s.board := by rw [h.only]

theorem Sent.refl (s : State) : Sent s s [] := by
  constructor <;> simp [transferEvents]

/-- What is sampled next is what follows what was sampled (R63, R66). -/
theorem Sent.samples {s t : State} {out : List Bool} (h : Sent s t out) (out' : List Bool) :
    s.samples s.cfg.val (out ++ out') = s.samples s.cfg.val out ++ t.samples t.cfg.val out' := by
  rw [samples_append s.cfg.val 0 out out' s, h.cfg]
  congr 1
  exact (samples_congr _ _ (by simp [State.shifted, h.misoIn]) (by simp [State.shifted, h.misoDraws])).symm

theorem Sent.trans {s t u : State} {out out' : List Bool} (h : Sent s t out) (h' : Sent t u out') :
    Sent s u (out ++ out') where
  only := by
    have h1 := h'.only
    rw [h.only] at h1
    exact h1
  trace := by
    rw [h'.trace, h.trace, h.samples, transferEvents_append _ _ _ _ _ (by simp), h.cfg, List.append_assoc]
  sclk := by
    rw [h'.sclk, h.sclk, h.cfg]; cases out <;> cases out' <;> simp
  mosi := by
    rw [h'.mosi, h.mosi, List.getLast?_append]; cases out'.getLast? <;> simp
  misoIn := by
    rw [h'.misoIn, h.misoIn, h.cfg]; split <;> simp
  misoDraws := by
    rw [h'.misoDraws, h.misoDraws, h.misoIn, h.cfg]
    split
    · rfl
    · simp only [List.length_append, List.length_drop]; omega

/-- The environment's answers after the bits `out` (R63). -/
theorem Sent.answers {s t : State} {out : List Bool} (h : Sent s t out) : AnswersUsed s t s.cfg.val out := by
  intro k
  cases hl : s.cfg.val.loopback with
  | true => simp [State.misoAnswer, h.misoIn, h.misoDraws, hl]
  | false =>
    have := misoAnswer_shifted hl 0 out s k
    simp only [Bool.false_eq_true, if_false]
    rw [← this]
    simp [State.misoAnswer, h.misoIn, h.misoDraws, State.shifted]

theorem sent_transferred {n : Nat} (d : Word) {s : State} (h : s.CanTransfer) (hn : n ≠ 0) :
    Sent s (s.transferred n d) (bitsOf n d) := by
  have hne : bitsOf n d ≠ [] := fun h0 => hn (by simpa using congrArg List.length h0)
  constructor
  · rcases h.2.2 with hv | ⟨-, -, h3, h4, h5⟩
    · apply State.ext <;> simp [State.transferred, hv]
    · cases hv : s.board.variant <;> apply State.ext <;> simp [State.transferred, hv, h3, h4, h5]
  · rfl
  · simp [State.transferred, hne]
  · simp [State.transferred, bitsOf_getLast?, hn]
  · simp [State.transferred]
  · simp [State.transferred]

/-- The transfers of a list one after the other; the answer is the word of the last. -/
def sendAll : Word → List (Nat × Word) → State → Run Word
  | w, [], s => .ok w s
  | _, (n, d) :: rest, s => (transfer n d s).bind fun w s => sendAll w rest s

/-- The bits of a list of transfers. -/
def bitsAll : List (Nat × Word) → List Bool
  | [] => []
  | (n, d) :: rest => bitsOf n d ++ bitsAll rest

/-- The words a list of transfers receives. -/
def wordsAll : List (Nat × Word) → List Bool → List Word
  | [], _ => []
  | (n, _) :: rest, bs => packBits (bs.take n) :: wordsAll rest (bs.drop n)

/-- Every transfer of a list has a bit count of the contract (R67). -/
def countsOk (segs : List (Nat × Word)) : Prop := ∀ x ∈ segs, 1 ≤ x.1 ∧ x.1 ≤ 32

theorem noError_transferred {n k : Nat} {d : Word} {s : State} (h : s.NoError (k + 1)) :
    (s.transferred n d).NoError k := by
  rcases h with hv | h
  · exact .inl hv
  · cases hv : s.board.variant with
    | softwareTimed => exact .inl hv
    | peripheralTimed =>
      right; intro j hj
      rw [errAnswer_transferred hv]; exact h (j + 1) (by omega)

theorem noError_mono {k j : Nat} {s : State} (h : s.NoError k) (hj : j ≤ k) : s.NoError j := by
  rcases h with hv | h
  · exact .inl hv
  · exact .inr fun i hi => h i (by omega)

/-- Where no error comes, all transfers of a list run (R126). -/
theorem sendAll_ok {segs : List (Nat × Word)} (w : Word) {s : State} (h : s.CanTransfer) (hs : countsOk segs)
    (he : s.NoError segs.length) :
    ∃ t, sendAll w segs s = .ok ((wordsAll segs (s.samples s.cfg.val (bitsAll segs))).getLastD w) t
      ∧ Sent s t (bitsAll segs) ∧ t.CanTransfer := by
  induction segs generalizing w s with
  | nil => exact ⟨s, rfl, Sent.refl s, h⟩
  | cons x rest ih =>
    obtain ⟨n, d⟩ := x
    obtain ⟨h1, h32⟩ := hs (n, d) (by simp)
    have hsent := sent_transferred d h (show n ≠ 0 by omega)
    obtain ⟨t, ht, hst, hct⟩ := ih (s.received n d) (s := s.transferred n d) (canTransfer_transferred h)
      (fun x hx => hs x (List.mem_cons_of_mem _ hx)) (noError_transferred he)
    refine ⟨t, ?_, hsent.trans hst, hct⟩
    rw [sendAll, transfer_of_ready d h h1 h32, transferError_none h (noError_mono he (by simp))]
    simp only [Run.bind_ok, ht, wordsAll, bitsAll]
    congr 1
    rw [hsent.samples]
    simp only [samples_length, bitsOf_length, List.take_left', List.drop_left', List.getLastD_cons]
    rfl

/-- Where the `j`-th transfer of a list is the first to draw an error, the rest is not issued (R165, R302). -/
theorem sendAll_raise {segs : List (Nat × Word)} (w : Word) {s : State} {j : Nat} (h : s.CanTransfer) (hs : countsOk segs)
    (hv : s.board.variant = .peripheralTimed) (hj : j < segs.length) (he : ∀ k < j, s.errAnswer k = (false, false))
    (hej : s.errAnswer j ≠ (false, false)) :
    ∃ t, sendAll w segs s = .raise (if (s.errAnswer j).1 then .framing
        else .overrun ((wordsAll segs (s.samples s.cfg.val (bitsAll (segs.take (j + 1))))).getD j 0)) t
      ∧ Sent s t (bitsAll (segs.take (j + 1))) := by
  induction segs generalizing w s j with
  | nil => simp at hj
  | cons x rest ih =>
    obtain ⟨n, d⟩ := x
    obtain ⟨h1, h32⟩ := hs (n, d) (by simp)
    have hsent := sent_transferred d h (show n ≠ 0 by omega)
    rw [sendAll, transfer_of_ready d h h1 h32]
    cases j with
    | zero =>
      rw [transferError_some h hv hej]
      refine ⟨s.transferred n d, ?_, by simpa [bitsAll] using hsent⟩
      simp [wordsAll, bitsAll, State.received, List.take_of_length_le]
    | succ j =>
      have he1 : s.NoError 1 := .inr fun k hk => he k (by omega)
      rw [transferError_none h he1]
      obtain ⟨t, ht, hst⟩ := ih (s.received n d) (s := s.transferred n d) (j := j) (canTransfer_transferred h)
        (fun x hx => hs x (List.mem_cons_of_mem _ hx)) hv (by simpa using hj)
        (fun k hk => by rw [errAnswer_transferred hv]; exact he (k + 1) (by omega))
        (by rw [errAnswer_transferred hv]; exact hej)
      refine ⟨t, ?_, by simpa [bitsAll] using hsent.trans hst⟩
      simp only [Run.bind_ok, ht, errAnswer_transferred hv, List.take_succ_cons, bitsAll, wordsAll, List.getD_cons_succ]
      rw [hsent.samples]
      simp

/-! ## Device transactions -/

/-- The state in which the transfers of a transaction begin: the device's mode in force, its chip select low (R70). -/
def State.opened (d : Dev) (m : Mode) (s : State) : State := (s.ensured m).pinWrite (.cs d) false

theorem withMode_supported {c : BusConfig} {m : Mode} (h : c.supported = true) : (c.withMode m).supported = true := h

theorem ensured_cfg {m : Mode} {s : State} (h : s.BusUp) : (s.ensured m).cfg = Reg.written (s.cfgFor m) := by
  unfold State.ensured State.cfgFor
  split
  · have := h.2.1
    cases hc : s.cfg
    simp_all [Reg.written]
  · rw [applyConfig_eq]

theorem cfgFor_mode {m : Mode} {s : State} (h : s.BusUp) : (s.cfgFor m).mode = m := by
  unfold State.cfgFor
  split
  · rename_i hm; rw [h.2.2] at hm; simpa using hm
  · rfl

theorem ensured_trace (m : Mode) (s : State) : (s.ensured m).trace = s.trace ++ ensureEvents s m := by
  unfold State.ensured ensureEvents
  split
  · simp
  · rw [applyConfig_eq]; rfl

theorem ensured_cfgCur {m : Mode} {s : State} (h : s.BusUp) : (s.ensured m).cfgCur = Reg.written m := by
  unfold State.ensured
  split
  · rename_i hm; rw [h.2.2] at hm ⊢; rw [show s.cfg.val.mode = m from hm]
  · rw [applyConfig_eq]; rfl

/-- What `EnsureConfig` may change where the peripheral is ready (R122, R135). -/
theorem ensured_only {m : Mode} {s : State} (h : s.PeripheralReady) :
    s.ensured m = { s with cfg := (s.ensured m).cfg, cfgCur := (s.ensured m).cfgCur, sclk := (s.ensured m).sclk,
                           trace := (s.ensured m).trace } := by
  unfold State.ensured
  split
  · rfl
  · rw [applyConfig_eq]
    rcases h with hv | ⟨h1, h2, h3, h4, h5⟩
    · apply State.ext <;> simp [hv]
    · cases hv : s.board.variant <;> apply State.ext <;> simp [h1, h2, h3, h4, h5]

theorem canTransfer_opened {d : Dev} {m : Mode} {s : State} (h : s.CanTransfer) : (s.opened d m).CanTransfer := by
  obtain ⟨hu, hs, hp⟩ := h
  have ho := ensured_only (m := m) hp
  have hc := ensured_cfg (m := m) hu
  have hcc := ensured_cfgCur (m := m) hu
  have hb : (s.ensured m).busReady = s.busReady := by rw [ho]
  have hbd : (s.ensured m).board = s.board := by rw [ho]
  refine ⟨⟨?_, ?_, ?_⟩, ?_, ?_⟩
  · show (s.ensured m).busReady = true
    rw [hb]; exact hu.1
  · show (s.ensured m).cfg.specified = true
    rw [hc]; rfl
  · show (s.ensured m).cfgCur = Reg.written (s.ensured m).cfg.val.mode
    rw [hcc, hc]; exact congrArg Reg.written (cfgFor_mode hu).symm
  · show (s.ensured m).cfg.val.supported = true
    rw [hc]
    show (s.cfgFor m).supported = true
    unfold State.cfgFor; split <;> exact hs
  · rcases hp with hv | hp
    · left; show (s.ensured m).board.variant = _; rw [hbd]; exact hv
    · right
      obtain ⟨h1, h2, h3, h4, h5⟩ := hp
      show (s.ensured m).swrst = _ ∧ (s.ensured m).txrdy = _ ∧ (s.ensured m).rxrdy = _ ∧ (s.ensured m).fe = _
        ∧ (s.ensured m).oe = _
      rw [ho]; exact ⟨h1, h2, h3, h4, h5⟩

theorem opened_cfg {d : Dev} {m : Mode} {s : State} (h : s.BusUp) : (s.opened d m).cfg = Reg.written (s.cfgFor m) :=
  ensured_cfg h

theorem opened_answers {d : Dev} {m : Mode} {s : State} (h : s.PeripheralReady) :
    (s.opened d m).misoIn = s.misoIn ∧ (s.opened d m).misoDraws = s.misoDraws ∧ (s.opened d m).errIn = s.errIn
      ∧ (s.opened d m).errDraws = s.errDraws ∧ (s.opened d m).board = s.board := by
  have ho := ensured_only (m := m) h
  refine ⟨?_, ?_, ?_, ?_, ?_⟩
  · show (s.ensured m).misoIn = _; rw [ho]
  · show (s.ensured m).misoDraws = _; rw [ho]
  · show (s.ensured m).errIn = _; rw [ho]
  · show (s.ensured m).errDraws = _; rw [ho]
  · show (s.ensured m).board = _; rw [ho]

theorem opened_samples {d : Dev} {m : Mode} {s : State} (h : s.CanTransfer) (out : List Bool) :
    (s.opened d m).samples (s.opened d m).cfg.val out = s.samples (s.cfgFor m) out := by
  rw [opened_cfg h.1]
  exact samples_congr _ _ (opened_answers h.2.2).1 (opened_answers h.2.2).2.1

theorem opened_errAnswer {d : Dev} {m : Mode} {s : State} (h : s.PeripheralReady) (k : Nat) :
    (s.opened d m).errAnswer k = s.errAnswer k := by
  simp only [State.errAnswer, (opened_answers h).2.2.1, (opened_answers h).2.2.2.1]

theorem opened_noError {d : Dev} {m : Mode} {s : State} {k : Nat} (h : s.PeripheralReady) (he : s.NoError k) :
    (s.opened d m).NoError k := by
  rcases he with hv | he
  · left; rw [(opened_answers h).2.2.2.2]; exact hv
  · right; intro j hj; rw [opened_errAnswer h]; exact he j hj

/-- A transaction is its body between the two writes of the chip select, under the device's mode (R70, R135), with the
configuration put back after an error (R302). -/
theorem transaction_eq {α : Type} {d : Dev} {m : Mode} {s : State} (body : State → Run α) (hu : s.BusUp)
    (hm : s.board.devMode d = some m) :
    transaction d body s = ((body (s.opened d m)).deassert d).restoring s := by
  simp only [transaction, ensureConfig_ok hu hm, Run.bind_ok]; rfl

/-- The chip select after the bits of a transaction (R70). -/
theorem closed_trace {d : Dev} {m : Mode} {s t : State} {out : List Bool} (h : s.CanTransfer)
    (hs : Sent (s.opened d m) t out) :
    (t.pinWrite (.cs d) true).trace = s.trace ++ transactionEvents s d m out := by
  show t.trace ++ [.pin (.cs d) true] = _
  rw [hs.trace, opened_samples h, opened_cfg h.1]
  show (s.ensured m).trace ++ [.pin (.cs d) false] ++ _ ++ _ = _
  rw [ensured_trace, transactionEvents]
  simp [Reg.written]

/-- What the opening of a transaction may change where the peripheral is ready. -/
theorem opened_only {d : Dev} {m : Mode} {s : State} (h : s.PeripheralReady) :
    s.opened d m = { s with cfg := (s.opened d m).cfg, cfgCur := (s.opened d m).cfgCur, sclk := (s.opened d m).sclk,
                            trace := (s.opened d m).trace, cs := (s.opened d m).cs } := by
  unfold State.opened
  rw [ensured_only h]
  rfl

theorem opened_cs {d : Dev} {m : Mode} {s : State} (h : s.PeripheralReady) : (s.opened d m).cs = setCs d false s.cs := by
  show setCs d false (s.ensured m).cs = _
  rw [ensured_only h]

/-- A transaction that has sent the bits `out` and whose operation has ended is over. -/
theorem transactionDone_of_sent {d : Dev} {m : Mode} {s t u : State} {i : Instr} {out : List Bool} (h : s.CanTransfer)
    (hne : out ≠ []) (hs : Sent ((s.begin i).opened d m) t out)
    (hu : u = { t.pinWrite (.cs d) true with opstate := s.opstate, completion := u.completion }) :
    TransactionDone s u d m out := by
  have h' : (s.begin i).CanTransfer := h
  have ht := closed_trace h' hs
  have ho := hs.only
  have hc := opened_cfg (d := d) (m := m) h'.1
  have hcc := opened_only (d := d) (m := m) h'.2.2
  have hcs := opened_cs (d := d) (m := m) h'.2.2
  have ha := hs.answers
  have hsc := hs.sclk
  have hmo := hs.mosi
  have hcur := ensured_cfgCur (m := m) h'.1
  have hucs : ∀ e, u.csReg e = (t.pinWrite (.cs d) true).csReg e := fun e => csReg_congr (by rw [hu]) e
  have huc : ∀ k, u.misoAnswer k = t.misoAnswer k := fun k => by rw [hu]; rfl
  refine ⟨?_, ?_, ?_, ?_, ?_, ?_, ⟨?_, ?_⟩, ?_⟩
  · rw [hu]; exact ht
  · rw [hu]; show t.cfg = _
    rw [hs.cfg, hc]; rfl
  · rw [hu]; show t.cfgCur = _
    rw [ho]; exact hcur
  · rw [hu]; show t.sclk = _
    rw [hsc, if_neg hne, hc]
    show Reg.written ((s.begin i).cfgFor m).mode.pol.idleLevel = _
    rw [cfgFor_mode h'.1]
  · intro b hb
    rw [hu]; show t.mosi = _
    rw [hmo, hb]
  · intro k
    rw [huc, ha k, hc]
    simp only [State.misoAnswer, opened_answers h'.2.2]
    rfl
  · rw [hucs, csReg_pinWrite_cs, if_pos rfl]
  · intro e he
    rw [hucs, csReg_pinWrite_cs, if_neg he, csReg_congr hs.cs]
    simp only [State.csReg, hcs, assoc_setCs, if_neg he]
    rfl
  · show u = _
    rw [hu, ho, hcc]; rfl

/-- A register that holds a value the spec gives is the register just written with its value. -/
theorem written_of_specified {α : Type} {r : Reg α} (h : r.specified = true) : Reg.written r.val = r := by
  cases r; cases h; rfl

/-- A transaction that has sent the bits `out` and whose operation has raised is over (R302). -/
theorem transactionFailed_of_sent {d : Dev} {m : Mode} {s t u : State} {i : Instr} {out : List Bool} (h : s.CanTransfer)
    (hv : s.board.variant = .peripheralTimed) (hne : out ≠ []) (hs : Sent ((s.begin i).opened d m) t out)
    (hu : u = { s.restoreConfig (t.pinWrite (.cs d) true) with opstate := s.opstate, completion := u.completion }) :
    TransactionFailed s u d m out := by
  obtain ⟨v, hvv⟩ : ∃ v : State, v = { t.pinWrite (.cs d) true with opstate := s.opstate, completion := u.completion } :=
    ⟨_, rfl⟩
  have hd := transactionDone_of_sent h hne hs (u := v) (by rw [hvv])
  obtain ⟨h1, h2, h3, h4, h5, h6, h7, h8⟩ := hd
  have hcur : t.cfgCur = Reg.written m := by
    rw [hs.only]
    exact ensured_cfgCur (s := s.begin i) h.1
  have hc := h.1.2.2
  have hcfg : Reg.written s.cfg.val = s.cfg := written_of_specified h.1.2.1
  have hcv : (t.pinWrite (.cs d) true).cfgCur.val = m := by rw [State.pinWrite_cfgCur, hcur]; rfl
  by_cases hm : m = s.cfgCur.val
  · have hr : s.restoreConfig (t.pinWrite (.cs d) true) = t.pinWrite (.cs d) true := by
      rw [State.restoreConfig, if_pos (hcv.trans hm)]
    have he : u = v := hu.trans ((congrArg
      (fun x : State => { x with opstate := s.opstate, completion := u.completion }) hr).trans hvv.symm)
    have hcf : s.cfgFor m = s.cfg.val := by rw [State.cfgFor, if_pos hm.symm]
    have hmode : s.cfg.val.mode = m := by rw [hm, hc]; rfl
    rw [he]
    refine ⟨by rw [h1, restoreEvents, if_pos hm.symm, List.append_nil], by rw [h2, hcf, hcfg], by rw [h3, hc, hmode],
      by rw [h4, ← hmode]; rfl, h5, h6, h7, h8⟩
  · have he : u = { v with cfg := s.cfg, cfgCur := s.cfgCur, sclk := Reg.written s.cfg.val.pol.idleLevel,
                           trace := v.trace ++ [.pin .sclk s.cfg.val.pol.idleLevel] } := by
      rcases h.2.2 with hsw | ⟨g1, g2, g3, g4, g5⟩
      · rw [hv] at hsw; cases hsw
      · have hvs : v.swrst = false ∧ v.txrdy = true ∧ v.rxrdy = false ∧ v.fe = false ∧ v.oe = false := by
          rw [h8]; exact ⟨g1, g2, g3, g4, g5⟩
        rw [hvv] at hvs
        have htv : t.board.variant = .peripheralTimed := by
          have : t.board = s.board := by
            rw [hs.board, (opened_answers (s := s.begin i) h.2.2).2.2.2.2]; rfl
          rw [this]; exact hv
        have hr : s.restoreConfig (t.pinWrite (.cs d) true) = (t.pinWrite (.cs d) true).applyConfig s.cfg.val := by
          rw [State.restoreConfig, if_neg (by rw [hcv]; exact hm)]
        rw [applyConfig_eq] at hr
        rw [hvv]
        refine hu.trans ((congrArg
          (fun x : State => { x with opstate := s.opstate, completion := u.completion }) hr).trans ?_)
        obtain ⟨k1, k2, k3, k4, k5⟩ := hvs
        apply State.ext <;> first
          | rfl
          | exact hcfg
          | exact hc.symm
          | (simp only [State.pinWrite_board, htv]; exact k1.symm)
          | (simp only [State.pinWrite_board, htv]; exact k2.symm)
          | (simp only [State.pinWrite_board, htv]; exact k3.symm)
          | (simp only [State.pinWrite_board, htv]; exact k4.symm)
          | (simp only [State.pinWrite_board, htv]; exact k5.symm)
    have hcs : ∀ e, u.csReg e = v.csReg e := fun e => csReg_congr (by rw [he]) e
    have ha : ∀ k, u.misoAnswer k = v.misoAnswer k := fun k => by rw [he]; rfl
    refine ⟨?_, by rw [he], by rw [he], by rw [he], ?_, fun k => by rw [ha]; exact h6 k, ⟨?_, ?_⟩, ?_⟩
    · rw [restoreEvents, if_neg (fun hx => hm hx.symm), ← h1, he]
    · intro b hb
      rw [he]; exact h5 b hb
    · rw [hcs]; exact h7.1
    · intro e hne'; rw [hcs]; exact h7.2 e hne'
    · show u = _
      rw [he, h8]

end Sys2Proof.Machine
end

