-- ==== Sys2Proof/Laws/Exec.lean ====
section
/-! SUPPORT. Each operation as its admission,
its body and its end; and that a body does not depend on the sequencer's position. -/

namespace Sys2Proof.Machine

theorem exec_dac (cmd : DacCommand) (ch v : Nat) (s : State) :
    exec (cmd.instr ch v) s = issueUnit (cmd.instr ch v) (dacSend cmd ch v) s := by cases cmd <;> rfl

def State.at (o : OpState) (s : State) : State := { s with opstate := o }

/-- Two runs that agree but for the sequencer's position. -/
def Run.Same {α : Type} : Run α → Run α → Prop
  | .ok a s, .ok b t => a = b ∧ ∃ o, t = s.at o
  | .raise d s, .raise e t => d = e ∧ ∃ o, t = s.at o
  | .refuse r, .refuse q => r = q
  | .fault f, .fault g => f = g
  | _, _ => False

theorem Run.Same.bind {α β : Type} {x y : Run α} {f : α → State → Run β} (h : x.Same y)
    (hf : ∀ a s o, (f a s).Same (f a (s.at o))) : (x.bind f).Same (y.bind f) := by
  cases x <;> cases y <;> simp only [Run.Same] at h
  · obtain ⟨rfl, o, rfl⟩ := h; exact hf _ _ _
  · obtain ⟨rfl, o, rfl⟩ := h; exact ⟨rfl, o, rfl⟩
  · exact h
  · exact h

theorem Run.Same.deassert {α : Type} {d : Dev} {x y : Run α} (h : x.Same y) : (x.deassert d).Same (y.deassert d) := by
  cases x <;> cases y <;> simp only [Run.Same] at h
  · obtain ⟨rfl, o, rfl⟩ := h; exact ⟨rfl, o, rfl⟩
  · obtain ⟨rfl, o, rfl⟩ := h; exact ⟨rfl, o, rfl⟩
  · exact h
  · exact h

theorem restoreConfig_at (b s : State) (o p : OpState) :
    (b.at p).restoreConfig (s.at o) = (b.restoreConfig s).at o := by
  unfold State.restoreConfig
  show (if s.cfgCur.val = b.cfgCur.val then _ else (s.at o).applyConfig b.cfg.val) = _
  split
  · rfl
  · rw [applyConfig_eq, applyConfig_eq]; rfl

theorem Run.Same.restoring {α : Type} {b : State} {p : OpState} {x y : Run α} (h : x.Same y) :
    (x.restoring b).Same (y.restoring (b.at p)) := by
  cases x <;> cases y <;> simp only [Run.Same] at h
  · exact h
  · obtain ⟨rfl, o, rfl⟩ := h; exact ⟨rfl, o, restoreConfig_at _ _ _ _⟩
  · exact h
  · exact h

theorem Run.Same.complete {α : Type} {x y : Run α} (h : x.Same y) (f : α → Result) : x.complete f = y.complete f := by
  cases x <;> cases y <;> simp only [Run.Same] at h
  · obtain ⟨rfl, o, rfl⟩ := h; rfl
  · obtain ⟨rfl, o, rfl⟩ := h; rfl
  · rw [h]
  · rw [h]

/-- A body that only maps the value of another one returns that one's result mapped (R107). -/
theorem Run.Same.complete_map {α β : Type} {x y : Run α} (h : x.Same y) {g : α → β} {f : α → Result} {f' : β → Result}
    {m : Result → Result} (hm : ∀ a, m (f a) = f' (g a)) :
    (x.bind fun a s => .ok (g a) s).complete f' = mapDone m (y.complete f) := by
  cases x <;> cases y <;> simp only [Run.Same] at h
  · obtain ⟨rfl, o, rfl⟩ := h; show Host.Outcome.next (State.finish _ _) = .next (State.finish _ _); rw [hm]; rfl
  · obtain ⟨rfl, o, rfl⟩ := h; rfl
  · subst h; rfl
  · subst h; rfl

theorem transfer_same (n : Nat) (d : Word) (s : State) (o : OpState) : (transfer n d s).Same (transfer n d (s.at o)) :=
    by
  rw [transfer_eq, transfer_eq]
  have h1 : transferRefusal n (s.at o) = transferRefusal n s := rfl
  have h2 : (s.at o).transferError n d = s.transferError n d := rfl
  rw [h1, h2]
  cases transferRefusal n s with
  | some r => rfl
  | none =>
    show Run.Same (if _ then _ else _) (if _ then _ else _)
    have h3 : ((s.at o).board.variant = .peripheralTimed ∧ ((s.at o).swrst || !(s.at o).txrdy) = true)
      = (s.board.variant = .peripheralTimed ∧ (s.swrst || !s.txrdy) = true) := rfl
    split <;> rename_i h4
    · rw [if_pos (h3 ▸ h4)]; rfl
    · rw [if_neg (h3 ▸ h4)]
      cases s.transferError n d with
      | some e => exact ⟨rfl, o.next, rfl⟩
      | none => exact ⟨rfl, o.next, rfl⟩

theorem ensureConfig_same (d : Dev) (s : State) (o : OpState) : (ensureConfig d s).Same (ensureConfig d (s.at o)) := by
  unfold ensureConfig
  show Run.Same (if _ then _ else _) (if !s.busReady then _ else _)
  split
  · rfl
  · show Run.Same (if _ then _ else _) (if !(s.cfg.specified && s.cfgCur.specified) then _ else _)
    split
    · rfl
    · have hb : (s.at o).board = s.board := rfl
      rw [hb]
      cases s.board.devMode d with
      | none => rfl
      | some m =>
        show Run.Same (if s.cfgCur.val = m then _ else _) (if s.cfgCur.val = m then _ else _)
        split
        · exact ⟨rfl, o, rfl⟩
        · unfold reconfigure
          show Run.Same (if _ then _ else _) (if !s.busReady then _ else _)
          split
          · rfl
          · refine ⟨rfl, o, ?_⟩
            rw [applyConfig_eq, applyConfig_eq]; rfl

theorem transaction_same {α : Type} {d : Dev} {body : State → Run α} (hb : ∀ s o, (body s).Same (body (s.at o)))
    (s : State) (o : OpState) : (transaction d body s).Same (transaction d body (s.at o)) :=
  (ensureConfig_same d s o).bind fun _ s o => (hb (s.pinWrite (.cs d) false) o).deassert.restoring

theorem transferSend_same (n : Nat) (d : Word) (s : State) (o : OpState) :
    (transferSend n d s).Same (transferSend n d (s.at o)) :=
  (transfer_same n d s o).bind fun _ _ o => ⟨rfl, o, rfl⟩

theorem dacSend_same (cmd : DacCommand) (ch v : Nat) (s : State) (o : OpState) :
    (dacSend cmd ch v s).Same (dacSend cmd ch v (s.at o)) := by
  unfold dacSend; split
  · exact transaction_same (transferSend_same _ _) s o
  · rfl

theorem dpotSend_same (h w : Nat) (s : State) (o : OpState) :
    (dpotSend h w s).Same (dpotSend h w (s.at o)) := by
  unfold dpotSend; split
  · exact transaction_same (transferSend_same _ _) s o
  · rfl

theorem adcSegments_same (k : Nat) (s : State) (o : OpState) : (adcSegments k s).Same (adcSegments k (s.at o)) := by
  unfold adcSegments
  split
  · exact (transfer_same _ _ s o).bind fun _ _ o => ⟨rfl, o, rfl⟩
  · refine (transferSend_same _ _ s o).bind fun _ s o => ?_
    refine (transferSend_same _ _ s o).bind fun _ s o => ?_
    refine (transfer_same _ _ s o).bind fun _ s o => ?_
    refine (transfer_same _ _ s o).bind fun _ s o => ?_
    exact (transfer_same _ _ s o).bind fun _ _ o => ⟨rfl, o, rfl⟩

theorem readCountOf_same (a : AdcId) (r : Sensor) (s : State) (o : OpState) :
    (readCountOf a r s).Same (readCountOf a r (s.at o)) := by
  unfold readCountOf; split
  · exact transaction_same (adcSegments_same _) s o
  · rfl

theorem readMvOf_same (a : AdcId) (r : Sensor) (s : State) (o : OpState) :
    (readMvOf a r s).Same (readMvOf a r (s.at o)) :=
  (readCountOf_same a r s o).bind fun _ _ o => ⟨rfl, o, rfl⟩

theorem readSensor_same (n : SensorName) (s : State) (o : OpState) :
    (readSensor n s).Same (readSensor n (s.at o)) := by
  unfold readSensor withSensor
  show Run.Same _ (match s.board.sensor n with | none => _ | some r => _)
  cases s.board.sensor n with
  | none => rfl
  | some r => exact (readMvOf_same r.adc r s o).bind fun _ _ o => ⟨rfl, o, rfl⟩

theorem issue_ends {α : Type} {i : Instr} {f : α → Result} {body : State → Run α} {s : State} (ha : s.Admits) :
    issue i f body s = if gateLegal s.board s.power i = true then
        (body (s.begin i)).complete f else .refused .illegalInState := by
  split
  · rename_i h; exact issue_of_admits ha h
  · rename_i h; exact issue_of_gate ha.1 (by simpa using h)

/-- Two operations with the same gate whose bodies agree but for the sequencer's position have the same outcome. -/
theorem issue_congr {α : Type} {i j : Instr} {f : α → Result} {bi bj : State → Run α} {s : State} (ha : s.Admits)
    (hg : gateLegal s.board s.power i = gateLegal s.board s.power j)
    (hb : (bi (s.begin i)).Same (bj (s.begin j))) : issue i f bi s = issue j f bj s := by
  rw [issue_ends ha, issue_ends ha, hg, hb.complete f]

theorem begin_at (i j : Instr) (s : State) : s.begin j = (s.begin i).at (.busy j ⟨0, 0⟩) := rfl

theorem dacSend_begin (cmd : DacCommand) (ch v : Nat) (i j : Instr) (s : State) :
    (dacSend cmd ch v (s.begin i)).Same (dacSend cmd ch v (s.begin j)) := by
  rw [begin_at i j]; exact dacSend_same _ _ _ _ _

theorem dpotSend_begin (h w : Nat) (i j : Instr) (s : State) :
    (dpotSend h w (s.begin i)).Same (dpotSend h w (s.begin j)) := by
  rw [begin_at i j]; exact dpotSend_same _ _ _ _

theorem dacSet_begin (ch : BitVec 4) (c : Int) (i j : Instr) (s : State) :
    (dacSet ch c (s.begin i)).Same (dacSet ch c (s.begin j)) := by
  unfold dacSet
  simp only [State.begin_board]
  exact dacSend_begin _ _ _ _ _ _

theorem exec_busInit (baud : Nat) (cfg : BusConfig) (s : State) :
    exec (.busInit baud cfg) s
      = issueBoot (.busInit baud cfg) (fun s =>
          if s.busReady then .refuse .alreadyConstructed else .ok () (s.initBus baud cfg)) s := rfl
theorem exec_busConfig (cfg : BusConfig) (s : State) :
    exec (.busConfig cfg) s = issueUnit (.busConfig cfg) (reconfigure cfg) s := rfl
theorem exec_busIdleLow (s : State) : exec .busIdleLow s = issueUnit .busIdleLow (setIdle .idleLow) s := rfl
theorem exec_busIdleHigh (s : State) : exec .busIdleHigh s = issueUnit .busIdleHigh (setIdle .idleHigh) s := rfl
theorem exec_busXfer (n : Nat) (data : Word) (s : State) :
    exec (.busXfer n data) s = issue (.busXfer n data) .word (transfer n data) s := rfl
theorem exec_busSend (n : Nat) (data : Word) (s : State) :
    exec (.busSend n data) s = issueUnit (.busSend n data) (transferSend n data) s := rfl
theorem exec_busRecv (n : Nat) (s : State) : exec (.busRecv n) s = issue (.busRecv n) .word (transferRecv n) s := rfl
theorem exec_adcReadCount (adc : AdcId) (sensor : SensorName) (s : State) :
    exec (.adcReadCount adc sensor) s
      = issue (.adcReadCount adc sensor) .count12 (withSensor sensor (readCountOf adc)) s := rfl
theorem exec_adcReadMv (adc : AdcId) (sensor : SensorName) (s : State) :
    exec (.adcReadMv adc sensor) s = issue (.adcReadMv adc sensor) .value (withSensor sensor (readMvOf adc)) s := rfl
theorem exec_dacWrite (ch v : Nat) (s : State) :
    exec (.dacWrite ch v) s = issueUnit (.dacWrite ch v) (dacSend .writeOnly ch v) s := rfl
theorem exec_dacUpdate (ch v : Nat) (s : State) :
    exec (.dacUpdate ch v) s = issueUnit (.dacUpdate ch v) (dacSend .updateOnly ch v) s := rfl
theorem exec_dacWriteUpdateOne (ch v : Nat) (s : State) :
    exec (.dacWriteUpdateOne ch v) s = issueUnit (.dacWriteUpdateOne ch v) (dacSend .writeAndUpdateOne ch v) s := rfl
theorem exec_dacWriteUpdateAll (ch v : Nat) (s : State) :
    exec (.dacWriteUpdateAll ch v) s = issueUnit (.dacWriteUpdateAll ch v) (dacSend .writeAndUpdateAll ch v) s := rfl
theorem exec_dacPoweroffChannel (ch v : Nat) (s : State) :
    exec (.dacPoweroffChannel ch v) s = issueUnit (.dacPoweroffChannel ch v) (dacSend .powerOffChannel ch v) s := rfl
theorem exec_dacPoweroffChip (ch v : Nat) (s : State) :
    exec (.dacPoweroffChip ch v) s = issueUnit (.dacPoweroffChip ch v) (dacSend .powerOffChip ch v) s := rfl
theorem exec_dacRefInternal (ch v : Nat) (s : State) :
    exec (.dacRefInternal ch v) s = issueUnit (.dacRefInternal ch v) (dacSend .selectInternalReference ch v) s := rfl
theorem exec_dacRefExternal (ch v : Nat) (s : State) :
    exec (.dacRefExternal ch v) s = issueUnit (.dacRefExternal ch v) (dacSend .selectExternalReference ch v) s := rfl
theorem exec_dacNop (ch v : Nat) (s : State) :
    exec (.dacNop ch v) s = issueUnit (.dacNop ch v) (dacSend .noOp ch v) s := rfl
theorem exec_dacMv2Count (mv : Int) (s : State) :
    exec (.dacMv2Count mv) s
      = issue (.dacMv2Count mv) .count12 (fun s => .ok (BitVec.ofNat 12 (mv2Count s.board.dacVccMv mv)) s) s := rfl
theorem exec_dpotWrite (h w : Nat) (s : State) :
    exec (.dpotWrite h w) s = issueUnit (.dpotWrite h w) (dpotSend h w) s := rfl
theorem exec_dpotOhms2Count (ohms : Int) (s : State) :
    exec (.dpotOhms2Count ohms) s
      = issue (.dpotOhms2Count ohms) .count8 (fun s => .ok (BitVec.ofNat 8 (s.board.ohms2Count ohms)) s) s := rfl
theorem exec_pwrEnablePayload (s : State) :
    exec .pwrEnablePayload s
      = issueUnit .pwrEnablePayload (fun s => .ok () { s.pinWrite .payloadEn true with power := .onOff }) s := rfl
theorem exec_pwrDisablePayload (s : State) :
    exec .pwrDisablePayload s
      = issueUnit .pwrDisablePayload (fun s => .ok () { s.pinWrite .payloadEn false with power := .offOff }) s := rfl
theorem exec_pwrEnableHeater (s : State) :
    exec .pwrEnableHeater s
      = issueUnit .pwrEnableHeater (fun s => .ok () { s.pinWrite .heaterEn true with power := .onOn }) s := rfl
theorem exec_pwrDisableHeater (s : State) :
    exec .pwrDisableHeater s
      = issueUnit .pwrDisableHeater (fun s => .ok () { s.pinWrite .heaterEn false with power := .onOff }) s := rfl
theorem exec_relayConnect (r : Nat) (s : State) :
    exec (.relayConnect r) s = issueUnit (.relayConnect r) (relayDrive r true) s := rfl
theorem exec_relayDisconnect (r : Nat) (s : State) :
    exec (.relayDisconnect r) s = issueUnit (.relayDisconnect r) (relayDrive r false) s := rfl
theorem exec_senseRead (sensor : SensorName) (s : State) :
    exec (.senseRead sensor) s = issue (.senseRead sensor) .value (readSensor sensor) s := rfl
theorem exec_heaterSetMv (mv : Int) (s : State) :
    exec (.heaterSetMv mv) s
      = issueUnit (.heaterSetMv mv) (fun s => dpotSend s.board.digipotHeaterChannel.toNat (s.board.heaterWiper mv) s)
          s := rfl
theorem exec_tetherSetMv (mv : Int) (s : State) :
    exec (.tetherSetMv mv) s
      = issueUnit (.tetherSetMv mv) (fun s => dacSet s.board.tetherChannel (s.board.tetherCount mv) s) s := rfl
theorem exec_cathodeSetMv (mv : Int) (s : State) :
    exec (.cathodeSetMv mv) s
      = issueUnit (.cathodeSetMv mv) (fun s => dacSet s.board.cathodeChannel (s.board.cathodeCount mv) s) s := rfl
theorem exec_heaterGetMv (s : State) :
    exec .heaterGetMv s = issue .heaterGetMv .value (fun s => readSupply s.board.heaterSensors.voltage s) s := rfl
theorem exec_tetherGetMv (s : State) :
    exec .tetherGetMv s = issue .tetherGetMv .value (fun s => readSupply s.board.tetherSensors.voltage s) s := rfl
theorem exec_cathodeGetMv (s : State) :
    exec .cathodeGetMv s = issue .cathodeGetMv .value (fun s => readSupply s.board.cathodeSensors.voltage s) s := rfl
theorem exec_heaterGetMa (s : State) :
    exec .heaterGetMa s = issue .heaterGetMa .value (fun s => readSupply s.board.heaterSensors.current s) s := rfl
theorem exec_tetherGetMa (s : State) :
    exec .tetherGetMa s = issue .tetherGetMa .value (fun s => readSupply s.board.tetherSensors.current s) s := rfl
theorem exec_cathodeGetMa (s : State) :
    exec .cathodeGetMa s = issue .cathodeGetMa .value (fun s => readSupply s.board.cathodeSensors.current s) s := rfl

/-- Two operations with the same gate whose bodies agree but for the sequencer's position have the same outcome. -/
theorem issue_congr_all {α : Type} {i j : Instr} {f : α → Result} {bi bj : State → Run α} {s : State}
    (hg : gateLegal s.board s.power i = gateLegal s.board s.power j)
    (hb : (bi (s.begin i)).Same (bj (s.begin j))) : issue i f bi s = issue j f bj s := by
  have ha : admission false i s = admission false j s := by simp only [admission, hg]
  unfold issue
  rw [ha]
  cases admission false j s with
  | some o => rfl
  | none => exact hb.complete f

/-- The same, where the one body only maps the value of the other. -/
theorem issue_map {α β : Type} {i j : Instr} {f : α → Result} {f' : β → Result} {g : α → β} {m : Result → Result}
    {bi : State → Run β} {bj : State → Run α} {s : State} (hm : ∀ a, m (f a) = f' (g a))
    (hg : gateLegal s.board s.power i = gateLegal s.board s.power j)
    (hi : bi (s.begin i) = (bj (s.begin i)).bind fun a s => .ok (g a) s)
    (hb : (bj (s.begin i)).Same (bj (s.begin j))) : issue i f' bi s = mapDone m (issue j f bj s) := by
  have ha : admission false i s = admission false j s := by simp only [admission, hg]
  unfold issue
  rw [ha]
  cases h : admission false j s with
  | some o =>
    cases o with
    | next t => exact absurd rfl (admission_some h t)
    | fault x => rfl
    | refused r => rfl
  | none =>
    show (bi _).complete f' = mapDone m _
    rw [hi]
    exact hb.complete_map hm

/-- The gate refuses every operation before anything else is checked (R225, R300). -/
theorem exec_gate {i : Instr} {s : State} (ho : s.opstate = .idle) (hg : gateLegal s.board s.power i = false) :
    exec i s = .refused .illegalInState := by
  cases i <;> first
    | (cases hg; done)
    | (simp only [issueUnit, exec_busConfig, exec_busIdleLow, exec_busIdleHigh, exec_busXfer, exec_busSend,
        exec_busRecv, exec_adcReadCount, exec_adcReadMv, exec_dacWrite, exec_dacUpdate, exec_dacWriteUpdateOne,
        exec_dacWriteUpdateAll, exec_dacPoweroffChannel, exec_dacPoweroffChip, exec_dacRefInternal,
        exec_dacRefExternal, exec_dacNop, exec_dacMv2Count, exec_dpotWrite, exec_dpotOhms2Count, exec_pwrEnablePayload,
        exec_pwrDisablePayload, exec_pwrEnableHeater, exec_pwrDisableHeater, exec_relayConnect, exec_relayDisconnect,
        exec_senseRead, exec_heaterSetMv, exec_tetherSetMv, exec_cathodeSetMv, exec_heaterGetMv, exec_tetherGetMv,
        exec_cathodeGetMv, exec_heaterGetMa, exec_tetherGetMa, exec_cathodeGetMa]
       exact issue_of_gate ho hg)

end Sys2Proof.Machine
end

