-- ==== Sys2Proof/Laws/Devices.lean ====
section
/-! SUPPORT. The transactions of the three engines: what each sends and returns,
where no error comes and where one does. -/

namespace Sys2Proof.Machine

theorem Run.bind_assoc {α β γ : Type} (x : Run α) (f : α → State → Run β) (g : β → State → Run γ) :
    (x.bind f).bind g = x.bind fun a s => (f a s).bind g := by cases x <;> rfl

theorem Run.bind_pure {α : Type} (x : Run α) : (x.bind fun a s => .ok a s) = x := by cases x <;> rfl

theorem Run.deassert_bind_ok {α β : Type} (d : Dev) (x : Run α) (f : α → β) :
    (x.bind fun a s => .ok (f a) s).deassert d = (x.deassert d).bind fun a s => .ok (f a) s := by cases x <;> rfl

/-- The transfers of an ADC read of channel `k` (R161). -/
def adcSegs (k : Nat) : List (Nat × Word) :=
  if k = 0 then [(16, 0)] else [(2, 0), (3, BitVec.ofNat 32 k), (11, 0), (4, 0), (12, 0)]

theorem adcSegments_eq (k : Nat) (s : State) :
    adcSegments k s = (sendAll 0 (adcSegs k) s).bind fun w s => .ok (w.setWidth 12) s := by
  unfold adcSegments adcSegs
  split <;> simp only [sendAll, transferSend, transferRecv, Run.bind_assoc, Run.bind_ok]

theorem adcSegs_counts (k : Nat) : countsOk (adcSegs k) := by
  unfold adcSegs countsOk; split <;> simp

theorem bitsAll_adcSegs {k : Nat} (hk : k ≤ 7) : bitsAll (adcSegs k) = adcOut k := by
  have : k = 0 ∨ k = 1 ∨ k = 2 ∨ k = 3 ∨ k = 4 ∨ k = 5 ∨ k = 6 ∨ k = 7 := by omega
  rcases this with rfl | rfl | rfl | rfl | rfl | rfl | rfl | rfl <;> decide +kernel

theorem adcSegs_length (k : Nat) : (adcSegs k).length = (adcBounds k).length := by
  unfold adcSegs adcBounds; split <;> rfl

theorem adcOut_ne (k : Nat) : adcOut k ≠ [] := by
  unfold adcOut; split <;> simp [bitsOf]

theorem adc_word {k : Nat} (hk : k ≤ 7) (s : State) (cfg : BusConfig) (w : Word) :
    ((wordsAll (adcSegs k) (s.samples cfg (bitsAll (adcSegs k)))).getLastD w).setWidth 12 = s.adcCount cfg k := by
  rw [bitsAll_adcSegs hk, State.adcCount]
  have hlen : (s.samples cfg (adcOut k)).length = (adcOut k).length := samples_length _ _ _
  generalize s.samples cfg (adcOut k) = bs at *
  by_cases h0 : k = 0
  · subst h0
    simp only [adcSegs, if_true, wordsAll, List.getLastD_cons, List.getLastD_nil]
    have h16 : bs.length = 16 := hlen
    have hl : (adcOut 0).length = 16 := rfl
    rw [hl, List.take_of_length_le (by omega)]
    show (packBits bs).setWidth 12 = (packBits (bs.drop 4)).setWidth 12
    conv_lhs => rw [← List.take_append_drop 4 bs]
    exact packBits_low (by omega) _ _ (by simp; omega)
  · have h32 : (adcOut k).length = 32 := by simp [adcOut, h0]
    simp only [adcSegs, h0, if_false, wordsAll, List.getLastD_cons, List.getLastD_nil, List.drop_drop, h32]
    rw [List.take_of_length_le (by simp; omega)]

theorem adcCount_congr {s t : State} (cfg : BusConfig) (k : Nat) (h1 : t.misoIn = s.misoIn)
    (h2 : t.misoDraws = s.misoDraws) : t.adcCount cfg k = s.adcCount cfg k := by
  simp only [State.adcCount, samples_congr cfg _ h1 h2]

/-- A read of channel `k` where no error comes (R161). -/
theorem memRead_ok {a : AdcId} {k : Nat} {m : Mode} {s : State} {i : Instr} (hk : k ≤ 7) (h : s.CanTransfer)
    (hm : s.board.devMode (.adc a) = some m) (he : s.NoError (adcBounds k).length) :
    ∃ t, memRead a k (s.begin i) = .ok (s.adcCount (s.cfgFor m) k) (t.pinWrite (.cs (.adc a)) true)
      ∧ Sent ((s.begin i).opened (.adc a) m) t (adcOut k) := by
  have h' : (s.begin i).CanTransfer := h
  have ho := opened_answers (d := .adc a) (m := m) h'.2.2
  obtain ⟨t, ht, hs, -⟩ := sendAll_ok (segs := adcSegs k) 0 (canTransfer_opened (d := .adc a) (m := m) h')
    (adcSegs_counts k) (by rw [adcSegs_length]; exact opened_noError h'.2.2 he)
  refine ⟨t, ?_, bitsAll_adcSegs hk ▸ hs⟩
  rw [memRead, transaction_eq _ h'.1 hm, adcSegments_eq, ht]
  simp only [Run.bind_ok, Run.deassert_ok, Run.restoring_ok, adc_word hk]
  rw [adcCount_congr (s := s) _ k ho.1 ho.2.1, opened_cfg h'.1]
  rfl

theorem adcCut {k j p q : Nat} (hk : k ≤ 7) (hj : (adcBounds k)[j]? = some (p, q)) :
    bitsAll ((adcSegs k).take (j + 1)) = (adcOut k).take q ∧ j < (adcSegs k).length ∧ q ≤ (adcOut k).length ∧ q ≠ 0
    ∧ ∀ bs : List Bool, bs.length = q → (wordsAll (adcSegs k) bs).getD j 0 = packBits (bs.drop p) := by
  have hj' : j < (adcBounds k).length := (List.getElem?_eq_some_iff.1 hj).1
  have hb : bitsAll ((adcSegs k).take (j + 1)) = (adcOut k).take q := by
    have : k = 0 ∨ k = 1 ∨ k = 2 ∨ k = 3 ∨ k = 4 ∨ k = 5 ∨ k = 6 ∨ k = 7 := by omega
    rcases this with rfl | rfl | rfl | rfl | rfl | rfl | rfl | rfl <;>
    (rcases j with _ | _ | _ | _ | _ | j <;> simp [adcBounds] at hj <;> obtain ⟨rfl, rfl⟩ := hj <;> decide +kernel)
  refine ⟨hb, ?_, ?_, ?_, ?_⟩
  · rw [adcSegs_length]; exact hj'
  · by_cases h0 : k = 0
    · subst h0; rcases j with _ | j <;> simp [adcBounds] at hj; simp [adcOut, ← hj.2]
    · rcases j with _ | _ | _ | _ | _ | j <;> simp [adcBounds, h0] at hj <;> simp [adcOut, h0, ← hj.2]
  · by_cases h0 : k = 0
    · subst h0; rcases j with _ | j <;> simp [adcBounds] at hj; omega
    · rcases j with _ | _ | _ | _ | _ | j <;> simp [adcBounds, h0] at hj <;> omega
  · intro bs hbs
    by_cases h0 : k = 0
    · subst h0; rcases j with _ | j <;> simp [adcBounds] at hj
      obtain ⟨rfl, rfl⟩ := hj
      simp [adcSegs, wordsAll, List.take_of_length_le hbs.le]
    · rcases j with _ | _ | _ | _ | _ | j <;> simp [adcBounds, h0] at hj <;> obtain ⟨rfl, rfl⟩ := hj <;>
        simp [adcSegs, wordsAll, h0] <;> rw [List.take_of_length_le (by simp [hbs])]

theorem memRead_raise {a : AdcId} {k j p q : Nat} {m : Mode} {s : State} {i : Instr} (hk : k ≤ 7) (h : s.CanTransfer)
    (hm : s.board.devMode (.adc a) = some m) (hv : s.board.variant = .peripheralTimed)
    (hj : (adcBounds k)[j]? = some (p, q)) (he : ∀ l < j, s.errAnswer l = (false, false))
    (hej : s.errAnswer j ≠ (false, false)) :
    ∃ t, memRead a k (s.begin i) = .raise (if (s.errAnswer j).1 then .framing
          else .overrun (packBits ((s.samples (s.cfgFor m) ((adcOut k).take q)).drop p)))
              (s.restoreConfig (t.pinWrite (.cs (.adc a)) true))
      ∧ Sent ((s.begin i).opened (.adc a) m) t ((adcOut k).take q) := by
  have h' : (s.begin i).CanTransfer := h
  have ho := opened_answers (d := .adc a) (m := m) h'.2.2
  obtain ⟨hcut, hlen, hq, -, hw⟩ := adcCut hk hj
  have hea : ∀ l, ((s.begin i).opened (.adc a) m).errAnswer l = s.errAnswer l := fun l =>
    (opened_errAnswer h'.2.2 l).trans rfl
  obtain ⟨t, ht, hs⟩ := sendAll_raise (segs := adcSegs k) 0 (canTransfer_opened (d := .adc a) (m := m) h')
    (adcSegs_counts k) (by rw [ho.2.2.2.2]; exact hv) hlen (fun l hl => by rw [hea]; exact he l hl)
    (by rw [hea]; exact hej)
  refine ⟨t, ?_, hcut ▸ hs⟩
  rw [memRead, transaction_eq _ h'.1 hm, adcSegments_eq, ht]
  simp only [Run.bind_raise, Run.deassert_raise, Run.restoring_raise, hea]
  rw [hcut, hw _ (by simp [hq]), opened_samples h']
  rfl

theorem readMv_ok {r : Sensor} {m : Mode} {s : State} {i : Instr} (hk : r.channel ≤ 7) (h : s.CanTransfer)
    (hm : s.board.devMode (.adc r.adc) = some m) (he : s.NoError (adcBounds r.channel).length) :
    ∃ t, readMvOf r.adc r (s.begin i) = .ok (((s.adcCount (s.cfgFor m) r.channel).toNat * r.vrefMv / 4095 : Nat) : Int)
        (t.pinWrite (.cs (.adc r.adc)) true)
      ∧ Sent ((s.begin i).opened (.adc r.adc) m) t (adcOut r.channel) := by
  obtain ⟨t, ht, hs⟩ := memRead_ok (i := i) hk h hm he
  refine ⟨t, ?_, hs⟩
  simp only [readMvOf, readCountOf, hk, and_self, if_true, ht, Run.bind_ok]
  rfl

theorem readSensor_ok {n : SensorName} {r : Sensor} {m : Mode} {s : State} {i : Instr} (hr : s.board.sensor n = some r)
    (hk : r.channel ≤ 7) (h : s.CanTransfer)
    (hm : s.board.devMode (.adc r.adc) = some m) (he : s.NoError (adcBounds r.channel).length) :
    ∃ t, readSensor n (s.begin i) = .ok (s.board.calibrate r.calRead
          (((s.adcCount (s.cfgFor m) r.channel).toNat * r.vrefMv / 4095 : Nat) : Int))
              (t.pinWrite (.cs (.adc r.adc)) true)
      ∧ Sent ((s.begin i).opened (.adc r.adc) m) t (adcOut r.channel) := by
  obtain ⟨t, ht, hs⟩ := readMv_ok (i := i) hk h hm he
  refine ⟨t, ?_, hs⟩
  have hb : (s.begin i).board = s.board := rfl
  simp only [readSensor, withSensor, hb, hr, ht, Run.bind_ok]

/-- The reads above a read of the count pass its error up unchanged (R165, R302). -/
theorem readMv_raise {r : Sensor} {s t : State} {e : BusError} (hk : r.channel ≤ 7)
    (h : memRead r.adc r.channel s = .raise e t) : readMvOf r.adc r s = .raise e t := by
  simp only [readMvOf, readCountOf, hk, and_self, if_true, h, Run.bind_raise]

theorem readSensor_raise {n : SensorName} {r : Sensor} {s t : State} {e : BusError} (hr : s.board.sensor n = some r)
    (hk : r.channel ≤ 7) (h : memRead r.adc r.channel s = .raise e t) : readSensor n s = .raise e t := by
  simp only [readSensor, withSensor, hr, readMv_raise hk h, Run.bind_raise]

/-- A transaction of one transfer where no error comes (R180, R210). -/
theorem sendOne_ok {d : Dev} {n : Nat} {w : Word} {m : Mode} {s : State} {i : Instr} (h1 : 1 ≤ n) (h32 : n ≤ 32)
    (h : s.CanTransfer) (hm : s.board.devMode d = some m) (he : s.NoError 1) :
    ∃ t, transaction d (transferSend n w) (s.begin i) = .ok () (t.pinWrite (.cs d) true)
      ∧ Sent ((s.begin i).opened d m) t (bitsOf n w) := by
  have h' : (s.begin i).CanTransfer := h
  have hc := canTransfer_opened (d := d) (m := m) h'
  refine ⟨_, ?_, sent_transferred w hc (by omega)⟩
  rw [transaction_eq _ h'.1 hm, transferSend, transfer_of_ready w hc h1 h32,
    transferError_none hc (opened_noError h'.2.2 he)]
  rfl

/-- A transaction of one transfer that draws an error (R192, R213, R302). -/
theorem sendOne_raise {d : Dev} {n : Nat} {w : Word} {m : Mode} {s : State} {i : Instr} (h1 : 1 ≤ n) (h32 : n ≤ 32)
    (h : s.CanTransfer) (hm : s.board.devMode d = some m) (hv : s.board.variant = .peripheralTimed)
    (he : s.errAnswer 0 ≠ (false, false)) :
    ∃ t, transaction d (transferSend n w) (s.begin i) = .raise (if (s.errAnswer 0).1 then .framing
          else .overrun (packBits (s.samples (s.cfgFor m) (bitsOf n w)))) (s.restoreConfig (t.pinWrite (.cs d) true))
      ∧ Sent ((s.begin i).opened d m) t (bitsOf n w) := by
  have h' : (s.begin i).CanTransfer := h
  have hc := canTransfer_opened (d := d) (m := m) h'
  have hea : ((s.begin i).opened d m).errAnswer 0 = s.errAnswer 0 := (opened_errAnswer h'.2.2 0).trans rfl
  refine ⟨_, ?_, sent_transferred w hc (by omega)⟩
  rw [transaction_eq _ h'.1 hm, transferSend, transfer_of_ready w hc h1 h32,
    transferError_some hc (by rw [(opened_answers h'.2.2).2.2.2.2]; exact hv) (by rw [hea]; exact he)]
  simp only [Run.bind_raise, Run.deassert_raise, Run.restoring_raise, hea, State.received]
  rw [opened_samples h']
  rfl

theorem setIdle_eq (p : Polarity) {s : State} (hb : s.busReady = true) (hc : s.cfg.specified = true) :
    setIdle p s = if s.cfg.val.pol = p then .ok () s else .ok () (s.applyConfig { s.cfg.val with pol := p }) := by
  simp [setIdle, hb, hc, reconfigure]

end Sys2Proof.Machine
end

