-- ==== Sys2Proof/Laws/Effect.lean ====
section
/-! SUPPORT. Everything an operation that answers a next state can have done (`exec_effect`), said once. -/

namespace Sys2Proof.Machine

/-- The state in which an operation has ended. -/
def State.ended (c : Completion) (s : State) : State := { s with opstate := .idle, completion := some c }

/-- As `Sent`, in a state in which the peripheral need not be ready: the flags may change too. -/
structure Moved (s t : State) (out : List Bool) : Prop where
  only : t = { s with sr := t.sr, txbuf := t.txbuf, rxbuf := t.rxbuf, rxrdy := t.rxrdy, fe := t.fe, oe := t.oe,
                      sclk := t.sclk, mosi := t.mosi, trace := t.trace, misoIn := t.misoIn, misoDraws := t.misoDraws,
                      errIn := t.errIn, errDraws := t.errDraws, opstate := t.opstate }
  trace : t.trace = s.trace ++ transferEvents s.cfg.val.mode out (s.samples s.cfg.val out)
  sclk : t.sclk = if out = [] then s.sclk else Reg.written s.cfg.val.pol.idleLevel
  misoIn : t.misoIn = if s.cfg.val.loopback then s.misoIn else s.misoIn.drop out.length
  misoDraws : t.misoDraws = if s.cfg.val.loopback then s.misoDraws else s.misoDraws + (out.length - s.misoIn.length)
  flags : s.FlagsAtRest → t.FlagsAtRest

theorem Moved.refl (s : State) : Moved s s [] := by
  constructor <;> simp [transferEvents]

theorem Moved.cfg {s t : State} {out : List Bool} (h : Moved s t out) : t.cfg = s.cfg := by rw [h.only]

theorem Moved.trans {s t u : State} {out out' : List Bool} (h : Moved s t out) (h' : Moved t u out') :
    Moved s u (out ++ out') where
  only := by
    have h1 := h'.only
    rw [h.only] at h1
    exact h1
  trace := by
    rw [h'.trace, h.trace, h.cfg, samples_append s.cfg.val 0 out out' s, transferEvents_append _ _ _ _ _ (by simp),
      List.append_assoc, samples_congr (s := State.shifted s.cfg.val 0 out s) (t := t) s.cfg.val out'
        (by simp [State.shifted, h.misoIn]) (by simp [State.shifted, h.misoDraws])]
  sclk := by
    rw [h'.sclk, h.sclk, h.cfg]; cases out <;> cases out' <;> simp
  misoIn := by
    rw [h'.misoIn, h.misoIn, h.cfg]; split <;> simp
  misoDraws := by
    rw [h'.misoDraws, h.misoDraws, h.misoIn, h.cfg]
    split
    · rfl
    · simp only [List.length_append, List.length_drop]; omega
  flags := fun hf => h'.flags (h.flags hf)

theorem moved_transferred {n : Nat} (d : Word) (s : State) (hn : n ≠ 0) :
    Moved s (s.transferred n d) (bitsOf n d) := by
  have hne := bitsOf_ne hn d
  constructor
  · rfl
  · rfl
  · simp [State.transferred, hne]
  · simp [State.transferred]
  · simp [State.transferred]
  · intro h
    obtain ⟨h1, h2, h3, h4⟩ := h
    cases hv : s.board.variant <;> simp [State.FlagsAtRest, State.transferred, hv, h1, h2, h3, h4]

/-- A list of transfers that answers has sent all its bits; one that raises, a part of them. -/
theorem sendAll_ends {segs : List (Nat × Word)} {w : Word} {s : State} (hs : countsOk segs) :
    (∀ v t, sendAll w segs s = .ok v t → Moved s t (bitsAll segs)) ∧
    (∀ e t, sendAll w segs s = .raise e t → s.board.variant = .peripheralTimed ∧
      ∃ out, Moved s t out ∧ out ≠ [] ∧ out <+: bitsAll segs) := by
  induction segs generalizing w s with
  | nil =>
    constructor
    · intro v t h; cases h; exact Moved.refl s
    · intro e t h; cases h
  | cons x rest ih =>
    obtain ⟨n, d⟩ := x
    obtain ⟨h1, h32⟩ := hs (n, d) (by simp)
    have hm := moved_transferred d s (show n ≠ 0 by omega)
    have hr : countsOk rest := fun x hx => hs x (List.mem_cons_of_mem _ hx)
    have hb : (s.transferred n d).board = s.board := rfl
    rcases transfer_cases n d s with ⟨r, -, ht⟩ | ht | ⟨-, e, he, ht⟩ | ⟨-, he, ht⟩ <;>
      simp only [sendAll, ht, Run.bind_ok, Run.bind_raise, Run.bind_refuse, Run.bind_fault]
    · exact ⟨fun _ _ h => (by cases h), fun _ _ h => (by cases h)⟩
    · exact ⟨fun _ _ h => (by cases h), fun _ _ h => (by cases h)⟩
    · refine ⟨fun _ _ h => (by cases h), fun _ _ h => ?_⟩
      cases h
      refine ⟨?_, bitsOf n d, hm, bitsOf_ne (by omega) d, by simp [bitsAll]⟩
      cases hv : s.board.variant with
      | peripheralTimed => rfl
      | softwareTimed => simp [State.transferError, hv] at he
    · obtain ⟨i1, i2⟩ := ih (w := s.received n d) (s := s.transferred n d) hr
      refine ⟨fun v t h => hm.trans (i1 v t h), fun e t h => ?_⟩
      obtain ⟨hv, out, ho, hne, hp⟩ := i2 e t h
      refine ⟨hv, bitsOf n d ++ out, hm.trans ho, ?_, ?_⟩
      · simp [hne]
      · simpa [bitsAll] using hp

/-- The end of a transaction begun in `s` (R70, R302): the chip select goes high, and after an error the earlier
configuration is put back. -/
def State.closed (s : State) (d : Dev) (c : Completion) (u : State) : State :=
  match c with
  | .done _ => u.pinWrite (.cs d) true
  | .raised _ => s.restoreConfig (u.pinWrite (.cs d) true)

/-- The event of putting the configuration back, where there is one. -/
def State.closing (s : State) (c : Completion) (u : State) : List Event :=
  match c with
  | .done _ => []
  | .raised _ => if u.cfgCur.val = s.cfgCur.val then [] else [.pin .sclk s.cfg.val.pol.idleLevel]

/-- Either the chip select alone is written, or the earlier configuration is applied after it. -/
theorem closed_cases (s : State) (d : Dev) (c : Completion) (u : State) :
    (s.closed d c u = u.pinWrite (.cs d) true ∧ s.closing c u = [])
      ∨ (s.closed d c u = (u.pinWrite (.cs d) true).applyConfig s.cfg.val
          ∧ s.closing c u = [.pin .sclk s.cfg.val.pol.idleLevel] ∧ ∃ e, c = .raised e) := by
  cases c with
  | done r => exact .inl ⟨rfl, rfl⟩
  | raised e =>
    by_cases h : u.cfgCur.val = s.cfgCur.val
    · exact .inl ⟨if_pos h, if_pos h⟩
    · exact .inr ⟨if_neg h, if_neg h, e, rfl⟩

/-- What an operation that answers a next state has done. -/
inductive Effect (s : State) : Instr → State → Prop
  | init (baud : Nat) (cfg : BusConfig) (hb : s.busReady = false) :
      Effect s (.busInit baud cfg) ((s.initBus baud cfg).ended (.done .unit))
  | quiet (i : Instr) (r : Result) (he : encode s.board i = none) : Effect s i (s.ended (.done r))
  | config (i : Instr) (cfg : BusConfig) (he : encode s.board i = none) (hb : s.busReady = true) :
      Effect s i ((s.applyConfig cfg).ended (.done .unit))
  | raw (i : Instr) (n : Nat) (d : Word) (c : Completion) (he : encode s.board i = some ⟨none, n, truncBits n d⟩)
      (h1 : 1 ≤ n) (h32 : n ≤ 32) (hb : s.busReady = true)
      (hv : ∀ e, c = .raised e → s.board.variant = .peripheralTimed) :
      Effect s i ((s.transferred n d).ended c)
  | device (i : Instr) (f : Frame) (d : Dev) (m : Mode) (out : List Bool) (c : Completion) (u : State)
      (he : encode s.board i = some f) (hl : f.line = some d) (hm : s.board.devMode d = some m) (hb :
          s.busReady = true)
      (hcs : s.cfg.specified = true) (hcc : s.cfgCur.specified = true)
      (hp : s.power.payloadOn = true ∨ ∃ a, d = .adc a)
      (hne : out ≠ []) (hpre : out <+: bitsOf f.nbits f.bits)
      (hfull : ∀ r, c = .done r → out = bitsOf f.nbits f.bits)
      (hv : ∀ e, c = .raised e → s.board.variant = .peripheralTimed)
      (hu : Moved (s.opened d m) u out) :
      Effect s i ((s.closed d c u).ended c)
  | power (i : Instr) (l : Line) (v : Level) (p : Power) (he : encode s.board i = none)
      (hi : (i = .pwrEnablePayload ∧ l = .payloadEn ∧ v = true ∧ s.power = .offOff ∧ p = .onOff) ∨
        (i = .pwrDisablePayload ∧ l = .payloadEn ∧ v = false ∧ s.power = .onOff ∧ p = .offOff) ∨
        (i = .pwrEnableHeater ∧ l = .heaterEn ∧ v = true ∧ s.power = .onOff ∧ p = .onOn) ∨
        (i = .pwrDisableHeater ∧ l = .heaterEn ∧ v = false ∧ s.power = .onOn ∧ p = .onOff)) :
      Effect s i (({ s.pinWrite l v with power := p } : State).ended (.done .unit))
  | relay (i : Instr) (r : Nat) (v : Level) (he : encode s.board i = none) (hp : s.power.payloadOn = true) :
      Effect s i ((s.pinWrite (relayLine r) v).ended (.done .unit))

theorem Moved.of_at {s t : State} {o : OpState} {out : List Bool} (h : Moved (s.at o) t out) : Moved s t out :=
  ⟨h.only, h.trace, h.sclk, h.misoIn, h.misoDraws, h.flags⟩

theorem applyConfig_at (cfg : BusConfig) (o : OpState) (s :
    State) : (s.at o).applyConfig cfg = (s.applyConfig cfg).at o := by
  rw [applyConfig_eq, applyConfig_eq]; rfl

theorem opened_at (d : Dev) (m : Mode) (o : OpState) (s : State) : (s.at o).opened d m = (s.opened d m).at o := by
  unfold State.opened State.ensured
  show (if s.cfgCur.val = m then _ else _ : State).pinWrite _ _ = _
  split
  · rfl
  · show ((s.at o).applyConfig (s.cfg.val.withMode m)).pinWrite _ _ = _
    rw [applyConfig_at]; rfl

/-- The effect of a transaction whose transfers are a list. -/
theorem transaction_effect {α β : Type} {i : Instr} {f : Frame} {d : Dev} {segs : List (Nat × Word)} {g :
    Word → State → Run α}
    {g2 : α → State → Run β} {h : β → Result} {s t : State} (hs : countsOk segs) (hne : bitsAll segs ≠ []) (hbits :
        bitsAll segs = bitsOf f.nbits f.bits)
    (he : encode s.board i = some f) (hl : f.line = some d) (hp : s.power.payloadOn = true ∨ ∃ a, d = .adc a)
    (hg : ∀ w s, ∃ a, g w s = .ok a s) (hg2 : ∀ w s, ∃ a, g2 w s = .ok a s)
    (ht : ((transaction d (fun s => (sendAll 0 segs s).bind g) (s.begin i)).bind g2).complete h = .next t) :
    Effect s i t := by
  rcases ensureConfig_cases d (s.begin i) with ⟨r, hr⟩ | ⟨m, hm, hb, h1, h2, hok⟩
  · rw [transaction, hr] at ht; cases ht
  · rw [transaction, hok] at ht
    obtain ⟨e1, e2⟩ := sendAll_ends (segs := segs) (w := 0) (s := (s.begin i).opened d m) hs
    have hop : (s.begin i).opened d m = (s.opened d m).at (.busy i ⟨0, 0⟩) := opened_at d m _ s
    have hob : ((s.begin i).opened d m).board = s.board := by
      unfold State.opened State.ensured; split
      · rfl
      · rw [applyConfig_eq]; rfl
    have ht : (((((sendAll 0 segs ((s.begin i).opened d m)).bind g).deassert d).restoring (s.begin i)).bind g2).complete h
        = .next t := ht
    cases hx : sendAll 0 segs ((s.begin i).opened d m) with
    | ok v u =>
      rw [hx] at ht
      obtain ⟨a, ha⟩ := hg v u
      obtain ⟨b, hb2⟩ := hg2 a (u.pinWrite (.cs d) true)
      simp only [Run.bind_ok, ha, Run.deassert_ok, Run.restoring_ok, hb2, Run.complete_ok, Host.Outcome.next.injEq] at ht
      subst ht
      have hm' := e1 v u hx
      rw [hop] at hm'
      exact Effect.device i f d m (bitsAll segs) (.done (h b)) u he hl hm hb h1 h2 hp hne (by rw [hbits])
        (fun _ _ => hbits) (fun _ he => by cases he) hm'.of_at
    | raise e u =>
      rw [hx] at ht
      simp only [Run.bind_raise, Run.deassert_raise, Run.restoring_raise, Run.complete_raise, Host.Outcome.next.injEq] at ht
      subst ht
      obtain ⟨hv, out, hm', hn, hpr⟩ := e2 e u hx
      rw [hop] at hm'
      rw [hob] at hv
      exact Effect.device i f d m out (.raised e) u he hl hm hb h1 h2 hp hn (by rw [← hbits]; exact hpr)
        (fun _ he => by cases he) (fun _ _ => hv) hm'.of_at
    | refuse r => rw [hx] at ht; cases ht
    | fault x => rw [hx] at ht; cases ht

theorem issue_next_body {α : Type} {i : Instr} {f : α → Result} {body : State → Run α} {s t : State}
    (h : issue i f body s = .next t) :
        s.Admits ∧ gateLegal s.board s.power i = true ∧ (body (s.begin i)).complete f = .next t := by
  obtain ⟨ha, hg, -⟩ := issue_next h
  exact ⟨ha, hg, by rw [issue_of_admits ha hg] at h; exact h⟩

theorem adcOut_frame {a : AdcId} {k : Nat} (hk : k ≤ 7) :
    ∃ f, encodeAdc a k = some f ∧ f.line = some (.adc a) ∧ adcOut k = bitsOf f.nbits f.bits := by
  unfold encodeAdc adcOut
  rw [if_pos hk]
  split
  · exact ⟨_, rfl, rfl, rfl⟩
  · exact ⟨_, rfl, rfl, rfl⟩

theorem readCount_effect {α : Type} {i : Instr} {a : AdcId} {r : Sensor} {g : BitVec 12 → State → Run α} {h :
    α → Result} {s t : State}
    (he : r.adc = a → r.channel ≤ 7 → encode s.board i = encodeAdc r.adc r.channel) (hg : ∀ w s, ∃ a, g w s = .ok a s)
    (ht : ((readCountOf a r (s.begin i)).bind g).complete h = .next t) : Effect s i t := by
  unfold readCountOf at ht
  split at ht
  · rename_i hc
    obtain ⟨rfl, hk⟩ := hc
    obtain ⟨f, hf, hl, hb⟩ := adcOut_frame (a := r.adc) hk
    have hseg : memRead r.adc r.channel (s.begin i) = transaction (.adc r.adc) (fun s =>
        (sendAll 0 (adcSegs r.channel) s).bind fun w s => .ok (w.setWidth 12) s) (s.begin i) := by
      have : adcSegments r.channel = fun s => (sendAll 0 (adcSegs r.channel) s).bind fun w s =>
          .ok (w.setWidth 12) s := funext (adcSegments_eq _)
      rw [memRead, this]
    rw [hseg] at ht
    exact transaction_effect (adcSegs_counts _) (by rw [bitsAll_adcSegs hk]; exact adcOut_ne _)
        (by rw [bitsAll_adcSegs hk, hb])
      ((he rfl hk).trans hf) hl (.inr ⟨_, rfl⟩) (fun w s => ⟨_, rfl⟩) hg ht
  · cases ht

theorem readSensor_effect {α : Type} {i : Instr} {n : SensorName} {g : BitVec 12 → Sensor → State → State → Run α} {a :
    Sensor → AdcId} {h : α → Result} {s t : State}
    (he : ∀ r, s.board.sensor n = some r → r.adc = a r → encode s.board i = encodeAdc r.adc r.channel) (hg :
        ∀ r w u s, ∃ a, g w r u s = .ok a s)
    (ht : (withSensor n (fun r s => (readCountOf (a r) r s).bind fun w t => g w r s t) (s.begin i)).complete h = .next t)
        : Effect s i t := by
  unfold withSensor at ht
  cases hr : s.board.sensor n with
  | none => simp only [State.begin_board, hr] at ht; cases ht
  | some r =>
    simp only [State.begin_board, hr] at ht
    exact readCount_effect (fun h1 _ => he r hr h1) (fun w t => hg r w _ t) ht

theorem sendOne_effect {i : Instr} {f : Frame} {d : Dev} {s t : State} (h1 : 1 ≤ f.nbits) (h32 : f.nbits ≤ 32)
    (he : encode s.board i = some f) (hl : f.line = some d) (hp : s.power.payloadOn = true ∨ ∃ a, d = .adc a)
    (ht : (transaction d (transferSend f.nbits f.bits) (s.begin i)).complete (fun _ => .unit) = .next t) :
        Effect s i t := by
  have hs : transferSend f.nbits f.bits = fun s => (sendAll 0 [(f.nbits, f.bits)] s).bind fun _ s => .ok () s := by
    funext s
    simp only [sendAll, transferSend, Run.bind_assoc, Run.bind_ok]
  rw [hs, ← Run.bind_pure (transaction _ _ _)] at ht
  refine transaction_effect (segs := [(f.nbits, f.bits)]) ?_ ?_ (by simp [bitsAll]) he hl hp (fun _ _ =>
      ⟨_, rfl⟩) (fun _ _ => ⟨_, rfl⟩) ht
  · simp [countsOk, h1, h32]
  · simpa [bitsAll] using bitsOf_ne (by omega) f.bits

theorem dacSend_effect {i : Instr} {cmd : DacCommand} {ch v : Nat} {s t : State} (he :
    encode s.board i = encodeDac s.board cmd ch v)
    (hp : s.power.payloadOn = true) (ht : (dacSend cmd ch v (s.begin i)).complete (fun _ => .unit) = .next t) :
        Effect s i t := by
  unfold dacSend at ht
  unfold encodeDac at he
  split at ht
  · rename_i h
    rw [if_pos h] at he
    exact sendOne_effect (f := ⟨some .dac, 24, _⟩) (by simp) (by simp) he rfl (.inl hp) ht
  · cases ht

theorem dpotSend_effect {i : Instr} {h w : Nat} {s t : State} (he : encode s.board i = encodeDpot h w)
    (hp : s.power.payloadOn = true) (ht : (dpotSend h w (s.begin i)).complete (fun _ => .unit) = .next t) :
        Effect s i t := by
  unfold dpotSend at ht
  unfold encodeDpot at he
  split at ht
  · rename_i h
    rw [if_pos h] at he
    exact sendOne_effect (f := ⟨some .digipot, 16, _⟩) (by simp) (by simp) he rfl (.inl hp) ht
  · cases ht

theorem dacSet_effect {i : Instr} {ch : BitVec 4} {c : Int} {s t : State} (he :
    encode s.board i = encodeSet s.board ch c)
    (hp : s.power.payloadOn = true) (ht : (dacSet ch c (s.begin i)).complete (fun _ => .unit) = .next t) :
        Effect s i t := by
  exact dacSend_effect he hp ht

theorem busReady_of_transferRefusal {n : Nat} {s : State} (h : transferRefusal n s = none) : s.busReady = true := by
  unfold transferRefusal at h
  split at h
  · cases h
  · rename_i hb; simpa using hb

theorem raw_effect {α : Type} {i : Instr} {n : Nat} {d : Word} {g : Word → State → Run α} {h : α → Result} {s t :
    State}
    (he : encode s.board i = encodeRaw n d) (hg : ∀ w s, ∃ a, g w s = .ok a s)
    (ht : ((transfer n d (s.begin i)).bind g).complete h = .next t) : Effect s i t := by
  rcases transfer_cases n d (s.begin i) with ⟨r, -, hx⟩ | hx | ⟨hr, e, hee, hx⟩ | ⟨hr, hee, hx⟩ <;> rw [hx] at ht
  · cases ht
  · cases ht
  · have hb := bitCountOk_iff.2 (bitCountOk_of_transferRefusal hr)
    obtain ⟨h1, h32⟩ := bitCountOk_of_transferRefusal hr
    simp only [Run.bind_raise, Run.complete_raise, Host.Outcome.next.injEq] at ht
    subst ht
    refine Effect.raw i n d (.raised e) (by rw [he, encodeRaw, if_pos hb]) h1 h32 ?_ ?_
    · exact busReady_of_transferRefusal hr
    · intro _ _
      cases hv : s.board.variant with
      | peripheralTimed => rfl
      | softwareTimed => simp [State.transferError, hv] at hee
  · have hb := bitCountOk_iff.2 (bitCountOk_of_transferRefusal hr)
    obtain ⟨h1, h32⟩ := bitCountOk_of_transferRefusal hr
    obtain ⟨a, ha⟩ := hg ((s.begin i).received n d) ((s.begin i).transferred n d)
    simp only [Run.bind_ok, ha, Run.complete_ok, Host.Outcome.next.injEq] at ht
    subst ht
    exact Effect.raw i n d (.done (h a)) (by rw [he, encodeRaw, if_pos hb]) h1 h32 (busReady_of_transferRefusal hr)
      (fun _ h => by cases h)

theorem reconfigure_effect {i : Instr} {cfg : BusConfig} {s t : State} (he : encode s.board i = none)
    (ht : (reconfigure cfg (s.begin i)).complete (fun _ => .unit) = .next t) : Effect s i t := by
  unfold reconfigure at ht
  split at ht
  · cases ht
  · rename_i hb
    simp only [Run.complete_ok, Host.Outcome.next.injEq] at ht
    subst ht
    have hb' : s.busReady = true := by simpa using hb
    have hh : ((s.begin i).applyConfig cfg).finish .unit = (s.applyConfig cfg).ended (.done .unit) := by
      rw [show s.begin i = s.at (.busy i ⟨0, 0⟩) from rfl, applyConfig_at]; rfl
    rw [hh]
    exact Effect.config i cfg he hb'

theorem setIdle_effect {i : Instr} {p : Polarity} {s t : State} (he : encode s.board i = none)
    (ht : (setIdle p (s.begin i)).complete (fun _ => .unit) = .next t) : Effect s i t := by
  unfold setIdle at ht
  split at ht
  · cases ht
  · split at ht
    · cases ht
    · split at ht
      · simp only [Run.complete_ok, Host.Outcome.next.injEq] at ht
        subst ht
        exact Effect.quiet i .unit he
      · exact reconfigure_effect he ht

theorem relay_effect {i : Instr} {r : Nat} {b : Bool} {s t : State} (he : encode s.board i = none) (hp :
    s.power.payloadOn = true)
    (ht : (relayDrive r b (s.begin i)).complete (fun _ => .unit) = .next t) : Effect s i t := by
  unfold relayDrive at ht
  split at ht
  · simp only [Run.complete_ok, Host.Outcome.next.injEq] at ht
    subst ht
    have hr : ∀ v, ((s.begin i).pinWrite (relayLine r) v).finish .unit = (s.pinWrite (relayLine r) v).ended
        (.done .unit) := by
      intro v; unfold relayLine; split <;> rfl
    rw [hr]
    exact Effect.relay i r _ he hp
  · cases ht

theorem readSupply_effect {i : Instr} {o : Option SensorName} {s t : State} (he :
    encode s.board i = encodeSupply s.board o)
    (ht : (readSupply o (s.begin i)).complete .value = .next t) : Effect s i t := by
  unfold readSupply at ht
  cases o with
  | none => cases ht
  | some n =>
    have : readSensor n = withSensor n (fun r s => (readCountOf r.adc r s).bind fun w t =>
        .ok (s.board.calibrate r.calRead (adcMillivolts w r.vrefMv)) t) := by
      funext s
      unfold readSensor readMvOf
      congr 1; funext r s
      rw [Run.bind_assoc]; rfl
    dsimp only at ht
    rw [this] at ht
    exact readSensor_effect (a := fun r => r.adc) (fun r hr _ =>
        by rw [he, encodeSupply, sensorEncode hr]) (fun _ _ _ _ => ⟨_, rfl⟩) ht

theorem power_lt {i : Instr} {l : Line} {v : Level} {p : Power} {s : State} :
    ({ (s.begin i).pinWrite l v with power := p } : State).finish .unit = (({ s.pinWrite l v with power := p } :
        State).ended (.done .unit)) := by
  cases l <;> rfl

/-- Everything an operation that answers a next state can have done. -/
theorem exec_effect {i : Instr} {s t : State} (h : exec i s = .next t) :
    (s.opstate = .idle ∧ s.board.wf = true ∧ (s.constructed = true ∨ ∃ baud cfg, i = .busInit baud cfg))
        ∧ Effect s i t := by
  by_cases hi : ∃ baud cfg, i = .busInit baud cfg
  · obtain ⟨baud, cfg, rfl⟩ := hi
    rw [exec_busInit] at h
    obtain ⟨ho, hw, hc⟩ := issueBoot_next h
    refine ⟨⟨ho, hw, .inr ⟨_, _, rfl⟩⟩, ?_⟩
    rcases hc with ⟨a, u, hu, rfl⟩ | ⟨e, u, hu, rfl⟩
    · split at hu
      · cases hu
      · rename_i hb
        cases hu
        have hb' : s.busReady = false := by simpa using hb
        have : ((s.begin (.busInit baud cfg)).initBus baud cfg).finish .unit = (s.initBus baud cfg).ended (.done .unit)
            := by
          unfold State.initBus
          simp only [State.begin_board]
          cases s.board.variant <;> simp only [applyConfig_eq] <;> rfl
        rw [this]; exact Effect.init baud cfg hb'
    · split at hu <;> cases hu
  · have key : ∀ {α : Type} (f : α → Result) (body : State → Run α), exec i s = issue i f body s →
        (gateLegal s.board s.power i = true → (body (s.begin i)).complete f = .next t → Effect s i t) →
        (s.opstate = .idle ∧ s.board.wf = true ∧ (s.constructed = true ∨ ∃ baud cfg, i = .busInit baud cfg))
            ∧ Effect s i t := by
      intro α f body he hk
      obtain ⟨ha, hg, hb⟩ := issue_next_body (he.symm.trans h)
      exact ⟨⟨ha.1, ha.2.2, .inl ha.2.1⟩, hk hg hb⟩
    cases i with
    | busInit baud cfg => exact absurd ⟨_, _, rfl⟩ hi
    | busConfig cfg => exact key _ _ (exec_busConfig cfg s) fun _ ht => reconfigure_effect rfl ht
    | busIdleLow => exact key _ _ (exec_busIdleLow s) fun _ ht => setIdle_effect rfl ht
    | busIdleHigh => exact key _ _ (exec_busIdleHigh s) fun _ ht => setIdle_effect rfl ht
    | busXfer n d =>
      exact key _ _ (exec_busXfer n d s) fun _ ht =>
          raw_effect (g := fun w s => .ok w s) rfl (fun _ _ => ⟨_, rfl⟩) (by rw [Run.bind_pure]; exact ht)
    | busSend n d => exact key _ _ (exec_busSend n d s) fun _ ht => raw_effect rfl (fun _ _ => ⟨_, rfl⟩) ht
    | busRecv n =>
      exact key _ _ (exec_busRecv n s) fun _ ht =>
          raw_effect (g := fun w s => .ok w s) rfl (fun _ _ => ⟨_, rfl⟩) (by rw [Run.bind_pure]; exact ht)
    | adcReadCount a n =>
      refine key _ _ (exec_adcReadCount a n s) fun _ ht =>
          readSensor_effect (n := n) (h := .count12) (a := fun _ => a) (g := fun w _ _ s => .ok w s) ?_ (fun _ _ _ _ =>
          ⟨_, rfl⟩) ?_
      · intro r hr ha; show encodeAdcRead _ _ _ = _; rw [encodeAdcRead, hr]; simp [ha]
      · have : readCountOf a = fun r s => (readCountOf a r s).bind fun w s => .ok w s :=
          by funext r s; rw [Run.bind_pure]
        rw [← this]; exact ht
    | adcReadMv a n =>
      refine key _ _ (exec_adcReadMv a n s) fun _ ht =>
          readSensor_effect (a := fun _ => a) (g := fun w r _ s => .ok (adcMillivolts w r.vrefMv) s) ?_ (fun _ _ _ _ =>
          ⟨_, rfl⟩) ht
      intro r hr ha; show encodeAdcRead _ _ _ = _; rw [encodeAdcRead, hr]; simp [ha]
    | dacWrite ch v => exact key _ _ (exec_dacWrite ch v s) fun hg ht => dacSend_effect rfl hg ht
    | dacUpdate ch v => exact key _ _ (exec_dacUpdate ch v s) fun hg ht => dacSend_effect rfl hg ht
    | dacWriteUpdateOne ch v => exact key _ _ (exec_dacWriteUpdateOne ch v s) fun hg ht => dacSend_effect rfl hg ht
    | dacWriteUpdateAll ch v => exact key _ _ (exec_dacWriteUpdateAll ch v s) fun hg ht => dacSend_effect rfl hg ht
    | dacPoweroffChannel ch v => exact key _ _ (exec_dacPoweroffChannel ch v s) fun hg ht => dacSend_effect rfl hg ht
    | dacPoweroffChip ch v => exact key _ _ (exec_dacPoweroffChip ch v s) fun hg ht => dacSend_effect rfl hg ht
    | dacRefInternal ch v => exact key _ _ (exec_dacRefInternal ch v s) fun hg ht => dacSend_effect rfl hg ht
    | dacRefExternal ch v => exact key _ _ (exec_dacRefExternal ch v s) fun hg ht => dacSend_effect rfl hg ht
    | dacNop ch v => exact key _ _ (exec_dacNop ch v s) fun hg ht => dacSend_effect rfl hg ht
    | dacMv2Count mv =>
      refine key _ _ (exec_dacMv2Count mv s) fun _ ht => ?_
      simp only [Run.complete_ok, Host.Outcome.next.injEq] at ht
      subst ht; exact Effect.quiet _ _ rfl
    | dpotWrite a w => exact key _ _ (exec_dpotWrite a w s) fun hg ht => dpotSend_effect rfl hg ht
    | dpotOhms2Count o =>
      refine key _ _ (exec_dpotOhms2Count o s) fun _ ht => ?_
      simp only [Run.complete_ok, Host.Outcome.next.injEq] at ht
      subst ht; exact Effect.quiet _ _ rfl
    | pwrEnablePayload =>
      refine key _ _ (exec_pwrEnablePayload s) fun hg ht => ?_
      simp only [Run.complete_ok, Host.Outcome.next.injEq] at ht
      subst ht; rw [power_lt]; exact Effect.power _ .payloadEn true .onOff rfl
          (.inl ⟨rfl, rfl, rfl, of_decide_eq_true hg, rfl⟩)
    | pwrDisablePayload =>
      refine key _ _ (exec_pwrDisablePayload s) fun hg ht => ?_
      simp only [Run.complete_ok, Host.Outcome.next.injEq] at ht
      subst ht; rw [power_lt]; exact Effect.power _ .payloadEn false .offOff rfl
          (.inr (.inl ⟨rfl, rfl, rfl, of_decide_eq_true hg, rfl⟩))
    | pwrEnableHeater =>
      refine key _ _ (exec_pwrEnableHeater s) fun hg ht => ?_
      simp only [Run.complete_ok, Host.Outcome.next.injEq] at ht
      subst ht; rw [power_lt]; exact Effect.power _ .heaterEn true .onOn rfl
          (.inr (.inr (.inl ⟨rfl, rfl, rfl, of_decide_eq_true hg, rfl⟩)))
    | pwrDisableHeater =>
      refine key _ _ (exec_pwrDisableHeater s) fun hg ht => ?_
      simp only [Run.complete_ok, Host.Outcome.next.injEq] at ht
      subst ht; rw [power_lt]; exact Effect.power _ .heaterEn false .onOff rfl
          (.inr (.inr (.inr ⟨rfl, rfl, rfl, of_decide_eq_true hg, rfl⟩)))
    | senseRead n => exact key _ _ (exec_senseRead n s) fun _ ht => readSupply_effect (o := some n) rfl ht
    | heaterSetMv mv =>
      refine key _ _ (exec_heaterSetMv mv s) fun hg ht => ?_
      simp only [State.begin_board] at ht
      exact dpotSend_effect (by rw [encode]) hg ht
    | tetherSetMv mv =>
      refine key _ _ (exec_tetherSetMv mv s) fun hg ht => ?_
      simp only [State.begin_board] at ht
      exact dacSet_effect (by rw [encode]) hg ht
    | cathodeSetMv mv =>
      refine key _ _ (exec_cathodeSetMv mv s) fun hg ht => ?_
      simp only [State.begin_board] at ht
      exact dacSet_effect (by rw [encode]) hg ht
    | heaterGetMv => exact key _ _ (exec_heaterGetMv s) fun _ ht => readSupply_effect rfl ht
    | tetherGetMv => exact key _ _ (exec_tetherGetMv s) fun _ ht => readSupply_effect rfl ht
    | cathodeGetMv => exact key _ _ (exec_cathodeGetMv s) fun _ ht => readSupply_effect rfl ht
    | relayConnect r => exact key _ _ (exec_relayConnect r s) fun hg ht => relay_effect rfl hg ht
    | relayDisconnect r => exact key _ _ (exec_relayDisconnect r s) fun hg ht => relay_effect rfl hg ht
    | heaterGetMa => exact key _ _ (exec_heaterGetMa s) fun _ ht => readSupply_effect rfl ht
    | tetherGetMa => exact key _ _ (exec_tetherGetMa s) fun _ ht => readSupply_effect rfl ht
    | cathodeGetMa => exact key _ _ (exec_cathodeGetMa s) fun _ ht => readSupply_effect rfl ht

end Sys2Proof.Machine
end

