-- ==== Sys2Proof/Laws/Trace.lean ====
section
/-! SUPPORT. Readings of the pin trace, and what operations add to it. -/

namespace Sys2Proof.Machine

theorem mosiLevels_append (a b : List Event) : mosiLevels (a ++ b) = mosiLevels a ++ mosiLevels b := by
  induction a with
  | nil => rfl
  | cons e rest ih =>
    cases e with
    | pin l v => cases l <;> simp [mosiLevels, ih]
    | sample x => simp [mosiLevels, ih]

theorem csEvents_append (a b : List Event) : csEvents (a ++ b) = csEvents a ++ csEvents b := by
  induction a with
  | nil => rfl
  | cons e rest ih =>
    cases e with
    | pin l v => cases l <;> simp [csEvents, ih]
    | sample x => simp [csEvents, ih]

theorem clockEdges_append (a b : List Event) : clockEdges (a ++ b) = clockEdges a + clockEdges b := by
  induction a with
  | nil => simp [clockEdges]
  | cons e rest ih =>
    cases e with
    | pin l v => cases l <;> simp [clockEdges, ih]; omega
    | sample x => simp [clockEdges, ih]

theorem mosiLevels_transfer (m : Mode) (ts bs : List Bool) (h : ts.length = bs.length) :
    mosiLevels (transferEvents m ts bs) = ts := by
  induction ts generalizing bs with
  | nil => cases bs <;> rfl
  | cons t ts ih => cases bs with
    | nil => simp at h
    | cons b bs =>
      have := ih bs (by simpa using h)
      cases hp : m.pha <;> simp [transferEvents, bitEvents, hp, mosiLevels, this]

theorem csEvents_transfer (m : Mode) (ts bs : List Bool) : csEvents (transferEvents m ts bs) = [] := by
  induction ts generalizing bs with
  | nil => cases bs <;> rfl
  | cons t ts ih => cases bs with
    | nil => rfl
    | cons b bs =>
      cases hp : m.pha <;> simp [transferEvents, bitEvents, hp, csEvents, ih]

theorem clockEdges_transfer (m : Mode) (ts bs : List Bool) (h : ts.length = bs.length) :
    clockEdges (transferEvents m ts bs) = 2 * ts.length := by
  induction ts generalizing bs with
  | nil => cases bs <;> rfl
  | cons t ts ih => cases bs with
    | nil => simp at h
    | cons b bs =>
      have := ih bs (by simpa using h)
      cases hp : m.pha <;> simp [transferEvents, bitEvents, hp, clockEdges, this] <;> omega

theorem mosiLevels_ensure (s : State) (m : Mode) : mosiLevels (ensureEvents s m) = [] := by
  unfold ensureEvents; split <;> rfl

theorem csEvents_ensure (s : State) (m : Mode) : csEvents (ensureEvents s m) = [] := by
  unfold ensureEvents; split <;> rfl

theorem opened_trace (d : Dev) (m : Mode) (s : State) :
    (s.opened d m).trace = s.trace ++ (ensureEvents s m ++ [.pin (.cs d) false]) := by
  show (s.ensured m).trace ++ _ = _
  rw [ensured_trace, List.append_assoc]

theorem applyConfig_trace (cfg : BusConfig) (s : State) :
    (s.applyConfig cfg).trace = s.trace ++ [.pin .sclk cfg.pol.idleLevel] := by rw [applyConfig_eq]

/-- The trace after a device transaction. -/
theorem device_trace {d : Dev} {m : Mode} {s u : State} {out : List Bool} {c : Completion} (hu :
    Moved (s.opened d m) u out) :
    ((s.closed d c u).ended c).trace = s.trace ++ (ensureEvents s m ++ [.pin (.cs d) false]
      ++ transferEvents (s.opened d m).cfg.val.mode out ((s.opened d m).samples (s.opened d m).cfg.val out)
          ++ [.pin (.cs d) true] ++ s.closing c u) := by
  have hp : (u.pinWrite (.cs d) true).trace = u.trace ++ [.pin (.cs d) true] := rfl
  show (s.closed d c u).trace = _
  rcases closed_cases s d c u with ⟨h1, h2⟩ | ⟨h1, h2, -⟩
  · rw [h1, h2, hp, hu.trace, opened_trace]
    simp only [List.append_assoc, List.append_nil]
  · rw [h1, h2, applyConfig_trace, hp, hu.trace, opened_trace]
    simp only [List.append_assoc]

theorem mosiLevels_closing (s : State) (c : Completion) (u : State) : mosiLevels (s.closing c u) = [] := by
  rcases closed_cases s .dac c u with ⟨-, h⟩ | ⟨-, h, -⟩ <;> rw [h] <;> rfl

theorem csEvents_closing (s : State) (c : Completion) (u : State) : csEvents (s.closing c u) = [] := by
  rcases closed_cases s .dac c u with ⟨-, h⟩ | ⟨-, h, -⟩ <;> rw [h] <;> rfl

theorem untouched_closing {l : Line} (s : State) (c : Completion) (u : State) (hl : l ≠ .sclk) :
    untouched l (s.closing c u) := by
  rcases closed_cases s .dac c u with ⟨-, h⟩ | ⟨-, h, -⟩ <;> rw [h] <;> simp [untouched, hl]

theorem initBus_trace (baud : Nat) (cfg : BusConfig) (s : State) :
    (s.initBus baud cfg).trace = s.trace ++ [.pin .sclk cfg.pol.idleLevel] := by
  unfold State.initBus
  cases s.board.variant <;> simp [applyConfig_eq]

theorem opened_frame (d : Dev) (m : Mode) (s :
    State) : (s.opened d m).power = s.power ∧ (s.opened d m).payloadEn = s.payloadEn
    ∧ (s.opened d m).heaterEn = s.heaterEn ∧ (s.opened d m).relay0 = s.relay0 ∧ (s.opened d m).relay1 = s.relay1
    ∧ (s.opened d m).constructed = s.constructed ∧ (s.opened d m).busReady = s.busReady ∧
        (s.opened d m).prescaler = s.prescaler
    ∧ (s.opened d m).cs = setCs d false s.cs ∧ (s.opened d m).board = s.board ∧ (s.opened d m).script = s.script := by
  unfold State.opened State.ensured
  split
  · exact ⟨rfl, rfl, rfl, rfl, rfl, rfl, rfl, rfl, rfl, rfl, rfl⟩
  · rw [applyConfig_eq]; exact ⟨rfl, rfl, rfl, rfl, rfl, rfl, rfl, rfl, rfl, rfl, rfl⟩

/-- What the end of a transaction leaves of the state it began in, before the configuration is put back. -/
theorem pulled_frame {d : Dev} {m : Mode} {s u : State} {out : List Bool} {c : Completion} (hu :
    Moved (s.opened d m) u out) :
    ∀ t, t = (u.pinWrite (.cs d) true).ended c → t.power = s.power ∧ t.payloadEn = s.payloadEn
    ∧ t.heaterEn = s.heaterEn ∧ t.relay0 = s.relay0 ∧ t.relay1 = s.relay1
    ∧ t.constructed = s.constructed ∧ t.busReady = s.busReady ∧ t.prescaler = s.prescaler
    ∧ t.cs = setCs d true (setCs d false s.cs) ∧ t.board = s.board ∧ t.script = s.script := by
  rintro t rfl
  obtain ⟨h1, h2, h3, h4, h5, h6, h7, h8, h9, h10, h11⟩ := opened_frame d m s
  have hk : ∀ v : State, v = u.pinWrite (.cs d) true → v.power = s.power ∧ v.payloadEn = s.payloadEn
      ∧ v.heaterEn = s.heaterEn ∧ v.relay0 = s.relay0 ∧ v.relay1 = s.relay1
      ∧ v.constructed = s.constructed ∧ v.busReady = s.busReady ∧ v.prescaler = s.prescaler
      ∧ v.cs = setCs d true (setCs d false s.cs) ∧ v.board = s.board ∧ v.script = s.script := by
    rintro v rfl
    rw [hu.only]
    exact ⟨h1, h2, h3, h4, h5, h6, h7, h8, congrArg _ h9, h10, h11⟩
  exact hk (u.pinWrite (.cs d) true) rfl

/-- What a transaction leaves of the state it began in, whether it raises or not. -/
theorem device_frame {d : Dev} {m : Mode} {s u : State} {out : List Bool} {c : Completion} (hu :
    Moved (s.opened d m) u out) :
    ∀ t, t = (s.closed d c u).ended c → t.power = s.power ∧ t.payloadEn = s.payloadEn
    ∧ t.heaterEn = s.heaterEn ∧ t.relay0 = s.relay0 ∧ t.relay1 = s.relay1
    ∧ t.constructed = s.constructed ∧ t.busReady = s.busReady ∧ t.prescaler = s.prescaler
    ∧ t.cs = setCs d true (setCs d false s.cs) ∧ t.board = s.board ∧ t.script = s.script := by
  rintro t rfl
  have hk := pulled_frame (c := c) hu _ rfl
  rcases closed_cases s d c u with ⟨hc, -⟩ | ⟨hc, -⟩
  · rw [hc]; exact hk
  · rw [hc, applyConfig_eq]; exact hk

theorem untouched_append {l : Line} {a b : List Event} : untouched l (a ++ b) ↔ untouched l a ∧ untouched l b := by
  simp only [untouched, List.mem_append, not_or]
  exact ⟨fun h => ⟨fun v => (h v).1, fun v => (h v).2⟩, fun h v => ⟨h.1 v, h.2 v⟩⟩

theorem untouched_transfer {l : Line} (m : Mode) (ts bs : List Bool) (h1 : l ≠ .sclk) (h2 : l ≠ .mosi) :
    untouched l (transferEvents m ts bs) := by
  induction ts generalizing bs with
  | nil => intro v; cases bs <;> simp [transferEvents]
  | cons t ts ih => cases bs with
    | nil => intro v; simp [transferEvents]
    | cons b bs =>
      have hx := ih bs
      intro v
      have := hx v
      cases hp : m.pha <;> simp [transferEvents, bitEvents, hp, h1, h2, this]

theorem untouched_ensure {l : Line} (s : State) (m : Mode) (h1 : l ≠ .sclk) : untouched l (ensureEvents s m) := by
  unfold ensureEvents untouched; split <;> simp [h1]

theorem chipSelectRun_append (c : Option Dev) (a b : List Event) :
    chipSelectRun c (a ++ b) = (chipSelectRun c a).bind fun d => chipSelectRun d b := by
  induction a generalizing c with
  | nil => rfl
  | cons e rest ih =>
    cases e with
    | sample x => exact ih c
    | pin l v =>
      cases l with
      | cs d =>
        cases v <;> simp only [List.cons_append, chipSelectRun]
        · split
          · exact ih _
          · rfl
        · split
          · exact ih _
          · rfl
      | _ => exact ih c

theorem chipSelectRun_of_no_cs {c : Option Dev} {a : List Event} (h : csEvents a = []) : chipSelectRun c a = some c :=
    by
  induction a with
  | nil => rfl
  | cons e rest ih =>
    cases e with
    | sample x => exact ih h
    | pin l v =>
      cases l with
      | cs d => simp [csEvents] at h
      | _ => exact ih h

theorem chipSelectRun_raise (l : List Dev) :
    chipSelectRun none (l.map (fun d => Event.pin (.cs d) true)) = some none := by
  induction l with
  | nil => rfl
  | cons d rest ih => simpa [chipSelectRun] using ih

theorem lastLevel_append (l : Line) (a b : List Event) :
    lastLevel l (a ++ b) = match lastLevel l b with
      | some w => some w
      | none => lastLevel l a := by
  induction a with
  | nil => simp [lastLevel]; cases lastLevel l b <;> rfl
  | cons e rest ih =>
    cases e with
    | sample x => simpa [lastLevel] using ih
    | pin k v =>
      simp only [List.cons_append, lastLevel, ih]
      cases lastLevel l b <;> rfl

theorem heaterSafeFrom_append (p h : Bool) (a b : List Event) :
    heaterSafeFrom p h (a ++ b) = (heaterSafeFrom p h a
      && heaterSafeFrom ((lastLevel .payloadEn a).getD p) ((lastLevel .heaterEn a).getD h) b) := by
  induction a generalizing p h with
  | nil =>
    simp only [List.nil_append, heaterSafeFrom, lastLevel, Option.getD_none]
    cases b with
    | nil => simp [heaterSafeFrom]
    | cons e rest =>
      cases hp : (p || !h)
      · cases e with
        | sample x => simp [heaterSafeFrom, hp]
        | pin k v => cases k <;> simp [heaterSafeFrom, hp]
      · simp
  | cons e rest ih =>
    cases e with
    | sample x => simp [heaterSafeFrom, lastLevel, ih, Bool.and_assoc]
    | pin k v =>
      cases k <;> simp [heaterSafeFrom, lastLevel, ih, Bool.and_assoc] <;>
        cases lastLevel .payloadEn rest <;> cases lastLevel .heaterEn rest <;> simp

theorem lastLevel_of_untouched {l : Line} {a : List Event} (h : untouched l a) : lastLevel l a = none := by
  induction a with
  | nil => rfl
  | cons e rest ih =>
    have hr : untouched l rest := fun v hv => h v (List.mem_cons_of_mem _ hv)
    cases e with
    | sample x => exact ih hr
    | pin k v =>
      have hk : k ≠ l := by rintro rfl; exact h v (by simp)
      simp [lastLevel, ih hr, hk]

theorem heaterSafeFrom_of_untouched {p h : Bool} {a : List Event} (hs : (p || !h) = true) (hp : untouched .payloadEn a)
    (hh : untouched .heaterEn a) : heaterSafeFrom p h a = true := by
  induction a with
  | nil => exact hs
  | cons e rest ih =>
    have h1 : untouched .payloadEn rest := fun v hv => hp v (List.mem_cons_of_mem _ hv)
    have h2 : untouched .heaterEn rest := fun v hv => hh v (List.mem_cons_of_mem _ hv)
    cases e with
    | sample x => simp [heaterSafeFrom, hs, ih h1 h2]
    | pin k v =>
      cases k <;> first
        | (exact absurd List.mem_cons_self (hp v))
        | (exact absurd List.mem_cons_self (hh v))
        | simp [heaterSafeFrom, hs, ih h1 h2]

/-- What an operation adds to the trace. -/
theorem effect_trace {s t : State} {i : Instr} (h : Effect s i t) :
    ∃ evs, t.trace = s.trace ++ evs ∧ chipSelectRun none evs = some none := by
  cases h with
  | init baud cfg hb => exact ⟨_, initBus_trace _ _ _, rfl⟩
  | quiet i r he => exact ⟨[], by simp [State.ended], rfl⟩
  | config i cfg he hb => exact ⟨_, applyConfig_trace _ _, rfl⟩
  | raw i n d c he h1 h32 hb hv => exact ⟨_, rfl, chipSelectRun_of_no_cs (csEvents_transfer _ _ _)⟩
  | device i f d m out c u he hl hm hb hcs hcc hp hne hpre hfull hv hu =>
    refine ⟨_, device_trace hu, ?_⟩
    rw [chipSelectRun_append, chipSelectRun_append, chipSelectRun_append, chipSelectRun_append,
      chipSelectRun_of_no_cs (csEvents_ensure _ _)]
    simp [chipSelectRun, chipSelectRun_of_no_cs (csEvents_transfer _ _ _),
      chipSelectRun_of_no_cs (csEvents_closing _ _ _)]
  | power i l v p he hi =>
    refine ⟨[.pin l v], by simp [State.ended], ?_⟩
    rcases hi with h | h | h | h <;> obtain ⟨-, rfl, -⟩ := h <;> rfl
  | relay i r v he hp =>
    refine ⟨[.pin (relayLine r) v], by simp [State.ended], ?_⟩
    unfold relayLine; split <;> rfl

/-- An operation that is no transition drives neither enable line. -/
theorem effect_enable {s t : State} {i : Instr} (h : Effect s i t) :
    (∃ evs, t.trace = s.trace ++ evs ∧ untouched .payloadEn evs ∧ untouched .heaterEn evs ∧ t.power = s.power
      ∧ t.payloadEn = s.payloadEn ∧ t.heaterEn = s.heaterEn)
    ∨ (∃ l v p, t = ({ s.pinWrite l v with power := p } : State).ended (.done .unit) ∧
      ((l = .payloadEn ∧ v = true ∧ s.power = .offOff ∧ p = .onOff) ∨
        (l = .payloadEn ∧ v = false ∧ s.power = .onOff ∧ p = .offOff) ∨
        (l = .heaterEn ∧ v = true ∧ s.power = .onOff ∧ p = .onOn) ∨
        (l = .heaterEn ∧ v = false ∧ s.power = .onOn ∧ p = .onOff))) := by
  cases h with
  | init baud cfg hb =>
    left
    refine ⟨_, initBus_trace _ _ _, by simp [untouched], by simp [untouched], ?_, ?_, ?_⟩ <;>
      (unfold State.initBus; cases s.board.variant <;> simp [applyConfig_eq, State.ended])
  | quiet i r he => left; exact ⟨[], by simp [State.ended], by simp [untouched], by simp [untouched], rfl, rfl, rfl⟩
  | config i cfg he hb =>
    left
    refine ⟨_, applyConfig_trace _ _, by simp [untouched], by simp [untouched], ?_, ?_, ?_⟩ <;> simp [applyConfig_eq,
        State.ended]
  | raw i n d c he h1 h32 hb hv =>
    left
    exact ⟨_, rfl, untouched_transfer _ _ _ (by simp) (by simp), untouched_transfer _ _ _ (by simp) (by simp), rfl,
        rfl, rfl⟩
  | device i f d m out c u he hl hm hb hcs hcc hp hne hpre hfull hv hu =>
    left
    obtain ⟨h1, h2, h3, -⟩ := device_frame (c := c) hu _ rfl
    have key : ∀ l, l ≠ .sclk → l ≠ .mosi → (∀ d, l ≠ .cs d) → untouched l (ensureEvents s m ++ [.pin (.cs d) false]
      ++ transferEvents (s.opened d m).cfg.val.mode out ((s.opened d m).samples (s.opened d m).cfg.val out)
          ++ [.pin (.cs d) true] ++ s.closing c u) := by
      intro l h1 h2 h3
      rw [untouched_append, untouched_append, untouched_append, untouched_append]
      exact ⟨⟨⟨⟨untouched_ensure _ _ h1, by simp [untouched, h3]⟩, untouched_transfer _ _ _ h1 h2⟩,
          by simp [untouched, h3]⟩, untouched_closing _ _ _ h1⟩
    exact ⟨_, device_trace hu, key _ (by simp) (by simp) (by simp), key _ (by simp) (by simp) (by simp), h1, h2, h3⟩
  | power i l v p he hi =>
    right
    refine ⟨l, v, p, rfl, ?_⟩
    rcases hi with ⟨-, h⟩ | ⟨-, h⟩ | ⟨-, h⟩ | ⟨-, h⟩
    · exact .inl h
    · exact .inr (.inl h)
    · exact .inr (.inr (.inl h))
    · exact .inr (.inr (.inr h))
  | relay i r v he hp =>
    left
    refine ⟨[.pin (relayLine r) v], by simp [State.ended], ?_, ?_, ?_, ?_, ?_⟩ <;> unfold relayLine <;> split
        <;> simp [untouched, State.ended]

theorem heaterSafe_extend {s t : State} {evs : List Event} (hs : s.HeaterSafe) (ht : t.trace = s.trace ++ evs)
    (hn : heaterSafeFrom s.power.payloadOn s.power.heaterOn evs = true)
    (hp : (lastLevel .payloadEn evs).getD s.power.payloadOn = t.power.payloadOn)
    (hh : (lastLevel .heaterEn evs).getD s.power.heaterOn = t.power.heaterOn) : t.HeaterSafe := by
  obtain ⟨h1, h2, h3⟩ := hs
  refine ⟨?_, ?_, ?_⟩
  · rw [ht, heaterSafeFrom_append, h1, h2, h3, hn]; rfl
  · rw [ht, lastLevel_append, ← hp]; cases lastLevel .payloadEn evs
    · exact h2
    · rfl
  · rw [ht, lastLevel_append, ← hh]; cases lastLevel .heaterEn evs
    · exact h3
    · rfl

end Sys2Proof.Machine
end

