-- ==== Sys2Proof/Laws/Step.lean ====
section
/-! SUPPORT. What a step that answers a next state has done (`step_cases`), and what construction does. -/

namespace Sys2Proof.Machine

/-- What a step that answers a next state has done: nothing, an operation, or one of the other host steps. -/
theorem step_cases {s t : State} (h : step s = .next t) :
    (s.script = [] ∧ t = s ∧ s.opstate = .idle)
    ∨ ∃ x rest, s.script = x :: rest ∧
      ((∃ i, exec i { s with script := rest } = .next t)
       ∨ (x = .construct ∧ s.opstate = .idle ∧ s.busReady = true ∧ s.constructed = false ∧ t = ({ s with script :=
           rest } : State).construct)
       ∨ (x = .halt ∧ s.opstate = .idle ∧ t = { s with script := rest, opstate := .halted })
       ∨ (s.opstate = .idle ∧ t = { s with script := rest })
       ∨ (x = .physicalReset ∧ t = ({ s with script := rest } : State).physicalReset)
       ∨ (∃ i k u, x = .resetDuring i k ∧ exec i { s with script := rest } = .next u
          ∧ t = (({ s with script := rest } : State).midway i
              ((u.trace.drop s.trace.length).take k)).physicalReset)) := by
  unfold step at h
  cases hs : s.script with
  | nil =>
    rw [hs] at h
    left
    simp only [hostRest, betweenOps] at h
    split at h
    · rename_i ho; cases h; exact ⟨rfl, rfl, ho⟩
    · cases h
    · cases h
  | cons x rest =>
    rw [hs] at h
    right
    refine ⟨x, rest, rfl, ?_⟩
    cases x with
    | issue i => exact .inl ⟨i, h⟩
    | tableWord n w =>
      simp only [hostStep] at h
      split at h
      · rename_i i _; exact .inl ⟨i, h⟩
      · simp only [hostBadWord, betweenOps] at h; split at h <;> cases h
    | construct =>
      right; left
      simp only [hostStep, hostConstruct, betweenOps] at h
      split at h
      · rename_i ho
        split at h
        · cases h
        · rename_i hb
          split at h
          · cases h
          · rename_i hc
            split at h
            · cases h
            · cases h; exact ⟨rfl, ho, by simpa using hb, by simpa using hc, rfl⟩
      · cases h
      · cases h
    | halt =>
      right; right; left
      simp only [hostStep, hostHalt, betweenOps] at h
      split at h
      · rename_i ho; cases h; exact ⟨rfl, ho, rfl⟩
      · cases h
      · cases h
    | delay n =>
      right; right; right; left
      simp only [hostStep, hostDelay, betweenOps] at h
      split at h
      · rename_i ho; cases h; exact ⟨ho, rfl⟩
      · cases h
      · cases h
    | physicalReset =>
      right; right; right; right; left
      simp only [hostStep, hostReset] at h
      cases h; exact ⟨rfl, rfl⟩
    | resetDuring i k =>
      right; right; right; right; right
      simp only [hostStep, hostResetDuring] at h
      split at h
      · rename_i u hu; cases h; exact ⟨i, k, u, rfl, hu, rfl⟩
      · cases h
      · cases h

/-- The block in the middle of an operation (R320): what may differ from its start, and its trace. -/
theorem happenAll_frame (l : Bool) (evs : List Event) (s : State) :
    (State.happenAll l evs s).board = s.board ∧ (State.happenAll l evs s).script = s.script
      ∧ (State.happenAll l evs s).opstate = s.opstate ∧ (State.happenAll l evs s).errIn = s.errIn
      ∧ (State.happenAll l evs s).errDraws = s.errDraws ∧ (State.happenAll l evs s).trace = s.trace ++ evs := by
  induction evs generalizing s with
  | nil => simp [State.happenAll]
  | cons e rest ih =>
    obtain ⟨h1, h2, h3, h4, h5, h6⟩ := ih (s.happen l e)
    have hk : (s.happen l e).board = s.board ∧ (s.happen l e).script = s.script ∧ (s.happen l e).opstate = s.opstate
        ∧ (s.happen l e).errIn = s.errIn ∧ (s.happen l e).errDraws = s.errDraws
        ∧ (s.happen l e).trace = s.trace ++ [e] := by
      cases e with
      | pin k v => cases k <;> exact ⟨rfl, rfl, rfl, rfl, rfl, rfl⟩
      | sample b =>
        cases l
        · cases hm : s.misoIn <;> simp [State.happen, State.misoAdvance, State.emit, hm]
        · exact ⟨rfl, rfl, rfl, rfl, rfl, rfl⟩
    obtain ⟨k1, k2, k3, k4, k5, k6⟩ := hk
    exact ⟨h1.trans k1, h2.trans k2, h3.trans k3, h4.trans k4, h5.trans k5, by
      rw [State.happenAll, h6, k6, List.append_assoc]; rfl⟩

/-- The draws of `k` transfers, said once (R132). -/
theorem drawErrors_eq (k : Nat) (s : State) :
    s.drawErrors k = { s with errIn := s.errIn.drop k, errDraws := s.errDraws + (k - s.errIn.length) } := by
  induction k generalizing s with
  | zero => simp [State.drawErrors]
  | succ k ih =>
    rw [State.drawErrors, ih]
    cases h : s.errIn with
    | nil =>
      simp only [State.errAdvance, h, List.drop_nil, List.length_nil, Nat.sub_zero]
      rw [Nat.add_assoc, Nat.add_comm 1 k]
    | cons e l => simp [State.errAdvance, h]

/-- The block in the middle of an operation, said once: the events, the position, and the draws (R24, R132, R320). -/
theorem midway_eq (i : Instr) (evs : List Event) (s : State) :
    s.midway i evs =
      { State.happenAll s.cfg.val.loopback evs s with
        opstate := .busy i (Position.after (transferBitsOf s.board i) (bitTimes evs))
        errIn := match s.board.variant with
          | .softwareTimed => s.errIn
          | .peripheralTimed => s.errIn.drop (Position.after (transferBitsOf s.board i) (bitTimes evs)).transfers
        errDraws := match s.board.variant with
          | .softwareTimed => s.errDraws
          | .peripheralTimed => s.errDraws
              + ((Position.after (transferBitsOf s.board i) (bitTimes evs)).transfers - s.errIn.length) } := by
  obtain ⟨-, -, -, h4, h5, -⟩ := happenAll_frame s.cfg.val.loopback evs s
  unfold State.midway
  cases s.board.variant with
  | softwareTimed => simp only [← h4, ← h5]
  | peripheralTimed => simp only [drawErrors_eq, h4, h5]

/-- What is counted of the first `k` events of a transfer (R96): four events make a bit time. -/
theorem countP_transferEvents (m : Mode) (ts bs : List Bool) (h : ts.length = bs.length) (k : Nat)
    (hk : k ≤ 4 * ts.length) :
    min (((transferEvents m ts bs).take k).countP Event.isSample) (((transferEvents m ts bs).take k).countP Event.isEdge / 2)
      = k / 4 := by
  suffices hs : ∀ k ≤ 4 * ts.length,
      (((transferEvents m ts bs).take k).countP Event.isSample = k / 4
          ∨ (((transferEvents m ts bs).take k).countP Event.isSample = k / 4 + 1
              ∧ ((transferEvents m ts bs).take k).countP Event.isEdge = 2 * (k / 4) + 1))
        ∧ 2 * (k / 4) ≤ ((transferEvents m ts bs).take k).countP Event.isEdge by
    have := hs k hk
    omega
  clear hk k
  induction ts generalizing bs with
  | nil => intro k hk; simp only [List.length_nil, Nat.mul_zero, Nat.le_zero] at hk; subst hk; simp
  | cons t ts ih =>
    cases bs with
    | nil => simp at h
    | cons b bs =>
      intro k hk
      simp only [List.length_cons, Nat.add_right_cancel_iff] at h hk
      match k with
      | 0 => simp
      | 1 => cases hp : m.pha <;> simp [transferEvents, bitEvents, hp, Event.isSample, Event.isEdge]
      | 2 => cases hp : m.pha <;> simp [transferEvents, bitEvents, hp, Event.isSample, Event.isEdge]
      | 3 => cases hp : m.pha <;> simp [transferEvents, bitEvents, hp, Event.isSample, Event.isEdge]
      | k + 4 =>
        have := ih bs h k (by omega)
        cases hp : m.pha <;>
          simp [transferEvents, bitEvents, hp, Event.isSample, Event.isEdge, List.countP_cons] <;> omega

/-- The first `k` events of a transfer are `k / 4` bit times (R24, R96). -/
theorem bitTimes_transferEvents (m : Mode) (ts bs : List Bool) (h : ts.length = bs.length) (k : Nat)
    (hk : k ≤ 4 * ts.length) : bitTimes ((transferEvents m ts bs).take k) = k / 4 := by
  have hsel : ∀ e ∈ transferEvents m ts bs, e.selects = false := by
    clear hk k
    induction ts generalizing bs with
    | nil => simp [transferEvents]
    | cons t ts ih =>
      cases bs with
      | nil => simp [transferEvents]
      | cons b bs =>
        intro e he
        simp only [transferEvents, List.mem_append] at he
        rcases he with he | he
        · cases hp : m.pha <;> simp only [bitEvents, hp, List.mem_cons, List.not_mem_nil, or_false] at he <;>
            rcases he with rfl | rfl | rfl | rfl <;> rfl
        · exact ih bs (by simpa using h) e he
  have htake : (((transferEvents m ts bs).take k).reverse.takeWhile fun e => !e.selects)
      = ((transferEvents m ts bs).take k).reverse :=
    List.takeWhile_eq_self_iff.2 fun e he => by
      simp [hsel e (List.mem_of_mem_take (List.mem_reverse.1 he))]
  simp only [bitTimes, htake, List.countP_reverse]
  exact countP_transferEvents m ts bs h k hk

/-- In the middle of an operation a chip select is where the events so far have driven it last (R40, R45). -/
theorem happenAll_csReg (lb : Bool) (evs : List Event) (d : Dev) (s : State) :
    (State.happenAll lb evs s).csReg d =
      match lastLevel (.cs d) evs with
      | some v => Reg.written v
      | none => s.csReg d := by
  induction evs generalizing s with
  | nil => rfl
  | cons e rest ih =>
    rw [State.happenAll, ih]
    cases e with
    | sample b =>
      show _ = match lastLevel (.cs d) rest with | some v => Reg.written v | none => _
      cases lastLevel (.cs d) rest with
      | some w => rfl
      | none =>
        cases lb
        · cases hm : s.misoIn <;> simp [State.happen, State.misoAdvance, State.emit, State.csReg, hm]
        · rfl
    | pin l v =>
      show _ = match (match lastLevel (.cs d) rest with | some w => some w | none => if l = Line.cs d then some v else none)
        with | some v => Reg.written v | none => _
      cases lastLevel (.cs d) rest with
      | some w => rfl
      | none =>
        cases l with
        | cs e =>
          show (s.pinWrite (.cs e) v).csReg d = _
          rw [csReg_pinWrite_cs]
          by_cases h : d = e
          · subst h; simp
          · simp [h, Ne.symm h]
        | _ => simp only [reduceCtorEq, if_false]; rfl
theorem raiseCs_trace (l : List Dev) (s : State) :
    (State.raiseCs l s).trace = s.trace ++ l.map (fun d => .pin (.cs d) true) := by
  induction l generalizing s with
  | nil => simp [State.raiseCs]
  | cons d rest ih => rw [State.raiseCs, ih]; simp

theorem construct_trace (s : State) :
    s.construct.trace = s.trace ++ (s.board.devs.map (fun d =>
        .pin (.cs d) true) ++ [.pin .heaterEn false, .pin .payloadEn false]) := by
  show (State.pinWrite _ _ _).trace = _
  simp [raiseCs_trace]

theorem raiseCs_frame (l : List Dev) (s : State) : State.raiseCs l s =
    { s with cs := (State.raiseCs l s).cs, trace := (State.raiseCs l s).trace } := by
  induction l generalizing s with
  | nil => rfl
  | cons d rest ih => rw [State.raiseCs, ih]; rfl

theorem raiseCs_csReg (l : List Dev) (s : State) (d : Dev) :
    (State.raiseCs l s).csReg d = if d ∈ l then Reg.written true else s.csReg d := by
  induction l generalizing s with
  | nil => rfl
  | cons e rest ih =>
    rw [State.raiseCs, ih, csReg_pinWrite_cs]
    by_cases h1 : d ∈ rest <;> by_cases h2 : d = e <;> simp [h1, h2]

theorem setCs_true_all {d : Dev} {l : List (Dev × Level)} (h : ∀ e ∈ l, e.2 = true) :
    ∀ e ∈ setCs d true l, e.2 = true := by
  induction l with
  | nil => simp [setCs]
  | cons p rest ih =>
    obtain ⟨a, w⟩ := p
    have hr : ∀ e ∈ rest, e.2 = true := fun e he => h e (List.mem_cons_of_mem _ he)
    by_cases ha : a = d
    · subst ha
      simp only [setCs, if_true, List.mem_cons]
      rintro e (rfl | he)
      · rfl
      · exact hr e he
    · simp only [setCs, ha, if_false, List.mem_cons]
      rintro e (rfl | he)
      · exact h (a, w) (List.mem_cons_self)
      · exact ih hr e he

theorem raiseCs_all {l : List Dev} {s : State} (h : ∀ e ∈ s.cs, e.2 = true) :
    ∀ e ∈ (State.raiseCs l s).cs, e.2 = true := by
  induction l generalizing s with
  | nil => exact h
  | cons d rest ih => exact ih (setCs_true_all h)

@[simp] theorem raiseCs_board (l : List Dev) (s : State) : (State.raiseCs l s).board = s.board := by rw [raiseCs_frame]
@[simp] theorem raiseCs_script (l : List Dev) (s : State) : (State.raiseCs l s).script = s.script :=
    by rw [raiseCs_frame]
@[simp] theorem raiseCs_opstate (l : List Dev) (s : State) : (State.raiseCs l s).opstate = s.opstate :=
    by rw [raiseCs_frame]
@[simp] theorem raiseCs_completion (l : List Dev) (s : State) : (State.raiseCs l s).completion = s.completion :=
    by rw [raiseCs_frame]
@[simp] theorem raiseCs_constructed (l : List Dev) (s : State) : (State.raiseCs l s).constructed = s.constructed :=
    by rw [raiseCs_frame]
@[simp] theorem raiseCs_sr (l : List Dev) (s : State) : (State.raiseCs l s).sr = s.sr := by rw [raiseCs_frame]
@[simp] theorem raiseCs_txbuf (l : List Dev) (s : State) : (State.raiseCs l s).txbuf = s.txbuf := by rw [raiseCs_frame]
@[simp] theorem raiseCs_rxbuf (l : List Dev) (s : State) : (State.raiseCs l s).rxbuf = s.rxbuf := by rw [raiseCs_frame]
@[simp] theorem raiseCs_txrdy (l : List Dev) (s : State) : (State.raiseCs l s).txrdy = s.txrdy := by rw [raiseCs_frame]
@[simp] theorem raiseCs_rxrdy (l : List Dev) (s : State) : (State.raiseCs l s).rxrdy = s.rxrdy := by rw [raiseCs_frame]
@[simp] theorem raiseCs_fe (l : List Dev) (s : State) : (State.raiseCs l s).fe = s.fe := by rw [raiseCs_frame]
@[simp] theorem raiseCs_oe (l : List Dev) (s : State) : (State.raiseCs l s).oe = s.oe := by rw [raiseCs_frame]
@[simp] theorem raiseCs_cfg (l : List Dev) (s : State) : (State.raiseCs l s).cfg = s.cfg := by rw [raiseCs_frame]
@[simp] theorem raiseCs_swrst (l : List Dev) (s : State) : (State.raiseCs l s).swrst = s.swrst := by rw [raiseCs_frame]
@[simp] theorem raiseCs_prescaler (l : List Dev) (s : State) : (State.raiseCs l s).prescaler = s.prescaler :=
    by rw [raiseCs_frame]
@[simp] theorem raiseCs_busReady (l : List Dev) (s : State) : (State.raiseCs l s).busReady = s.busReady :=
    by rw [raiseCs_frame]
@[simp] theorem raiseCs_cfgCur (l : List Dev) (s : State) : (State.raiseCs l s).cfgCur = s.cfgCur :=
    by rw [raiseCs_frame]
@[simp] theorem raiseCs_power (l : List Dev) (s : State) : (State.raiseCs l s).power = s.power := by rw [raiseCs_frame]
@[simp] theorem raiseCs_sclk (l : List Dev) (s : State) : (State.raiseCs l s).sclk = s.sclk := by rw [raiseCs_frame]
@[simp] theorem raiseCs_mosi (l : List Dev) (s : State) : (State.raiseCs l s).mosi = s.mosi := by rw [raiseCs_frame]
@[simp] theorem raiseCs_payloadEn (l : List Dev) (s : State) : (State.raiseCs l s).payloadEn = s.payloadEn :=
    by rw [raiseCs_frame]
@[simp] theorem raiseCs_heaterEn (l : List Dev) (s : State) : (State.raiseCs l s).heaterEn = s.heaterEn :=
    by rw [raiseCs_frame]
@[simp] theorem raiseCs_relay0 (l : List Dev) (s : State) : (State.raiseCs l s).relay0 = s.relay0 :=
    by rw [raiseCs_frame]
@[simp] theorem raiseCs_relay1 (l : List Dev) (s : State) : (State.raiseCs l s).relay1 = s.relay1 :=
    by rw [raiseCs_frame]
@[simp] theorem raiseCs_misoIn (l : List Dev) (s : State) : (State.raiseCs l s).misoIn = s.misoIn :=
    by rw [raiseCs_frame]
@[simp] theorem raiseCs_misoDraws (l : List Dev) (s : State) : (State.raiseCs l s).misoDraws = s.misoDraws :=
    by rw [raiseCs_frame]
@[simp] theorem raiseCs_errIn (l : List Dev) (s : State) : (State.raiseCs l s).errIn = s.errIn := by rw [raiseCs_frame]
@[simp] theorem raiseCs_errDraws (l : List Dev) (s : State) : (State.raiseCs l s).errDraws = s.errDraws :=
    by rw [raiseCs_frame]
@[simp] theorem construct_cs (s : State) : s.construct.cs = (State.raiseCs s.board.devs s).cs :=
    by simp [State.construct]
@[simp] theorem construct_board (s : State) : s.construct.board = s.board := by simp [State.construct]
@[simp] theorem construct_script (s : State) : s.construct.script = s.script := by simp [State.construct]
@[simp] theorem construct_opstate (s : State) : s.construct.opstate = s.opstate := by simp [State.construct]
@[simp] theorem construct_completion (s : State) : s.construct.completion = s.completion := by simp [State.construct]
@[simp] theorem construct_constructed (s : State) : s.construct.constructed = true := by simp [State.construct]
@[simp] theorem construct_sr (s : State) : s.construct.sr = s.sr := by simp [State.construct]
@[simp] theorem construct_txbuf (s : State) : s.construct.txbuf = s.txbuf := by simp [State.construct]
@[simp] theorem construct_rxbuf (s : State) : s.construct.rxbuf = s.rxbuf := by simp [State.construct]
@[simp] theorem construct_txrdy (s : State) : s.construct.txrdy = s.txrdy := by simp [State.construct]
@[simp] theorem construct_rxrdy (s : State) : s.construct.rxrdy = s.rxrdy := by simp [State.construct]
@[simp] theorem construct_fe (s : State) : s.construct.fe = s.fe := by simp [State.construct]
@[simp] theorem construct_oe (s : State) : s.construct.oe = s.oe := by simp [State.construct]
@[simp] theorem construct_cfg (s : State) : s.construct.cfg = s.cfg := by simp [State.construct]
@[simp] theorem construct_swrst (s : State) : s.construct.swrst = s.swrst := by simp [State.construct]
@[simp] theorem construct_prescaler (s : State) : s.construct.prescaler = s.prescaler := by simp [State.construct]
@[simp] theorem construct_busReady (s : State) : s.construct.busReady = s.busReady := by simp [State.construct]
@[simp] theorem construct_cfgCur (s : State) : s.construct.cfgCur = s.cfgCur := by simp [State.construct]
@[simp] theorem construct_power (s : State) : s.construct.power = .offOff := by simp [State.construct]
@[simp] theorem construct_sclk (s : State) : s.construct.sclk = s.sclk := by simp [State.construct]
@[simp] theorem construct_mosi (s : State) : s.construct.mosi = s.mosi := by simp [State.construct]
@[simp] theorem construct_payloadEn (s : State) : s.construct.payloadEn = Reg.written false :=
    by simp [State.construct]
@[simp] theorem construct_heaterEn (s : State) : s.construct.heaterEn = Reg.written false := by simp [State.construct]
@[simp] theorem construct_relay0 (s : State) : s.construct.relay0 = s.relay0 := by simp [State.construct]
@[simp] theorem construct_relay1 (s : State) : s.construct.relay1 = s.relay1 := by simp [State.construct]
@[simp] theorem construct_misoIn (s : State) : s.construct.misoIn = s.misoIn := by simp [State.construct]
@[simp] theorem construct_misoDraws (s : State) : s.construct.misoDraws = s.misoDraws := by simp [State.construct]
@[simp] theorem construct_errIn (s : State) : s.construct.errIn = s.errIn := by simp [State.construct]
@[simp] theorem construct_errDraws (s : State) : s.construct.errDraws = s.errDraws := by simp [State.construct]

end Sys2Proof.Machine
end

