-- ==== Sys2Proof/Laws/AtRest.lean ====
section
/-! SUPPORT. Each effect keeps the block at rest. -/

namespace Sys2Proof.Machine

theorem construct_atRest {s : State} (hs : s.AtRest) (hb : s.busReady = true) : s.construct.AtRest := by
  obtain ⟨h1, h2, h3, ⟨h4, h5⟩, h6⟩ := hs
  refine ⟨by simpa using h1, by simpa [State.FlagsAtRest] using h2, by simpa [State.BusAtRest] using h3,
      ⟨by rw [construct_cs]; exact raiseCs_all h4, fun _ =>
      ⟨by simpa using hb, ?_, by simp [Power.payloadOn], by simp [Power.heaterOn]⟩⟩, by simp⟩
  intro d hd
  rw [csReg_congr (construct_cs s), raiseCs_csReg, if_pos (by simpa using hd)]

theorem initBus_atRest {s : State} (baud : Nat) (cfg : BusConfig) (hs : s.AtRest) (hb : s.busReady = false) :
    ((s.initBus baud cfg).ended (.done .unit)).AtRest := by
  obtain ⟨h1, h2, h3, ⟨h4, h5⟩, h6⟩ := hs
  have hcf : s.constructed = false := by
    cases hcc : s.constructed
    · rfl
    · have := (h5 hcc).1; rw [hb] at this; cases this
  obtain ⟨f1, f2, f3, f4⟩ := h2
  refine ⟨.inl rfl, ?_, ?_, ⟨?_, ?_⟩, ?_⟩
  · unfold State.initBus; cases hv :
      s.board.variant <;> simp [State.FlagsAtRest, applyConfig_eq, State.ended, hv, f1, f2, f3, f4]
  · intro _
    unfold State.initBus; cases hv :
        s.board.variant <;> simp [applyConfig_eq, State.ended, hv, prescalerOf, clampNat, BusConfig.mode]
    omega
  · unfold State.initBus; cases hv : s.board.variant <;> simpa [applyConfig_eq, State.ended, hv] using h4
  · unfold State.initBus; cases hv : s.board.variant <;> simp [applyConfig_eq, State.ended, hv, hcf]
  · unfold State.initBus; cases hv : s.board.variant <;> simp [applyConfig_eq, State.ended, hv, h6 hcf]

theorem applyConfig_atRest {s : State} (cfg : BusConfig) (c : Completion) (hs : s.AtRest) (hb : s.busReady = true) :
    ((s.applyConfig cfg).ended c).AtRest := by
  obtain ⟨h1, h2, h3, ⟨h4, h5⟩, h6⟩ := hs
  obtain ⟨f1, f2, f3, f4⟩ := h2
  obtain ⟨g1, g2, g3, g4⟩ := h3 hb
  refine ⟨.inl rfl, ?_, ?_, ⟨?_, ?_⟩, ?_⟩
  · cases hv : s.board.variant <;> simp [State.FlagsAtRest, applyConfig_eq, State.ended, hv, f1, f2, f3, f4]
  · intro _
    cases hv : s.board.variant <;> simp [applyConfig_eq, State.ended, hv, BusConfig.mode]
    exact (g4 hv).2
  · simpa [applyConfig_eq, State.ended] using h4
  · intro hc'
    have hc'' : s.constructed = true := by simpa [applyConfig_eq, State.ended] using hc'
    have := h5 hc''
    refine ⟨?_, ?_, ?_, ?_⟩
    · simp [applyConfig_eq, State.ended, hb]
    · intro d hd
      rw [csReg_congr (s := s) (by simp [applyConfig_eq, State.ended])]
      exact this.2.1 d (by simpa [applyConfig_eq, State.ended] using hd)
    · simp [applyConfig_eq, State.ended, this.2.2.1]
    · simp [applyConfig_eq, State.ended, this.2.2.2]
  · simpa [applyConfig_eq, State.ended] using h6

theorem pulled_atRest {s u : State} {d : Dev} {m : Mode} {out : List Bool} {c : Completion} (hs : s.AtRest) (hb :
    s.busReady = true)
    (hne : out ≠ []) (hu : Moved (s.opened d m) u out) : ((u.pinWrite (.cs d) true).ended c).AtRest := by
  obtain ⟨h1, h2, h3, ⟨h4, h5⟩, h6⟩ := hs
  obtain ⟨g1, g2, g3, g4⟩ := h3 hb
  obtain ⟨d1, d2, d3, d4, d5, d6, d7, d8, d9, d10, -⟩ := pulled_frame (c := c) hu _ rfl
  have hup : s.BusUp := ⟨hb, g1, g2⟩
  have hcfg : u.cfg = Reg.written (s.cfgFor m) := by rw [hu.cfg, opened_cfg hup]
  have hcc' : u.cfgCur = Reg.written m := by rw [hu.only]; exact ensured_cfgCur hup
  have hop : (s.opened d m).FlagsAtRest ∧ (s.board.variant = .peripheralTimed → (s.opened d m).swrst = false) := by
    obtain ⟨f1, f2, f3, f4⟩ := h2
    unfold State.opened State.ensured
    split
    · exact ⟨⟨f1, f2, f3, f4⟩, fun hv => (g4 hv).1⟩
    · cases hv : s.board.variant <;> simp [State.FlagsAtRest, applyConfig_eq, hv, f1, f2, f3, f4]
  refine ⟨.inl rfl, hu.flags hop.1, ?_, ⟨?_, ?_⟩, ?_⟩
  · intro _
    refine ⟨?_, ?_, ?_, ?_⟩
    · show u.cfg.specified = true; rw [hcfg]; rfl
    · show u.cfgCur = Reg.written u.cfg.val.mode
      rw [hcc', hcfg]; exact congrArg _ (cfgFor_mode hup).symm
    · show u.sclk = Reg.written u.cfg.val.pol.idleLevel
      rw [hu.sclk, if_neg hne, hu.cfg]
    · intro hv
      have hv' : s.board.variant = .peripheralTimed := by rw [d10] at hv; exact hv
      obtain ⟨_, hps, hpp⟩ := g4 hv'
      refine ⟨?_, ?_, ?_⟩
      · show u.swrst = false; rw [hu.only]; exact hop.2 hv'
      · rw [d8]; exact hps
      · rw [d8]; exact hpp
  · rw [d9]; exact setCs_all_true h4
  · intro hcn
    rw [d6] at hcn
    obtain ⟨k1, k2, k3, k4⟩ := h5 hcn
    refine ⟨by rw [d7]; exact hb, ?_, by rw [d2, d1]; exact k3, by rw [d3, d1]; exact k4⟩
    intro x hx
    rw [d10] at hx
    simp only [State.csReg, d9, assoc_setCs]
    by_cases hxd : x = d
    · simp [hxd]
    · simp only [hxd, if_false]; exact k2 x hx
  · intro hcn
    rw [d6] at hcn; rw [d1]; exact h6 hcn

/-- A device transaction leaves the block at rest, whether it raises or not. -/
theorem device_atRest {s u : State} {d : Dev} {m : Mode} {out : List Bool} {c : Completion} (hs : s.AtRest) (hb :
    s.busReady = true)
    (hne : out ≠ []) (hu : Moved (s.opened d m) u out) : ((s.closed d c u).ended c).AtRest := by
  have h := pulled_atRest (c := c) hs hb hne hu
  have hbr : ((u.pinWrite (.cs d) true).ended c).busReady = true := by
    have := (pulled_frame (c := c) hu _ rfl).2.2.2.2.2.2.1
    exact this.trans hb
  rcases closed_cases s d c u with ⟨hc, -⟩ | ⟨hc, -⟩
  · rw [hc]; exact h
  · rw [hc]
    have h2 := applyConfig_atRest s.cfg.val c h hbr
    rw [applyConfig_eq] at h2 ⊢
    exact h2

theorem power_atRest {s : State} {l : Line} {v : Level} {p : Power} (hs : s.AtRest) (hcon : s.constructed = true)
    (hi : (l = .payloadEn ∧ v = true ∧ s.power = .offOff ∧ p = .onOff) ∨
        (l = .payloadEn ∧ v = false ∧ s.power = .onOff ∧ p = .offOff) ∨
        (l = .heaterEn ∧ v = true ∧ s.power = .onOff ∧ p = .onOn) ∨
        (l = .heaterEn ∧ v = false ∧ s.power = .onOn ∧ p = .onOff)) :
    (({ s.pinWrite l v with power := p } : State).ended (.done .unit)).AtRest := by
  obtain ⟨h1, h2, h3, ⟨h4, h5⟩, h6⟩ := hs
  obtain ⟨k1, k2, k3, k4⟩ := h5 hcon
  rcases hi with ⟨rfl, rfl, hpw, rfl⟩ | ⟨rfl, rfl, hpw, rfl⟩ | ⟨rfl, rfl, hpw, rfl⟩ | ⟨rfl, rfl, hpw, rfl⟩ <;>
    rw [hpw] at k3 k4 <;>
    refine ⟨.inl rfl, h2, h3, ⟨h4, fun _ => ⟨k1, k2, ?_, ?_⟩⟩, fun hcn => absurd (hcon.symm.trans hcn) (by simp)⟩ <;>
    first | rfl | exact k3 | exact k4

theorem effect_atRest {s t : State} {i : Instr} (hs : s.AtRest)
    (hcons : s.constructed = true ∨ ∃ baud cfg, i = .busInit baud cfg) (he : Effect s i t) : t.AtRest := by
  cases he with
  | init baud cfg hb => exact initBus_atRest baud cfg hs hb
  | quiet i r he => exact ⟨.inl rfl, hs.2.1, hs.2.2.1, hs.2.2.2.1, hs.2.2.2.2⟩
  | config i cfg he hb => exact applyConfig_atRest cfg _ hs hb
  | raw i n d c he h1' h32 hb hv =>
    obtain ⟨g1, g2, g3, g4⟩ := hs.2.2.1 hb
    exact ⟨.inl rfl, (moved_transferred d s (show n ≠ 0 by omega)).flags hs.2.1, fun _ =>
        ⟨g1, g2, rfl, g4⟩, hs.2.2.2.1, hs.2.2.2.2⟩
  | device i f d m out c u he hl hm hb hcs hcc hp hne hpre hfull hv hu => exact device_atRest hs hb hne hu
  | power i l v p he hi =>
    have hcon : s.constructed = true := by
      rcases hcons with h | ⟨b, c, rfl⟩
      · exact h
      · rcases hi with ⟨h, -⟩ | ⟨h, -⟩ | ⟨h, -⟩ | ⟨h, -⟩ <;> cases h
    refine power_atRest hs hcon ?_
    rcases hi with ⟨-, h⟩ | ⟨-, h⟩ | ⟨-, h⟩ | ⟨-, h⟩
    · exact .inl h
    · exact .inr (.inl h)
    · exact .inr (.inr (.inl h))
    · exact .inr (.inr (.inr h))
  | relay i r v he hp =>
    unfold relayLine
    split <;> exact ⟨.inl rfl, hs.2.1, hs.2.2.1, hs.2.2.2.1, hs.2.2.2.2⟩

end Sys2Proof.Machine
end

