-- ==== Sys2Proof/Laws/Frames.lean ====
section
/-! SUPPORT. Decoding the frame of each engine. -/

namespace Sys2Proof.Machine

theorem decodeDac_frame {b : Board} (hw : b.wf = true) (cmd : DacCommand) {ch v : Nat} (hc : ch < 16) (hv : v < 4096) :
    decodeFrame b ⟨some .dac, 24, dacFrame (b.dacCodes.code cmd) ch v⟩ = .ok (cmd.instr ch v) := by
  have hk : (b.dacCodes.code cmd).toNat < 16 := (b.dacCodes.code cmd).isLt
  have ht := dacFrame_toNat (c := b.dacCodes.code cmd) hc hv
  unfold decodeFrame
  simp only [ht]
  rw [if_neg (by omega)]
  unfold decodeDac
  rw [if_neg (by simp)]
  have h1 : ((b.dacCodes.code cmd).toNat * 2 ^ 20 + ch * 2 ^ 16 + v * 2 ^ 4) / 2 ^ 20 = (b.dacCodes.code cmd).toNat :=
      by omega
  have h2 : ((b.dacCodes.code cmd).toNat * 2 ^ 20 + ch * 2 ^ 16 + v * 2 ^ 4) / 2 ^ 16 % 16 = ch := by omega
  have h3 : ((b.dacCodes.code cmd).toNat * 2 ^ 20 + ch * 2 ^ 16 + v * 2 ^ 4) / 2 ^ 4 % 4096 = v := by omega
  rw [h1, h2, h3, BitVec.ofNat_toNat, BitVec.setWidth_eq, command_code hw]

theorem decodeDpot_frame (b : Board) {h w : Nat} (hh : h < 256) (hw : w < 256) :
    decodeFrame b ⟨some .digipot, 16, dpotFrame h w⟩ = .ok (.dpotWrite h w) := by
  unfold decodeFrame
  simp only [dpotFrame_toNat hh hw]
  rw [if_neg (by omega)]
  unfold decodeDpot
  rw [if_neg (by simp)]
  congr 2 <;> omega

theorem decode_sensor {b : Board} {n : SensorName} {r : Sensor} {f : Frame} (hw : b.wf = true) (hr :
    b.sensor n = some r)
    (hf : encodeAdc r.adc r.channel = some f) :
    ∃ j, decodeFrame b f = .ok j ∧ encode b j = some f ∧ j.wellFormed = true := by
  obtain ⟨-, hnd, hall, -⟩ := wf_parts hw
  have hmem := assoc_mem hr
  obtain ⟨n', r', hs, hm, ha, hk⟩ := sensorAt_mem hmem rfl rfl
  have hr' : b.sensor n' = some r' := assoc_of_mem hnd hm
  refine ⟨.adcReadCount r.adc n', ?_, ?_, rfl⟩
  · unfold encodeAdc at hf
    split at hf
    · rename_i h0
      cases hf
      rw [h0] at hs
      unfold decodeFrame decodeAdc
      simp [hs]
    · rename_i h0
      split at hf
      · rename_i h7
        cases hf
        have ht : (adcFrame r.channel).toNat = r.channel * 2 ^ 27 := by
          rw [adcFrame, BitVec.toNat_ofNat, Nat.shiftLeft_eq]; apply Nat.mod_eq_of_lt; omega
        unfold decodeFrame decodeAdc
        simp only [ht]
        rw [if_neg (by omega), if_neg (by simp), if_pos (by simp), if_pos (by refine ⟨by omega, by omega, by omega⟩)]
        rw [show r.channel * 2 ^ 27 / 2 ^ 27 = r.channel by omega, hs]
      · cases hf
  · show encodeAdcRead b r.adc n' = some f
    rw [encodeAdcRead, hr']
    simp only [ha, hk, if_true]; exact hf

theorem decode_raw {b : Board} {n : Nat} {d : Word} {f : Frame} (hf : encodeRaw n d = some f) :
    ∃ j, decodeFrame b f = .ok j ∧ encode b j = some f ∧ j.wellFormed = true := by
  unfold encodeRaw at hf
  split at hf
  · rename_i hb
    cases hf
    obtain ⟨h1, h32⟩ := bitCountOk_iff.1 hb
    have ht := truncBits_toNat h32 d
    have hlt : d.toNat % 2 ^ n < 2 ^ n := Nat.mod_lt _ (by positivity)
    have htt : truncBits n (truncBits n d) = truncBits n d := by
      apply BitVec.eq_of_toNat_eq; rw [truncBits_toNat h32, ht, Nat.mod_mod]
    by_cases h0 : (truncBits n d).toNat = 0
    · refine ⟨.busRecv n, ?_, ?_, hb⟩
      · unfold decodeFrame decodeRaw; simp only [hb, h0]; simp
      · show encodeRaw n 0 = _
        rw [encodeRaw, if_pos hb]
        have : truncBits n d = 0 := BitVec.eq_of_toNat_eq h0
        rw [this]; simp [truncBits]
    · refine ⟨.busXfer n (truncBits n d), ?_, ?_, hb⟩
      · unfold decodeFrame decodeRaw
        simp only
        rw [if_neg (by rw [ht]; omega), if_pos hb, if_neg h0, BitVec.ofNat_toNat, BitVec.setWidth_eq]
      · show encodeRaw n (truncBits n d) = _
        rw [encodeRaw, if_pos hb, htt]
  · cases hf

theorem decode_dac {b : Board} (hw : b.wf = true) {cmd : DacCommand} {ch v : Nat} {f : Frame} (hf :
    encodeDac b cmd ch v = some f) :
    ∃ j, decodeFrame b f = .ok j ∧ encode b j = some f ∧ j.wellFormed = true := by
  unfold encodeDac at hf
  split at hf
  · rename_i hd
    cases hf
    have h2 : ch < 16 ∧ v < 4096 := by simpa [dacFieldsOk] using hd
    refine ⟨cmd.instr ch v, decodeDac_frame hw cmd h2.1 h2.2, ?_, ?_⟩
    · cases cmd <;> simp [encode, DacCommand.instr, encodeDac, hd]
    · cases cmd <;> exact hd
  · cases hf

theorem decode_dpot {b : Board} {h w : Nat} {f : Frame} (hf : encodeDpot h w = some f) :
    ∃ j, decodeFrame b f = .ok j ∧ encode b j = some f ∧ j.wellFormed = true := by
  have hf0 := hf
  unfold encodeDpot at hf
  split at hf
  · rename_i hd
    cases hf
    have h2 : h < 256 ∧ w < 256 := by simpa [dpotFieldsOk] using hd
    exact ⟨.dpotWrite h w, decodeDpot_frame b h2.1 h2.2, hf0, hd⟩
  · cases hf

theorem decode_encodeSensor {b : Board} {n : SensorName} {f : Frame} (hw : b.wf = true) (hf :
    encodeSensor b n = some f) :
    ∃ j, decodeFrame b f = .ok j ∧ encode b j = some f ∧ j.wellFormed = true := by
  unfold encodeSensor at hf
  cases hr : b.sensor n with
  | none => rw [hr] at hf; cases hf
  | some r => rw [hr] at hf; exact decode_sensor hw hr hf

theorem decode_supply {b : Board} {n : Option SensorName} {f : Frame} (hw : b.wf = true) (hf :
    encodeSupply b n = some f) :
    ∃ j, decodeFrame b f = .ok j ∧ encode b j = some f ∧ j.wellFormed = true := by
  cases n with
  | none => cases hf
  | some n => exact decode_encodeSensor hw hf

theorem decode_set {b : Board} {ch : BitVec 4} {c : Int} {f : Frame} (hw : b.wf = true) (hf :
    encodeSet b ch c = some f) :
    ∃ j, decodeFrame b f = .ok j ∧ encode b j = some f ∧ j.wellFormed = true := by
  exact decode_dac hw hf

end Sys2Proof.Machine
end

