-- ==== Sys2Proof/Laws/PerInstr.lean ====
section
/-! SUPPORT. The families of statements made for every instruction, one lemma per constructor. -/

namespace Sys2Proof.Laws

open Sys2Proof.Machine

/-- The frame of the instruction has 1 to 32 bits and no bit at or above its length (R67, R90). -/
def FrameFits.Statement (i : Instr) : Prop :=
  ∀ (b : Board) (f : Frame), encode b i = some f → 1 ≤ f.nbits ∧ f.nbits ≤ 32 ∧ f.bits.toNat < 2 ^ f.nbits

/-- A frame that fits. -/
def frameFits (o : Option Frame) : Prop := ∀ f, o = some f → 1 ≤ f.nbits ∧ f.nbits ≤ 32 ∧ f.bits.toNat < 2 ^ f.nbits

theorem frameFits_none : frameFits none := fun _ h => by cases h

theorem frameFits_raw (n : Nat) (d : Word) : frameFits (encodeRaw n d) := by
  intro f h
  unfold encodeRaw at h
  split at h
  · rename_i hb
    obtain ⟨h1, h32⟩ := bitCountOk_iff.1 hb
    cases h
    refine ⟨h1, h32, ?_⟩
    show (truncBits n d).toNat < 2 ^ n
    rw [truncBits_toNat h32]
    exact Nat.mod_lt _ (Nat.two_pow_pos _)
  · cases h

theorem frameFits_dac (b : Board) (cmd : DacCommand) (ch v : Nat) : frameFits (encodeDac b cmd ch v) := by
  intro f h
  unfold encodeDac at h
  split at h
  · rename_i hb
    simp only [dacFieldsOk, Bool.and_eq_true, decide_eq_true_eq] at hb
    cases h
    refine ⟨by simp, by simp, ?_⟩
    show (dacFrame _ ch v).toNat < 2 ^ 24
    rw [dacFrame_toNat hb.1 hb.2]
    have := (b.dacCodes.code cmd).isLt
    omega
  · cases h

theorem frameFits_dpot (h w : Nat) : frameFits (encodeDpot h w) := by
  intro f hf
  unfold encodeDpot at hf
  split at hf
  · rename_i hb
    simp only [dpotFieldsOk, Bool.and_eq_true, decide_eq_true_eq] at hb
    cases hf
    refine ⟨by simp, by simp, ?_⟩
    show (dpotFrame h w).toNat < 2 ^ 16
    rw [dpotFrame_toNat hb.1 hb.2]
    omega
  · cases hf

theorem frameFits_adc (a : AdcId) (k : Nat) : frameFits (encodeAdc a k) := by
  intro f h
  unfold encodeAdc at h
  split at h
  · cases h; exact ⟨by simp, by simp, by simp⟩
  · split at h
    · cases h; exact ⟨by simp, by simp, (adcFrame k).isLt⟩
    · cases h

theorem frameFits_sensor (b : Board) (n : SensorName) : frameFits (encodeSensor b n) := by
  unfold encodeSensor
  cases b.sensor n with
  | none => exact frameFits_none
  | some r => exact frameFits_adc _ _

theorem frameFits_adcRead (b : Board) (a : AdcId) (n : SensorName) : frameFits (encodeAdcRead b a n) := by
  unfold encodeAdcRead
  cases b.sensor n with
  | none => exact frameFits_none
  | some r =>
    show frameFits (if r.adc = a then _ else _)
    split
    · exact frameFits_adc _ _
    · exact frameFits_none

theorem frameFits_supply (b : Board) (o : Option SensorName) : frameFits (encodeSupply b o) := by
  cases o with
  | none => exact frameFits_none
  | some n => exact frameFits_sensor b n

theorem frameFits_set (b : Board) (ch : BitVec 4) (c : Int) : frameFits (encodeSet b ch c) :=
  frameFits_dac _ _ _ _

theorem FrameFits.busInit (baud : Nat) (cfg : BusConfig) : FrameFits.Statement (.busInit baud cfg) :=
  fun _ => frameFits_none
theorem FrameFits.busConfig (cfg : BusConfig) : FrameFits.Statement (.busConfig cfg) :=
  fun _ => frameFits_none
theorem FrameFits.busIdleLow : FrameFits.Statement .busIdleLow :=
  fun _ => frameFits_none
theorem FrameFits.busIdleHigh : FrameFits.Statement .busIdleHigh :=
  fun _ => frameFits_none
theorem FrameFits.busXfer (n : Nat) (data : Word) : FrameFits.Statement (.busXfer n data) :=
  fun _ => frameFits_raw _ _
theorem FrameFits.busSend (n : Nat) (data : Word) : FrameFits.Statement (.busSend n data) :=
  fun _ => frameFits_raw _ _
theorem FrameFits.busRecv (n : Nat) : FrameFits.Statement (.busRecv n) :=
  fun _ => frameFits_raw _ _
theorem FrameFits.adcReadCount (adc : AdcId) (sensor : SensorName) : FrameFits.Statement (.adcReadCount adc sensor) :=
  fun _ => frameFits_adcRead _ _ _
theorem FrameFits.adcReadMv (adc : AdcId) (sensor : SensorName) : FrameFits.Statement (.adcReadMv adc sensor) :=
  fun _ => frameFits_adcRead _ _ _
theorem FrameFits.dacWrite (ch v : Nat) : FrameFits.Statement (.dacWrite ch v) :=
  fun _ => frameFits_dac _ _ _ _
theorem FrameFits.dacUpdate (ch v : Nat) : FrameFits.Statement (.dacUpdate ch v) :=
  fun _ => frameFits_dac _ _ _ _
theorem FrameFits.dacWriteUpdateOne (ch v : Nat) : FrameFits.Statement (.dacWriteUpdateOne ch v) :=
  fun _ => frameFits_dac _ _ _ _
theorem FrameFits.dacWriteUpdateAll (ch v : Nat) : FrameFits.Statement (.dacWriteUpdateAll ch v) :=
  fun _ => frameFits_dac _ _ _ _
theorem FrameFits.dacPoweroffChannel (ch v : Nat) : FrameFits.Statement (.dacPoweroffChannel ch v) :=
  fun _ => frameFits_dac _ _ _ _
theorem FrameFits.dacPoweroffChip (ch v : Nat) : FrameFits.Statement (.dacPoweroffChip ch v) :=
  fun _ => frameFits_dac _ _ _ _
theorem FrameFits.dacRefInternal (ch v : Nat) : FrameFits.Statement (.dacRefInternal ch v) :=
  fun _ => frameFits_dac _ _ _ _
theorem FrameFits.dacRefExternal (ch v : Nat) : FrameFits.Statement (.dacRefExternal ch v) :=
  fun _ => frameFits_dac _ _ _ _
theorem FrameFits.dacNop (ch v : Nat) : FrameFits.Statement (.dacNop ch v) :=
  fun _ => frameFits_dac _ _ _ _
theorem FrameFits.dacMv2Count (mv : Int) : FrameFits.Statement (.dacMv2Count mv) :=
  fun _ => frameFits_none
theorem FrameFits.dpotWrite (h w : Nat) : FrameFits.Statement (.dpotWrite h w) :=
  fun _ => frameFits_dpot _ _
theorem FrameFits.dpotOhms2Count (ohms : Int) : FrameFits.Statement (.dpotOhms2Count ohms) :=
  fun _ => frameFits_none
theorem FrameFits.pwrEnablePayload : FrameFits.Statement .pwrEnablePayload :=
  fun _ => frameFits_none
theorem FrameFits.pwrDisablePayload : FrameFits.Statement .pwrDisablePayload :=
  fun _ => frameFits_none
theorem FrameFits.pwrEnableHeater : FrameFits.Statement .pwrEnableHeater :=
  fun _ => frameFits_none
theorem FrameFits.pwrDisableHeater : FrameFits.Statement .pwrDisableHeater :=
  fun _ => frameFits_none
theorem FrameFits.senseRead (s : SensorName) : FrameFits.Statement (.senseRead s) :=
  fun _ => frameFits_sensor _ _
theorem FrameFits.heaterSetMv (mv : Int) : FrameFits.Statement (.heaterSetMv mv) :=
  fun _ => frameFits_dpot _ _
theorem FrameFits.tetherSetMv (mv : Int) : FrameFits.Statement (.tetherSetMv mv) :=
  fun _ => frameFits_set _ _ _
theorem FrameFits.cathodeSetMv (mv : Int) : FrameFits.Statement (.cathodeSetMv mv) :=
  fun _ => frameFits_set _ _ _
theorem FrameFits.heaterGetMv : FrameFits.Statement .heaterGetMv :=
  fun _ => frameFits_supply _ _
theorem FrameFits.tetherGetMv : FrameFits.Statement .tetherGetMv :=
  fun _ => frameFits_supply _ _
theorem FrameFits.cathodeGetMv : FrameFits.Statement .cathodeGetMv :=
  fun _ => frameFits_supply _ _
theorem FrameFits.relayConnect (r : Nat) : FrameFits.Statement (.relayConnect r) :=
  fun _ => frameFits_none
theorem FrameFits.relayDisconnect (r : Nat) : FrameFits.Statement (.relayDisconnect r) :=
  fun _ => frameFits_none
theorem FrameFits.heaterGetMa : FrameFits.Statement .heaterGetMa :=
  fun _ => frameFits_supply _ _
theorem FrameFits.tetherGetMa : FrameFits.Statement .tetherGetMa :=
  fun _ => frameFits_supply _ _
theorem FrameFits.cathodeGetMa : FrameFits.Statement .cathodeGetMa :=
  fun _ => frameFits_supply _ _

end Sys2Proof.Laws
end

