-- ==== Sys2Proof/Laws/Variants.lean ====
section
/-! SUPPORT. The two variants side by side: each shared operation keeps them alike. -/

namespace Sys2Proof.Machine

/-- The two variants side by side. -/
structure Pair (k : Nat) (s t : State) : Prop where
  seen : SameSeen s t
  sw : s.board.variant = .softwareTimed
  hw : t.board.variant = .peripheralTimed
  flags : t.FlagsAtRest
  rst : t.busReady = true → t.swrst = false
  err : ∀ j < k, t.errAnswer j = (false, false)

theorem Pair.mono {k j : Nat} {s t : State} (h : Pair k s t) (hj : j ≤ k) : Pair j s t :=
  ⟨h.seen, h.sw, h.hw, h.flags, h.rst, fun i hi => h.err i (by omega)⟩

def Run.Pairs {α : Type} (k : Nat) : Run α → Run α → Prop
  | .ok a s, .ok b t => a = b ∧ Pair k s t
  | .refuse r, .refuse q => r = q
  | .fault f, .fault g => f = g
  | _, _ => False

theorem Run.Pairs.bind {α β : Type} {k j : Nat} {x y : Run α} {f g : α → State → Run β} (h : x.Pairs k y)
    (hf : ∀ a s t, Pair k s t → (f a s).Pairs j (g a t)) : (x.bind f).Pairs j (y.bind g) := by
  cases x <;> cases y <;> simp only [Run.Pairs] at h
  · obtain ⟨rfl, h⟩ := h; exact hf _ _ _ h
  · exact h
  · exact h

theorem Pair.cfg {k : Nat} {s t : State} (h : Pair k s t) : t.cfg = s.cfg := by rw [h.seen.1]

theorem Pair.ctl {k : Nat} {s t : State} (h : Pair k s t) :
    t.busReady = s.busReady ∧ t.cfg = s.cfg ∧ t.cfgCur = s.cfgCur
    ∧ t.power = s.power ∧ t.opstate = s.opstate ∧ t.constructed = s.constructed := by
  have := h.seen.1
  exact ⟨by rw [this], by rw [this], by rw [this], by rw [this], by rw [this], by rw [this]⟩

theorem Pair.transfer {k : Nat} {s t : State} (n : Nat) (d : Word) (h : Pair (k + 1) s t) :
    (transfer n d s).Pairs k (transfer n d t) := by
  obtain ⟨e1, e2, e3, e4, e5, e6⟩ := h.ctl
  rw [transfer_eq, transfer_eq]
  have hr : transferRefusal n t = transferRefusal n s := by simp only [transferRefusal, e1, e2]
  rw [hr]
  cases hx : transferRefusal n s with
  | some r => rfl
  | none =>
    obtain ⟨f1, f2, f3, f4⟩ := h.flags
    have hb : t.busReady = true := by rw [e1]; exact busReady_of_transferRefusal hx
    have hsw := h.rst hb
    have he : t.transferError n d = none := by
      have h0 := h.err 0 (by omega)
      rw [errAnswer_zero] at h0
      simp [State.transferError, h.hw, f2, f3, f4, h0, errorOf]
    have hes : s.transferError n d = none := by simp [State.transferError, h.sw]
    have hrec : t.received n d = s.received n d := by
      unfold State.received
      rw [e2]
      exact congrArg packBits (samples_congr _ _ (by rw [h.seen.1]) (by rw [h.seen.1]))
    show Run.Pairs k (if _ then _ else _) (if _ then _ else _)
    rw [if_neg (by simp [h.sw]), if_neg (by simp [hsw, f1]), he, hes]
    refine ⟨hrec.symm, ⟨⟨?_, ?_⟩, h.sw, h.hw, ?_, fun _ => hsw, ?_⟩⟩
    · have hsam : t.samples t.cfg.val (bitsOf n d) = s.samples s.cfg.val (bitsOf n d) := by
        rw [e2]; exact samples_congr _ _ (by rw [h.seen.1]) (by rw [h.seen.1])
      have hs1 := h.seen.1
      apply State.ext <;> first | rfl | (simp only [State.transferred, hrec, hsam]; done) |
          (simp only [State.transferred, hrec, hsam]; rw [hs1])
    · exact h.seen.2
    · simp [State.FlagsAtRest, State.transferred, h.hw, f1]
    · intro j hj
      rw [errAnswer_transferred h.hw]; exact h.err (j + 1) (by omega)

theorem Pair.applyConfig {k : Nat} {s t : State} (cfg : BusConfig) (h : Pair k s t) :
    Pair k (s.applyConfig cfg) (t.applyConfig cfg) := by
  rw [applyConfig_eq, applyConfig_eq]
  refine ⟨⟨?_, h.seen.2⟩, h.sw, h.hw, ?_, ?_, fun j hj => h.err j hj⟩
  · have hs1 := h.seen.1
    apply State.ext <;> first | rfl | (simp only [h.sw, h.hw]; done) | (simp only [h.sw, h.hw]; rw [hs1])
  · simp [State.FlagsAtRest, h.hw]
  · simp [h.hw]

theorem Pair.pinWrite {k : Nat} {s t : State} (l : Line) (v : Level) (h : Pair k s t) :
    Pair k (s.pinWrite l v) (t.pinWrite l v) := by
  refine ⟨⟨?_, ?_⟩, ?_, ?_, ?_, ?_, ?_⟩
  · have hs1 := h.seen.1
    apply State.ext <;> cases l <;> first | rfl | (simp only [State.pinWrite, State.setLine, State.emit]; rw [hs1])
  · simpa using h.seen.2
  · simpa using h.sw
  · simpa using h.hw
  · simpa [State.FlagsAtRest] using h.flags
  · simpa using h.rst
  · intro j hj
    have := h.err j hj
    simpa [State.errAnswer] using this

theorem Pair.begin {k : Nat} {s t : State} (i : Instr) (h : Pair k s t) : Pair k (s.begin i) (t.begin i) :=
  ⟨⟨by have hs1 := h.seen.1; apply State.ext <;> first | rfl | (simp only [State.begin]; rw [hs1]), h.seen.2⟩, h.sw,
      h.hw, h.flags, h.rst, h.err⟩

theorem Pair.devMode {k : Nat} {s t : State} (h : Pair k s t) (d : Dev) : t.board.devMode d = s.board.devMode d := by
  rw [h.seen.2]; cases d <;> rfl

theorem Pair.ensureConfig {k : Nat} {s t : State} (d : Dev) (h : Pair k s t) :
    (ensureConfig d s).Pairs k (ensureConfig d t) := by
  obtain ⟨e1, e2, e3, e4, e5, e6⟩ := h.ctl
  unfold Machine.ensureConfig
  rw [h.devMode d, e1, e2, e3]
  split
  · rfl
  · split
    · rfl
    · cases s.board.devMode d with
      | none => rfl
      | some m =>
        show Run.Pairs k (if _ then _ else _) (if _ then _ else _)
        split
        · exact ⟨rfl, h⟩
        · unfold reconfigure; rw [e1]; split
          · rfl
          · exact ⟨rfl, h.applyConfig _⟩

theorem Run.Pairs.deassert {α : Type} {k : Nat} {x y : Run α} (d : Dev) (h : x.Pairs k y) :
    (x.deassert d).Pairs k (y.deassert d) := by
  cases x <;> cases y <;> simp only [Run.Pairs] at h
  · obtain ⟨rfl, h⟩ := h; exact ⟨rfl, h.pinWrite _ _⟩
  · exact h
  · exact h

theorem Run.Pairs.restoring {α : Type} {k : Nat} {x y : Run α} (s t : State) (h : x.Pairs k y) :
    (x.restoring s).Pairs k (y.restoring t) := by
  cases x <;> cases y <;> simp only [Run.Pairs] at h
  · exact h
  · exact h
  · exact h

theorem Pair.transaction {α : Type} {k j : Nat} {s t : State} {d : Dev} {f g : State → Run α} (h : Pair k s t)
    (hf : ∀ s t, Pair k s t → (f s).Pairs j (g t)) : (transaction d f s).Pairs j (transaction d g t) :=
  (h.ensureConfig d).bind fun _ _ _ h => ((hf _ _ (h.pinWrite _ _)).deassert d).restoring _ _

theorem Pair.sendAll {k : Nat} {s t : State} {segs : List (Nat × Word)} {w : Word} (h : Pair (k + segs.length) s t) :
    (sendAll w segs s).Pairs k (sendAll w segs t) := by
  induction segs generalizing w s t with
  | nil => exact ⟨rfl, h⟩
  | cons x rest ih =>
    obtain ⟨n, d⟩ := x
    exact (Pair.transfer (k := k + rest.length) n d (by simpa [Nat.add_assoc] using h)).bind fun w s t h => ih h

theorem Pair.adcSegments {s t : State} (k : Nat) (h : Pair 5 s t) : (adcSegments k s).Pairs 0 (adcSegments k t) := by
  rw [adcSegments_eq, adcSegments_eq]
  have hl : (adcSegs k).length ≤ 5 := by unfold adcSegs; split <;> simp
  exact (Pair.sendAll (k := 0) (h.mono (by omega))).bind fun w s t h => ⟨rfl, h⟩

theorem Pair.readCountOf {s t : State} (a : AdcId) (r : Sensor) (h : Pair 5 s t) :
    (readCountOf a r s).Pairs 0 (readCountOf a r t) := by
  unfold Machine.readCountOf; split
  · exact h.transaction fun s t h => h.adcSegments _
  · rfl

theorem Pair.readMvOf {s t : State} (a : AdcId) (r : Sensor) (h : Pair 5 s t) :
    (readMvOf a r s).Pairs 0 (readMvOf a r t) := (h.readCountOf a r).bind fun _ _ _ h => ⟨rfl, h⟩

theorem Pair.sensor {k : Nat} {s t : State} (h : Pair k s t) (n : SensorName) : t.board.sensor n = s.board.sensor n :=
    by
  rw [h.seen.2]; rfl

theorem Pair.withSensor {α : Type} {s t : State} {k j : Nat} (n : SensorName) {f g : Sensor → State → Run α} (h :
    Pair k s t)
    (hf : ∀ r, (f r s).Pairs j (g r t)) : (withSensor n f s).Pairs j (withSensor n g t) := by
  unfold Machine.withSensor
  rw [h.sensor n]
  cases s.board.sensor n with
  | none => rfl
  | some r => exact hf r

theorem Pair.readSensor {s t : State} (n : SensorName) (h : Pair 5 s t) : (readSensor n s).Pairs 0 (readSensor n t) :=
  h.withSensor n fun r => (h.readMvOf _ r).bind fun _ _ _ h1 => ⟨by rw [h.seen.2]; rfl, h1⟩

theorem Pair.readSupply {s t : State} (n : Option SensorName) (h :
    Pair 5 s t) : (readSupply n s).Pairs 0 (readSupply n t) := by
  cases n with
  | none => rfl
  | some n => exact h.readSensor n

theorem Pair.transferSend {k : Nat} {s t : State} (n : Nat) (d : Word) (h : Pair (k + 1) s t) :
    (transferSend n d s).Pairs k (transferSend n d t) := (h.transfer n d).bind fun _ _ _ h => ⟨rfl, h⟩

theorem Pair.dacSend {s t : State} (cmd : DacCommand) (ch v : Nat) (h : Pair 5 s t) :
    (dacSend cmd ch v s).Pairs 4 (dacSend cmd ch v t) := by
  unfold Machine.dacSend; split
  · unfold memWriteDac
    rw [h.seen.2]
    exact h.transaction fun s t h => h.transferSend _ _
  · rfl

theorem Pair.dpotSend {s t : State} (a w : Nat) (h : Pair 5 s t) :
    (dpotSend a w s).Pairs 4 (dpotSend a w t) := by
  unfold Machine.dpotSend; split
  · exact h.transaction fun s t h => h.transferSend _ _
  · rfl

theorem Pair.dacSet {s t : State} (ch : BitVec 4) (c : Int) (h :
    Pair 5 s t) : (dacSet ch c s).Pairs 4 (dacSet ch c t) := by
  unfold Machine.dacSet
  rw [h.seen.2]; exact h.dacSend _ _ _

theorem Run.Pairs.complete {α : Type} {k : Nat} {x y : Run α} (h : x.Pairs k y) (f : α → Result) :
    SameOutcome (x.complete f) (y.complete f) := by
  cases x <;> cases y <;> simp only [Run.Pairs] at h
  · obtain ⟨rfl, h⟩ := h
    refine ⟨?_, h.seen.2⟩
    have hs1 := h.seen.1
    apply State.ext <;> first | rfl | (simp only [State.finish]; rw [hs1])
  · exact h
  · exact h

theorem Pair.gate {k : Nat} {s t : State} (h : Pair k s t) (i : Instr) :
    gateLegal t.board t.power i = gateLegal s.board s.power i := by
  obtain ⟨e1, e2, e3, e4, e5, e6⟩ := h.ctl
  rw [e4, h.seen.2]
  cases i <;> rfl

theorem Pair.admission {k : Nat} {s t : State} (h : Pair k s t) (b : Bool) (i : Instr) :
    admission b i t = admission b i s := by
  obtain ⟨e1, e2, e3, e4, e5, e6⟩ := h.ctl
  unfold Machine.admission
  rw [h.gate i, e5, e6]
  have : t.board.wf = s.board.wf := by rw [h.seen.2]; rfl
  rw [this]

theorem same_of_some {b : Bool} {i : Instr} {s : State} {o : Host.Outcome State Fault Refusal} (h :
    admission b i s = some o) :
    SameOutcome o o := by
  have := admission_some h
  cases o with
  | next t => exact absurd rfl (this t)
  | fault f => rfl
  | refused r => rfl

theorem Pair.issue {α : Type} {k j : Nat} {s t : State} {i : Instr} {f : α → Result} {body : State → Run α} (h :
    Pair k s t)
    (hb : ∀ s t, Pair k s t → (body s).Pairs j (body t)) : SameOutcome (issue i f body s) (issue i f body t) := by
  unfold Machine.issue
  rw [h.admission]
  cases ha : Machine.admission false i s with
  | some o => exact same_of_some ha
  | none => exact (hb _ _ (h.begin i)).complete f

theorem Pair.issueUnit {k j : Nat} {s t : State} {i : Instr} {body : State → Run Unit} (h : Pair k s t)
    (hb : ∀ s t, Pair k s t → (body s).Pairs j (body t)) : SameOutcome (issueUnit i body s) (issueUnit i body t) :=
        h.issue hb

theorem Pair.initBus {k : Nat} {s t : State} (baud : Nat) (cfg : BusConfig) (h : Pair k s t) :
    Pair k (s.initBus baud cfg) (t.initBus baud cfg) := by
  unfold State.initBus
  simp only [h.sw, h.hw]
  have h1 : Pair k s { t with prescaler := Reg.written (prescalerOf t.board.clockHz baud) } :=
    ⟨⟨by have hs1 := h.seen.1; apply State.ext <;> first | rfl | (rw [hs1]), h.seen.2⟩, h.sw, h.hw, h.flags, h.rst,
        h.err⟩
  have h2 := h1.applyConfig cfg
  refine ⟨⟨?_, h2.seen.2⟩, h2.sw, h2.hw, h2.flags, ?_, h2.err⟩
  · have hs1 := h2.seen.1
    apply State.ext <;> first | rfl | (dsimp only; rw [hs1])
  · intro _
    simp [applyConfig_eq, h.hw]

theorem Pair.reconfigure {k : Nat} {s t : State} (cfg : BusConfig) (h : Pair k s t) :
    (reconfigure cfg s).Pairs k (reconfigure cfg t) := by
  unfold Machine.reconfigure; rw [h.ctl.1]; split
  · rfl
  · exact ⟨rfl, h.applyConfig _⟩

theorem Pair.setIdle {k : Nat} {s t : State} (p : Polarity) (h : Pair k s t) :
    (setIdle p s).Pairs k (setIdle p t) := by
  unfold Machine.setIdle; rw [h.ctl.1, h.ctl.2.1]; split
  · rfl
  · split
    · rfl
    · split
      · exact ⟨rfl, h⟩
      · exact h.reconfigure _

theorem Pair.relay {k : Nat} {s t : State} (r : Nat) (b : Bool) (h : Pair k s t) :
    (relayDrive r b s).Pairs k (relayDrive r b t) := by
  unfold relayDrive; split
  · have : t.board.relayActive r = s.board.relayActive r := by rw [h.seen.2]; rfl
    rw [this]; exact ⟨rfl, h.pinWrite _ _⟩
  · rfl

theorem Pair.power {k : Nat} {s t : State} (l : Line) (v : Level) (p : Power) (h : Pair k s t) :
    Pair k { s.pinWrite l v with power := p } { t.pinWrite l v with power := p } := by
  have h2 := h.pinWrite l v
  refine ⟨⟨?_, h2.seen.2⟩, h2.sw, h2.hw, h2.flags, h2.rst, h2.err⟩
  have hs1 := h2.seen.1
  apply State.ext <;> first | rfl | (dsimp only; rw [hs1])

end Sys2Proof.Machine
end

