-- ==== Sys2Proof/Tests/Slice0.lean ====
section
/-! SUPPORT. The model's own tests: ill-formed terms refused, words written out from 30_encoding.md decoded, one step at a
time against 95_test_vectors.md (the vector is named in each comment), and one witness for each statement that has
hypotheses. -/

namespace Sys2Proof.Tests

set_option Elab.async false

open Sys2Proof.Machine

/-! ## Boards and states -/

/-- The configuration T of 95_test_vectors.md. -/
def boardT : Board := Config.tableBoard

/-- T with the peripheral-timed transport. -/
def boardP : Board := { boardT with variant := .peripheralTimed }

/-- T with the sensors T leaves out, so that every supply has both its reads. -/
def boardFull : Board :=
  { boardT with
    sensors := boardT.sensors ++
      [(.supplyCurrent .heater, ⟨.current, .tetherAdc, 1, 5000, .payloadOn, .linear 0 1 1⟩),
       (.supplyVoltage .cathodeOffset, ⟨.voltage, .tetherAdc, 3, 5000, .payloadOn, .linear 0 20 1⟩),
       (.supplyCurrent .cathodeOffset, ⟨.current, .tetherAdc, 7, 5000, .payloadOn, .linear 0 1 1⟩)],
    heaterSensors := ⟨some (.supplyVoltage .heater), some (.supplyCurrent .heater)⟩,
    cathodeSensors := ⟨some (.supplyVoltage .cathodeOffset), some (.supplyCurrent .cathodeOffset)⟩ }

/-- `cfg0` of T. -/
def cfg0 : BusConfig := ⟨.idleLow, .firstEdge, .msbFirst, .eight, false⟩

/-- `cfg0` in loopback. -/
def cfgLoop : BusConfig := { cfg0 with loopback := true }

/-- The state after P0 with the configuration `c`, in the power state `p`, with an empty trace. -/
def ready (b : Board) (p : Power) (c : BusConfig) : State :=
  { State.resetOn b with
    constructed := true, busReady := true, cfg := Reg.written c, cfgCur := Reg.written c.mode, swrst := false,
    prescaler := Reg.written 8, sclk := Reg.written c.pol.idleLevel, cs := b.devs.map (fun d => (d, true)), power := p,
    payloadEn := Reg.written p.payloadOn, heaterEn := Reg.written p.heaterOn }

/-- The `n` bits of a word, most significant first, as the environment's answers. -/
def answers (n : Nat) (w : Word) (s : State) : State := { s with misoIn := bitsOf n w }

/-- The pairs the environment draws. -/
def draws (l : List (Bool × Bool)) (s : State) : State := { s with errIn := l }

/-- The next state of an outcome. -/
def stateOf : Host.Outcome State Fault Refusal → Option State
  | .next t => some t
  | .fault _ => none
  | .refused _ => none

/-- What an outcome returned to the host. -/
def resultOf : Host.Outcome State Fault Refusal → Option Completion
  | .next t => t.completion
  | .fault _ => none
  | .refused _ => none

/-- The refusal of an outcome. -/
def refusalOf : Host.Outcome State Fault Refusal → Option Refusal
  | .next _ => none
  | .fault _ => none
  | .refused r => some r

/-- The trace of an outcome. -/
def traceOf : Host.Outcome State Fault Refusal → List Event
  | .next t => t.trace
  | .fault _ => []
  | .refused _ => []

/-- The data-out bits of an outcome as a number, the first most significant. -/
def sentOf (o : Host.Outcome State Fault Refusal) : Word := packBits (mosiLevels (traceOf o))

theorem next_of_result {o : Host.Outcome State Fault Refusal} {c : Completion} (h : resultOf o = some c) :
    ∃ t, o = .next t ∧ t.completion = some c := by
  cases o with
  | next t => exact ⟨t, rfl, h⟩
  | fault f => cases h
  | refused r => cases h

/-! ## Ill-formed terms -/

theorem test_wellFormed_bitCount :
    (Instr.busXfer 0 0).wellFormed = false ∧ (Instr.busXfer 33 0).wellFormed = false
      ∧ (Instr.busSend 0 0).wellFormed = false ∧ (Instr.busRecv 33).wellFormed = false
      ∧ (Instr.busXfer 32 0).wellFormed = true := by decide

theorem test_wellFormed_dacFields :
    (DacCommand.all.all fun cmd => !(cmd.instr 16 0).wellFormed && !(cmd.instr 0 4096).wellFormed
      && (cmd.instr 15 4095).wellFormed) = true := by decide

theorem test_wellFormed_dpotFields :
    (Instr.dpotWrite 256 0).wellFormed = false ∧ (Instr.dpotWrite 0 256).wellFormed = false
      ∧ (Instr.dpotWrite 255 255).wellFormed = true := by decide

theorem test_wellFormed_relay :
    (Instr.relayConnect 2).wellFormed = false ∧ (Instr.relayDisconnect 2).wellFormed = false
      ∧ (Instr.relayConnect 1).wellFormed = true := by decide

theorem test_board_T_wellFormed : boardT.wf = true ∧ boardP.wf = true ∧ boardFull.wf = true := by decide +kernel

/-- R7: each constraint refuses a board that breaks it. -/
theorem test_board_constraints :
    ({ boardT with adcs := [] } : Board).wf = false ∧ ({ boardT with dacVccMv := 0 } : Board).wf = false
      ∧ ({ boardT with cathodeChannel := 0#4 } : Board).wf = false
      ∧ ({ boardT with digipotMaxR := 100 } : Board).wf = false
      ∧ ({ boardT with digipotResolution := 127 } : Board).wf = false
      ∧ ({ boardT with heaterRange := ⟨1, 0⟩ } : Board).wf = false
      ∧ ({ boardT with nSetpoints := 1 } : Board).wf = false
      ∧ ({ boardT with sensors := [] } : Board).wf = false := by decide +kernel

/-- R241: a sensor of the other class than its group's, and a supply that names another sensor than its own. R7: a
`CAL_SET_COUNT` outside 0..4095 at the low end, and at the high end only. -/
theorem test_board_constraints_of_groups :
    ({ boardT with
        sensors := boardT.sensors ++ [(.lengthReceiver 0, ⟨.voltage, .tetherAdc, 1, 5000, .payloadOn, .linear 0 1 1⟩)] } :
          Board).wf = false
      ∧ ({ boardT with
        sensors := boardT.sensors ++ [(.supplyVoltage .cathodeOffset, ⟨.voltage, .tetherAdc, 1, 5000, .always, .linear 0 1 1⟩)] }
          : Board).wf = false
      ∧ ({ boardT with heaterSensors := ⟨some (.temperature 0), none⟩ } : Board).wf = false
      ∧ ({ boardT with calTetherCount := .linear (-10) 1 1 } : Board).wf = false
      ∧ ({ boardT with calCathodeCount := .linear 0 4096 100000 } : Board).wf = false
      ∧ ({ boardT with calCathodeCount := .linear 0 4095 100000 } : Board).wf = true := by decide +kernel

/-! ## Words written out from the encoding -/

/-- R93 with the codes of G3: code, channel, value, 0000. Each of the nine commands. -/
theorem test_decode_dac :
    decodeTableWord 24 0b0000_0001_000000000010_0000 = some (.dacWrite 1 2)
      ∧ decodeTableWord 24 0b0001_0001_000000000010_0000 = some (.dacUpdate 1 2)
      ∧ decodeTableWord 24 0b0011_0001_000000000010_0000 = some (.dacWriteUpdateOne 1 2)
      ∧ decodeTableWord 24 0b0010_0001_100000000000_0000 = some (.dacWriteUpdateAll 1 0x800)
      ∧ decodeTableWord 24 0b0100_0001_000000000010_0000 = some (.dacPoweroffChannel 1 2)
      ∧ decodeTableWord 24 0b0101_0001_000000000010_0000 = some (.dacPoweroffChip 1 2)
      ∧ decodeTableWord 24 0b0110_0001_000000000010_0000 = some (.dacRefInternal 1 2)
      ∧ decodeTableWord 24 0b0111_0001_000000000010_0000 = some (.dacRefExternal 1 2)
      ∧ decodeTableWord 24 0b1111_1111_111111111111_0000 = some (.dacNop 15 4095) := by decide +kernel

/-- R94: channel select, wiper count (V-37, V-38). -/
theorem test_decode_dpot :
    decodeTableWord 16 0b00000001_10000000 = some (.dpotWrite 0x01 0x80)
      ∧ decodeTableWord 16 0b11111111_11111111 = some (.dpotWrite 0xFF 0xFF) := by decide +kernel

/-- R91, R92: the channel of the sensor in bits 29 to 27 (V-12), or sixteen zeros. -/
theorem test_decode_adc :
    decodeFrame boardT ⟨some (.adc .temperatureAdc), 32, 0b00_101_000000000000000000000000000⟩
        = .ok (.adcReadCount .temperatureAdc (.pinpullerCurrent 0))
      ∧ decodeFrame boardT ⟨some (.adc .tetherAdc), 32, 0b00_100_000000000000000000000000000⟩
        = .ok (.adcReadCount .tetherAdc (.supplyVoltage .heater))
      ∧ decodeFrame boardT ⟨some (.adc .temperatureAdc), 16, 0⟩
        = .ok (.adcReadCount .temperatureAdc (.temperature 0)) := by decide +kernel

/-- R95: a raw frame is its own data bits. -/
theorem test_decode_raw :
    decodeFrame boardT ⟨none, 8, 0b10100101⟩ = .ok (.busXfer 8 0xA5)
      ∧ decodeFrame boardT ⟨none, 4, 0⟩ = .ok (.busRecv 4) := by decide +kernel

/-- What is refused: a reserved DAC code, a wrong length, a pattern R92 does not allow, a bit above the length. -/
theorem test_decode_refused :
    decodeFrame boardT ⟨some .dac, 24, 0x800000⟩ = .error .reservedDacCode
      ∧ decodeFrame boardT ⟨some .dac, 23, 0⟩ = .error .badLength
      ∧ decodeFrame boardT ⟨some (.adc .tetherAdc), 32, 0x20000001⟩ = .error .badPattern
      ∧ decodeFrame boardT ⟨some (.adc .tetherAdc), 32, 0x38000000⟩ = .error .noSensor
      ∧ decodeFrame boardT ⟨none, 4, 0x10⟩ = .error .tooWide
      ∧ decodeTableWord 24 0x800000 = none := by decide +kernel

/-- The operations that share a frame with another one (R101): the frame each puts on the bus, written out. -/
theorem test_encode_shared :
    encode boardT (.busSend 8 0xFA5) = some ⟨none, 8, 0xA5⟩
      ∧ encode boardT (.adcReadMv .temperatureAdc (.pinpullerCurrent 0)) = some ⟨some (.adc .temperatureAdc), 32, 0x28000000⟩
      ∧ encode boardT (.senseRead (.temperature 0)) = some ⟨some (.adc .temperatureAdc), 16, 0⟩
      ∧ encode boardT .heaterGetMv = some ⟨some (.adc .tetherAdc), 32, 0x20000000⟩
      ∧ encode boardT .tetherGetMv = some ⟨some (.adc .tetherAdc), 32, 0x10000000⟩
      ∧ encode boardT .tetherGetMa = some ⟨some (.adc .tetherAdc), 16, 0⟩
      ∧ encode boardT .heaterGetMa = none ∧ encode boardT .cathodeGetMv = none := by decide +kernel

/-- V-44, V-45: the frames of the voltage sets. -/
theorem test_encode_sets :
    encode boardT (.heaterSetMv 1890) = some ⟨some .digipot, 16, 0x016E⟩
      ∧ encode boardT (.heaterSetMv 100) = some ⟨some .digipot, 16, 0x0130⟩
      ∧ encode boardT (.heaterSetMv 9000) = some ⟨some .digipot, 16, 0x01FF⟩
      ∧ encode boardT (.tetherSetMv 100000) = some ⟨some .dac, 24, 0x306660⟩
      ∧ encode boardT (.tetherSetMv 300000) = some ⟨some .dac, 24, 0x30FFF0⟩
      ∧ encode boardT (.tetherSetMv (-5)) = some ⟨some .dac, 24, 0x300000⟩
      ∧ encode boardT (.cathodeSetMv 50000) = some ⟨some .dac, 24, 0x317FF0⟩ := by decide +kernel

/-- The host's question, after reset: the block is booted and the next step runs the operation of the word. -/
theorem test_withFetchWord_reset :
    resultOf (step (State.reset.withFetchWord 24 0x32ABC0)) = some (.done .unit)
      ∧ resultOf (step (State.reset.withFetchWord 16 0x0180)) = some (.done .unit)
      ∧ (resultOf (step (State.reset.withFetchWord 32 0x28000000))).isSome = true
      ∧ refusalOf (step (State.reset.withFetchWord 24 0x800000)) = some .operandOutOfRange
      ∧ refusalOf (step (State.reset.withFetchWord 16 0x10000)) = some .undecodable := by decide +kernel

/-- On a block that can run the word, the block is left as it is. -/
theorem test_withFetchWord :
    resultOf (step ((ready boardT .onOff cfg0).withFetchWord 24 0x32ABC0)) = some (.done .unit)
      ∧ sentOf (step ((ready boardT .onOff cfg0).withFetchWord 24 0x32ABC0)) = 0x32ABC0 := by decide +kernel

/-! ## One step of each operation -/

/-- V-6, V-7, V-9. -/
theorem test_busInit :
    prescalerOf 8000000 1000000 = 8 ∧ prescalerOf 8000000 0 = 65535 ∧ prescalerOf 1000 1000000 = 1
      ∧ prescalerOf 16000000 9600 = 1666 := by decide +kernel

/-- V-6: the trace. -/
theorem test_busInit_trace :
    traceOf (exec (.busInit 1000000 cfg0) (State.resetOn boardP)) = [.pin .sclk false] := by decide +kernel

/-- P4 step 6. -/
theorem test_busConfig :
    traceOf (exec (.busConfig ⟨.idleHigh, .secondEdge, .msbFirst, .eight, true⟩) (ready boardP .offOff cfg0))
      = [.pin .sclk true] := by decide +kernel

/-- V-9b. -/
theorem test_busIdleLow : traceOf (exec .busIdleLow (ready boardT .offOff cfg0)) = [] := by decide +kernel

/-- V-9c. -/
theorem test_busIdleHigh : traceOf (exec .busIdleHigh (ready boardT .offOff cfg0)) = [.pin .sclk true] := by
  decide +kernel

/-- V-1. -/
theorem test_busXfer_firstEdge :
    traceOf (exec (.busXfer 3 0b101) (ready boardP .offOff cfgLoop |> draws [(false, false)]))
      = [.pin .mosi true, .pin .sclk true, .sample true, .pin .sclk false,
         .pin .mosi false, .pin .sclk true, .sample false, .pin .sclk false,
         .pin .mosi true, .pin .sclk true, .sample true, .pin .sclk false] := by decide +kernel

/-- V-5a. -/
theorem test_busXfer_secondEdge :
    let o := exec (.busXfer 3 0b101) (ready boardT .offOff ⟨.idleHigh, .secondEdge, .msbFirst, .eight, false⟩ |> answers 3 0b011)
    resultOf o = some (.done (.word 0b011))
      ∧ traceOf o = [.pin .sclk false, .pin .mosi true, .pin .sclk true, .sample false,
         .pin .sclk false, .pin .mosi false, .pin .sclk true, .sample true,
         .pin .sclk false, .pin .mosi true, .pin .sclk true, .sample true] := by decide +kernel

/-- V-2 and V-4, sent without the result. -/
theorem test_busSend :
    sentOf (exec (.busSend 12 0xFFFFF123) (ready boardT .offOff cfgLoop)) = 0x123
      ∧ resultOf (exec (.busSend 1 0xFFFFFFFE) (ready boardT .offOff cfgLoop)) = some (.done .unit) := by decide +kernel

/-- V-5b, V-5. -/
theorem test_busRecv :
    resultOf (exec (.busRecv 4) (ready boardT .offOff cfg0 |> answers 4 0xB)) = some (.done (.word 0xB))
      ∧ resultOf (exec (.busRecv 8) (ready boardT .offOff cfgLoop)) = some (.done (.word 0)) := by decide +kernel

/-- V-5f, V-5g: errors, flags clear after. -/
theorem test_transfer_errors :
    resultOf (exec (.busXfer 8 0) (ready boardP .offOff cfg0 |> answers 8 0xA5 |> draws [(false, true)]))
        = some (.raised (.overrun 0xA5))
      ∧ resultOf (exec (.busXfer 8 0) (ready boardP .offOff cfg0 |> answers 8 0xA5 |> draws [(true, true)]))
        = some (.raised .framing) := by decide +kernel

/-- V-10 with the sensor of channel 0. -/
theorem test_adcReadCount_short :
    let o := exec (.adcReadCount .temperatureAdc (.temperature 0)) (ready boardT .offOff cfg0 |> answers 16 0xFABC)
    resultOf o = some (.done (.count12 0xABC)) ∧ sentOf o = 0 ∧ clockEdges (traceOf o) = 1 + 32 := by decide +kernel

/-- V-11's answers on channel 5: the data-out string of V-12. -/
theorem test_adcReadCount_long :
    let o := exec (.adcReadCount .temperatureAdc (.pinpullerCurrent 0)) (ready boardT .offOff cfg0 |> answers 32 0x0ABC0DEF)
    resultOf o = some (.done (.count12 0xDEF)) ∧ sentOf o = 0x28000000
      ∧ csEvents (traceOf o) = [(.adc .temperatureAdc, false), (.adc .temperatureAdc, true)] := by decide +kernel

/-- V-13. -/
theorem test_adcReadMv_scale :
    adcMillivolts 4095 3300 = 3300 ∧ adcMillivolts 2048 3300 = 1650 ∧ adcMillivolts 1241 3300 = 1000
      ∧ adcMillivolts 1 3300 = 0 ∧ adcMillivolts 2047 5000 = 2499 ∧ adcMillivolts 4095 65535 = 65535 := by decide +kernel

/-- V-15 on channel 5: the overrun at the third segment cuts the read after 16 pulses; the clock is driven once more
before, for the ADC's mode, and once after, for the configuration of before (R302). -/
theorem test_adcReadMv_error :
    let o := exec (.adcReadMv .temperatureAdc (.pinpullerCurrent 0))
      (ready boardP .offOff cfg0 |> answers 32 0x0ABC0DEF |> draws [(false, false), (false, false), (false, true)])
    resultOf o = some (.raised (.overrun 0x2BC)) ∧ clockEdges (traceOf o) = 1 + 32 + 1
      ∧ (traceOf o).getLast? = some (.pin .sclk false) ∧ (csEvents (traceOf o)).getLast? = some (.adc .temperatureAdc, true) := by decide +kernel

/-- V-18, V-17, V-19, V-19a and the codes of G3: the frame each DAC command sends. -/
theorem test_dac_frames :
    sentOf (exec (.dacWrite 0 0) (ready boardT .onOff cfg0)) = 0x000000
      ∧ sentOf (exec (.dacUpdate 2 0xABC) (ready boardT .onOff cfg0)) = 0x12ABC0
      ∧ sentOf (exec (.dacWriteUpdateOne 2 0xABC) (ready boardT .onOff cfg0)) = 0x32ABC0
      ∧ sentOf (exec (.dacWriteUpdateAll 1 0x800) (ready boardT .onOff cfg0)) = 0x218000
      ∧ sentOf (exec (.dacPoweroffChannel 2 0xABC) (ready boardT .onOff cfg0)) = 0x42ABC0
      ∧ sentOf (exec (.dacPoweroffChip 2 0xABC) (ready boardT .onOff cfg0)) = 0x52ABC0
      ∧ sentOf (exec (.dacRefInternal 2 0xABC) (ready boardT .onOn cfg0)) = 0x62ABC0
      ∧ sentOf (exec (.dacRefExternal 2 0xABC) (ready boardT .onOn cfg0)) = 0x72ABC0
      ∧ sentOf (exec (.dacNop 15 4095) (ready boardT .onOn cfg0)) = 0xFFFFF0 := by decide +kernel

/-- V-19b, V-19c. -/
theorem test_dac_refused :
    refusalOf (exec (.dacWriteUpdateOne 16 0) (ready boardT .onOff cfg0)) = some .operandOutOfRange
      ∧ refusalOf (exec (.dacWrite 0 4096) (ready boardT .onOff cfg0)) = some .operandOutOfRange
      ∧ refusalOf (exec (.dacWrite 0 4096) (ready boardT .offOff cfg0)) = some .illegalInState := by decide +kernel

/-- V-20 to V-29. -/
theorem test_dacMv2Count :
    mv2Count 5000 0 = 0 ∧ mv2Count 5000 1 = 0 ∧ mv2Count 5000 2 = 1 ∧ mv2Count 5000 2500 = 2047
      ∧ mv2Count 5000 5000 = 4095 ∧ mv2Count 5000 4999 = 4094 ∧ mv2Count 5000 6000 = 4095 ∧ mv2Count 5000 (-5) = 0
      ∧ mv2Count 3300 1650 = 2047 ∧ mv2Count 3300 3299 = 4093
      ∧ resultOf (exec (.dacMv2Count 2500) (ready boardT .offOff cfg0)) = some (.done (.count12 2047)) := by decide +kernel

/-- V-37, V-39. -/
theorem test_dpotWrite :
    sentOf (exec (.dpotWrite 0x01 0x80) (ready boardT .onOff cfg0)) = 0x0180
      ∧ refusalOf (exec (.dpotWrite 0x100 0) (ready boardT .onOff cfg0)) = some .operandOutOfRange := by decide +kernel

/-- V-30 to V-36a. -/
theorem test_dpotOhms2Count :
    boardT.ohms2Count 50 = 0 ∧ boardT.ohms2Count 100 = 0 ∧ boardT.ohms2Count 139 = 0 ∧ boardT.ohms2Count 140 = 1
      ∧ boardT.ohms2Count 5100 = 127 ∧ boardT.ohms2Count 10099 = 254 ∧ boardT.ohms2Count 10100 = 255
      ∧ boardT.ohms2Count 20000 = 255 ∧ boardT.ohms2Count (-7) = 0
      ∧ resultOf (exec (.dpotOhms2Count 5100) (ready boardT .offOff cfg0)) = some (.done (.count8 127)) := by decide +kernel

/-- V-40: the allowed transitions. -/
theorem test_transitions :
    traceOf (exec .pwrEnablePayload (ready boardT .offOff cfg0)) = [.pin .payloadEn true]
      ∧ traceOf (exec .pwrDisablePayload (ready boardT .onOff cfg0)) = [.pin .payloadEn false]
      ∧ traceOf (exec .pwrEnableHeater (ready boardT .onOff cfg0)) = [.pin .heaterEn true]
      ∧ traceOf (exec .pwrDisableHeater (ready boardT .onOn cfg0)) = [.pin .heaterEn false] := by decide +kernel

/-- V-40: the refused ones. -/
theorem test_transitions_refused :
    ([(Instr.pwrEnablePayload, Power.onOff), (.pwrEnablePayload, .onOn), (.pwrDisablePayload, .offOff),
        (.pwrDisablePayload, .onOn), (.pwrEnableHeater, .offOff), (.pwrEnableHeater, .onOn), (.pwrDisableHeater, .offOff),
        (.pwrDisableHeater, .onOff)].all
      fun e => refusalOf (exec e.1 (ready boardT e.2 cfg0)) = some .illegalInState) = true := by decide +kernel

/-- P3 step 1. -/
theorem test_senseRead :
    resultOf (exec (.senseRead (.temperature 0)) (ready boardT .offOff cfg0 |> answers 16 0x0800))
      = some (.done (.value 1650)) := by decide +kernel

/-- P3 steps 3 and 4, with the outcome in `OnOff` that step 4 names. -/
theorem test_senseRead_refused :
    refusalOf (exec (.senseRead (.supplyVoltage .tetherBias)) (ready boardT .offOff cfg0)) = some .illegalInState
      ∧ refusalOf (exec (.adcReadCount .temperatureAdc (.supplyVoltage .tetherBias)) (ready boardT .offOff cfg0))
        = some .illegalInState
      ∧ refusalOf (exec (.adcReadCount .temperatureAdc (.supplyVoltage .tetherBias)) (ready boardT .onOff cfg0))
        = some .sensorAdcMismatch := by decide +kernel

/-- V-44, V-45: the frames sent. -/
theorem test_voltage_sets :
    sentOf (exec (.heaterSetMv 1890) (ready boardT .onOff cfg0)) = 0x016E
      ∧ sentOf (exec (.tetherSetMv 100000) (ready boardT .onOff cfg0)) = 0x306660
      ∧ sentOf (exec (.cathodeSetMv 50000) (ready boardT .onOn cfg0)) = 0x317FF0 := by decide +kernel

/-- P5 step 1: the overrun is raised and the chip select is high. -/
theorem test_cathodeSetMv_error :
    let o := exec (.cathodeSetMv 50000) (ready boardP .onOff cfg0 |> answers 24 0xABCDEF |> draws [(false, true)])
    resultOf o = some (.raised (.overrun 0xABCDEF)) ∧ sentOf o = 0x317FF0
      ∧ csEvents (traceOf o) = [(.dac, false), (.dac, true)] := by decide +kernel

/-- V-44: the read back, and P1 step 3. -/
theorem test_supply_voltages :
    resultOf (exec .heaterGetMv (ready boardT .onOff cfg0 |> answers 32 0x000003C0)) = some (.done (.value 1875))
      ∧ resultOf (exec .tetherGetMv (ready boardT .onOff cfg0 |> answers 32 0x00000666)) = some (.done (.value 100000))
      ∧ refusalOf (exec .cathodeGetMv (ready boardT .onOff cfg0)) = some .noSuchSensor
      ∧ resultOf (exec .cathodeGetMv (ready boardFull .onOff cfg0 |> answers 32 0x00000666)) = some (.done (.value 40000)) := by
  decide +kernel

/-- V-42: the current reads. -/
theorem test_supply_currents :
    refusalOf (exec .heaterGetMa (ready boardT .onOff cfg0)) = some .noSuchSensor
      ∧ refusalOf (exec .heaterGetMa (ready boardT .offOff cfg0)) = some .illegalInState
      ∧ resultOf (exec .tetherGetMa (ready boardT .onOn cfg0 |> answers 16 0x0666)) = some (.done (.value 2000))
      ∧ resultOf (exec .heaterGetMa (ready boardFull .onOn cfg0 |> answers 32 0x00000666)) = some (.done (.value 2000))
      ∧ resultOf (exec .cathodeGetMa (ready boardFull .onOn cfg0 |> answers 32 0x00000666)) = some (.done (.value 2000)) := by
  decide +kernel

/-- V-43. -/
theorem test_relays :
    traceOf (exec (.relayConnect 1) (ready boardT .onOn cfg0)) = [.pin .relay1 true]
      ∧ traceOf (exec (.relayDisconnect 1) (ready boardT .onOn cfg0)) = [.pin .relay1 false]
      ∧ refusalOf (exec (.relayConnect 2) (ready boardT .onOn cfg0)) = some .operandOutOfRange
      ∧ refusalOf (exec (.relayConnect 0) (ready boardT .offOff cfg0)) = some .illegalInState := by decide +kernel

/-! ## The host's rules -/

/-- V-70. -/
theorem test_setPoints :
    (List.range 10).map (setPoint ⟨0, 250000⟩ 10)
      = [0, 27777, 55555, 83333, 111111, 138888, 166666, 194444, 222222, 250000] := by decide +kernel

/-- V-61 to V-66. -/
theorem test_rpd_grades :
    rpd 0 0 = 0 ∧ rpd 5 0 = 1 ∧ rpd 0 5 = -1 ∧ rpd (-5) 5 = -1 ∧ classify (rpd 110 100) = .nominal
      ∧ classify (rpd 105 95) = .inaccurate ∧ classify (rpd 119 81) = .inaccurate ∧ classify (rpd 120 80) = .notWorking := by
  decide +kernel

/-- V-67. -/
theorem test_mean : meanFrom 0 0 [1 / 21, 0, 1 / 20] = 41 / 1260 := by decide +kernel

/-- V-69: four lanes of the pinpuller sensor, in `OffOff`; and one lane above a threshold of 10, a raw reading of 0x020
(25 mV, 12 mA by T). -/
theorem test_functional :
    (pinpullerTest { ready boardT .offOff cfg0 with misoIn := List.replicate 128 false }).1
        = [.functional "pinpuller lane 0" false, .functional "pinpuller lane 1" false,
          .functional "pinpuller lane 2" false, .functional "pinpuller lane 3" false]
      ∧ (laneTest ⟨"a", .pinpullerCurrent 0⟩
          (ready { boardT with onThresholdMa := 10 } .offOff cfg0 |> answers 32 0x00000020)).1
        = some (.functional "a" true)
      ∧ functionalLine "a" false = "[FAIL] a" := by decide +kernel

/-- A dead heater supply, tested at two set-points. -/
def deadSupply : State :=
  { ready { boardT with nSetpoints := 2 } .onOff cfg0 with misoIn := List.replicate 64 false }

/-- The performance test of the heater's voltage. -/
def heaterTest : PerformanceTest := ⟨"heater", .heater, .voltage⟩

/-- R276: at the second set-point 0 is read where the target, 5500, is expected. -/
theorem test_performance_point : (heaterTest.point 1 deadSupply).1 = some (-1) := by decide +kernel

/-- The word of the last 16 bits sent. -/
def lastFrame (s : State) : Word := packBits ((mosiLevels s.trace).drop ((mosiLevels s.trace).length - 16))

/-- R281: the last frame sent is the set to the minimum (V-44's frame of a target below it). -/
theorem test_performance_safe : lastFrame (heaterTest.run deadSupply).2 = 0x0130 := by decide +kernel

/-- R281: it is sent too where the read of the first set-point raises, and where the set before it does; then there is no
result. -/
theorem test_performance_safe_after_error :
    (let r := heaterTest.run (draws [(false, false), (true, false), (false, false)] (ready boardP .onOff cfg0));
      lastFrame r.2 = 0x0130 ∧ r.1 = none ∧ r.2.errIn = [] ∧ r.2.errDraws = 0)
      ∧ (let r := heaterTest.run (draws [(true, false), (false, false)] (ready boardP .onOff cfg0));
        lastFrame r.2 = 0x0130 ∧ r.1 = none ∧ r.2.errIn = [] ∧ r.2.errDraws = 0) := by decide +kernel

/-- R272, R274: a lane whose read raises gives no result, and the lane after it is tested all the same. -/
theorem test_functional_after_error :
    (let r := functionalTest [⟨"a", .pinpullerCurrent 0⟩, ⟨"b", .pinpullerCurrent 0⟩]
        { draws ((true, false) :: List.replicate 5 (false, false)) (ready boardP .offOff cfg0) with
            misoIn := List.replicate 34 false };
      r.1 = [.functional "b" false] ∧ r.2.errDraws = 0 ∧ r.2.misoDraws = 0) := by decide +kernel

/-- R320: reset with a chip select low, in the middle of a frame; and after it, the reset state. -/
theorem test_resetDuring :
    let s := ready boardT .onOff cfg0
    let m := s.midway (.dacNop 15 4095) ([.pin (.cs .dac) false, .pin .mosi true, .pin .sclk true])
    m.opstate = .busy (.dacNop 15 4095) ⟨0, 0⟩ ∧ m.csReg .dac = Reg.written false ∧ m.sclk = Reg.written true
      ∧ stateOf (step { s with script := [.resetDuring (.dacNop 15 4095) 3] }) = some (State.resetOn boardT) := by
  decide +kernel

/-- R24: the position counts transfers and bits. The events of a read of channel 4 are a reconfiguration, the chip select,
and four for each of the 2 + 3 + 11 + 4 + 12 bits; the bit engine itself counts the same. -/
theorem test_position :
    (let s := answers 32 0 (ready boardT .onOff cfg0);
      let i : Instr := .adcReadCount .tetherAdc (.supplyVoltage .heater);
      ∀ x ∈ [(1, 0, 0), (2, 0, 0), (5, 0, 0), (6, 0, 1), (9, 0, 1), (10, 1, 0), (22, 2, 0), (29, 2, 1), (30, 2, 2),
          (129, 4, 11), (130, 5, 0), (131, 5, 0)],
        (s.midway i ((traceOf (exec i s)).take x.1)).opstate = .busy i ⟨x.2.1, x.2.2⟩)
      ∧ (let s := ((answers 32 0 (ready boardT .onOff cfg0)).begin .busIdleLow).loadSr 5 0;
        (s.shiftLoop cfg0 1 1 3).opstate = .busy .busIdleLow ⟨0, 3⟩
          ∧ (s.shiftLoop cfg0 1 1 5).endTransfer.opstate = .busy .busIdleLow ⟨1, 0⟩) := by decide +kernel

/-- R132: a reset in a read of channel 4 uses up a draw for each transfer completed: none in the first, two in the third; and
after all the events of a read the third transfer of which raises, the three that the read itself draws. -/
theorem test_draws_of_a_cut_read :
    let s := draws [(false, false), (false, false), (true, false), (false, true)]
      (answers 32 0 (ready boardP .onOff cfg0))
    let i : Instr := .adcReadCount .tetherAdc (.supplyVoltage .heater)
    let cut := fun k => stateOf (step { s with script := [.resetDuring i k] })
    (cut 9).map State.errIn = some s.errIn ∧ (cut 30).map State.errIn = some [(true, false), (false, true)]
      ∧ (cut 200).map State.errIn = some [(false, true)] ∧ (stateOf (exec i s)).map State.errIn = some [(false, true)]
      ∧ (cut 200).map State.errDraws = some 0 := by decide +kernel

/-! ## Witnesses: for each statement with hypotheses, a state and operands that meet them -/

/-- `ready` with a script. -/
def scripted (l : List HostStep) (s : State) : State := { s with script := l }

/-- No error in the next six draws. -/
def quiet : List (Bool × Bool) := List.replicate 6 (false, false)

/-- T with calibrations whose counts leave 0..4095. -/
def boardRaw : Board := { boardT with calTetherCount := .linear (-10) 1 1, calCathodeCount := .linear (-10) 1 1 }

theorem test_witness_StepRunsTheIssuedOperation :
    (scripted [.issue .busIdleLow] (ready boardT .offOff cfg0)).script = .issue .busIdleLow :: []
      ∧ (scripted [.tableWord 24 0x32ABC0] (ready boardT .onOff cfg0)).script = .tableWord 24 0x32ABC0 :: []
      ∧ decodeTableWord 24 0x32ABC0 = some (.dacWriteUpdateOne 2 0xABC)
      ∧ (ready boardP .onOn cfg0).runsWords = true := by decide +kernel

theorem test_witness_frames : boardT.wf = true ∧ 15 < 16 ∧ 4095 < 4096 ∧ 255 < 256 ∧ 0 < 16 := by decide +kernel

theorem test_witness_DecodedOperationHasTheFrame :
    boardT.wf = true ∧ encode boardT (.dacNop 15 4095) = some ⟨some .dac, 24, 0xFFFFF0⟩
      ∧ encode boardT .heaterGetMv = some ⟨some (.adc .tetherAdc), 32, 0x20000000⟩
      ∧ encode boardT (.busXfer 1 1) = some ⟨none, 1, 1⟩
      ∧ encode boardT (.busXfer 32 0xDEADBEEF) = some ⟨none, 32, 0xDEADBEEF⟩ := by decide +kernel

theorem test_witness_ReservedDacCodesRefused :
    (0x800000#32).toNat < 2 ^ 24
      ∧ ∀ cmd, boardT.dacCodes.code cmd ≠ BitVec.ofNat 4 ((0x800000#32).toNat / 2 ^ 20) :=
  ⟨by decide, fun cmd => by cases cmd <;> decide⟩

/-- WireCarriesTheEncoding and ChipSelectFramesTheEncoding: a device frame. -/
theorem test_witness_wire_device :
    (∃ t, exec (.dacNop 15 4095) (ready boardT .onOff cfg0) = .next t ∧ t.completion = some (.done .unit))
      ∧ encode boardT (.dacNop 15 4095) = some ⟨some .dac, 24, 0xFFFFF0⟩ :=
  ⟨next_of_result (by decide +kernel), by decide +kernel⟩

/-- The same: a raw frame. -/
theorem test_witness_wire_raw :
    (∃ t, exec (.busXfer 8 0xA5) (ready boardT .offOff cfgLoop) = .next t ∧ t.completion = some (.done (.word 0xA5)))
      ∧ encode boardT (.busXfer 8 0xA5) = some ⟨none, 8, 0xA5⟩ :=
  ⟨next_of_result (by decide +kernel), by decide +kernel⟩

/-- The same: no frame. -/
theorem test_witness_wire_none :
    (∃ t, exec .busIdleHigh (ready boardT .offOff cfg0) = .next t ∧ t.completion = some (.done .unit))
      ∧ encode boardT .busIdleHigh = none :=
  ⟨next_of_result (by decide +kernel), by decide +kernel⟩

theorem test_witness_BusInitCompletes :
    (State.resetOn boardT).opstate = .idle ∧ (State.resetOn boardT).busReady = false ∧ boardT.wf = true
      ∧ (State.resetOn boardP).opstate = .idle ∧ (State.resetOn boardP).busReady = false ∧ boardP.wf = true
      ∧ boardT.variant = .softwareTimed ∧ boardP.variant = .peripheralTimed := by decide +kernel

theorem test_witness_ConstructionHappensOnce :
    (let s := scripted [.construct] (ready boardT .offOff cfg0);
      s.opstate = .idle ∧ s.busReady = true ∧ s.board.wf = true ∧ s.constructed = true ∧ s.script = .construct :: [])
      ∧ (let s := scripted [.construct] (State.resetOn boardT);
        s.opstate = .idle ∧ s.busReady = false ∧ s.script = .construct :: []) := by decide +kernel

theorem test_witness_BusConfigCompletes :
    ((ready boardT .offOff cfg0).Admits ∧ (ready boardT .offOff cfg0).busReady = true)
      ∧ ((ready boardP .onOn cfg0).Admits ∧ (ready boardP .onOn cfg0).busReady = true) := by decide +kernel

theorem test_witness_IdleOperationsComplete :
    (let s := ready boardT .offOff cfg0;
      s.Admits ∧ s.busReady = true ∧ s.cfg.specified = true ∧ s.cfg.val.pol = .idleLow)
      ∧ (let s := ready boardP .offOff ⟨.idleHigh, .secondEdge, .msbFirst, .eight, false⟩;
        s.Admits ∧ s.busReady = true ∧ s.cfg.specified = true ∧ s.cfg.val.pol = .idleHigh) := by decide +kernel

/-- BusXferCompletes, BusSendDropsTheWord, BusRecvIsXferOfZero, DpotWriteCompletes, DacCommandsComplete: a transfer can run, in
both variants, for the least and the greatest bit count. -/
theorem test_witness_transfers :
    (let s := ready boardT .onOff cfg0;
      s.Admits ∧ s.CanTransfer ∧ s.NoError 1 ∧ s.power ≠ .offOff)
      ∧ (let s := draws quiet (ready boardP .onOn cfg0);
        s.Admits ∧ s.CanTransfer ∧ s.NoError 1 ∧ s.power ≠ .offOff)
      ∧ 1 ≤ 1 ∧ 1 ≤ 32 ∧ 32 ≤ 32 := by decide +kernel

theorem test_witness_LoopbackReturnsTheBitsSent :
    let s := draws quiet (ready boardP .offOff cfgLoop);
    s.Admits ∧ s.CanTransfer ∧ s.NoError 1 ∧ s.cfg.val.loopback = true ∧ 1 ≤ 32 ∧ 32 ≤ 32 := by decide +kernel

/-- V-5d: the state before `BUS.INIT`; then a constructed block for each of the later refusals. -/
theorem test_witness_TransportAdmission :
    (let s := State.resetOn boardT;
      s.opstate = .idle ∧ s.constructed = false ∧ s.busReady = false)
      ∧ (let s : State := { ready boardT .offOff cfg0 with busReady := false };
        s.Admits ∧ s.busReady = false)
      ∧ (let s : State := { ready boardT .offOff cfg0 with cfg := Reg.unspecified cfg0 };
        s.Admits ∧ s.busReady = true ∧ s.cfg.specified = false)
      ∧ (ready boardT .offOff cfg0).Admits ∧ (ready boardT .offOff cfg0).busReady = true ∧ 32 < 33
      ∧ (let s := ready boardT .offOff { cfg0 with order := .lsbFirst };
        s.Admits ∧ s.busReady = true ∧ s.cfg.specified = true ∧ s.cfg.val.order = .lsbFirst)
      ∧ (let s := ready boardT .offOff { cfg0 with width := .seven };
        s.Admits ∧ s.busReady = true ∧ s.cfg.specified = true ∧ s.cfg.val.width = .seven) := by decide +kernel

/-- BusErrorsAreRaised, FrameErrorsAreRaised: each of the two errors. -/
theorem test_witness_errors :
    (let s := draws [(true, true)] (ready boardP .onOff cfg0);
      s.Admits ∧ s.CanTransfer ∧ s.board.variant = .peripheralTimed ∧ s.errAnswer 0 ≠ (false, false)
        ∧ (s.errAnswer 0).1 = true ∧ s.power ≠ .offOff)
      ∧ (let s := draws [(false, true)] (ready boardP .onOff cfg0);
        s.Admits ∧ s.CanTransfer ∧ s.board.variant = .peripheralTimed ∧ s.errAnswer 0 ≠ (false, false)
          ∧ (s.errAnswer 0).1 = false ∧ s.power ≠ .offOff) := by decide +kernel

/-- SoftwareTimedNeverRaises, PowerChangesOnlyByTransitions, PayloadOffMovesNoActuator: an operation that completes. -/
theorem test_witness_completes :
    boardT.variant = .softwareTimed ∧ (ready boardT .offOff cfg0).power = .offOff
      ∧ ∃ t, exec .pwrEnablePayload (ready boardT .offOff cfg0) = .next t ∧ t.completion = some (.done .unit) :=
  ⟨by decide, by decide, next_of_result (by decide +kernel)⟩

theorem test_witness_VariantsAreInterchangeable :
    let s := draws quiet (ready boardP .onOff cfg0);
    s.FlagsAtRest ∧ (s.busReady = true → s.swrst = false) ∧ ∀ j < 5, s.errAnswer j = (false, false) := by decide +kernel

/-- AdcReadCountCompletes, AdcReadMvCompletes, SenseReadCompletes: channel 0 in `OffOff`, and channel 4 of a `PayloadOn` sensor in
the peripheral-timed variant. -/
theorem test_witness_reads :
    (let s := ready boardT .offOff cfg0;
      ∃ r m, s.Admits ∧ s.CanTransfer ∧ s.board.sensor (.temperature 0) = some r ∧ s.board.devMode (.adc r.adc) = some m
        ∧ (r.cls = .always ∨ s.power ≠ .offOff) ∧ s.NoError (adcBounds r.channel).length ∧ r.channel = 0)
      ∧ (let s := draws quiet (ready boardP .onOff cfg0);
        ∃ r m, s.Admits ∧ s.CanTransfer ∧ s.board.sensor (.supplyVoltage .heater) = some r
          ∧ s.board.devMode (.adc r.adc) = some m ∧ (r.cls = .always ∨ s.power ≠ .offOff)
          ∧ s.NoError (adcBounds r.channel).length ∧ r.channel = 4) :=
  ⟨⟨_, _, by decide +kernel, by decide +kernel, rfl, rfl, by decide +kernel, by decide +kernel, rfl⟩,
   ⟨_, _, by decide +kernel, by decide +kernel, rfl, rfl, by decide +kernel, by decide +kernel, rfl⟩⟩

/-- AdcAdmission, and SenseReadCompletes where the name is no sensor. -/
theorem test_witness_AdcAdmission :
    (ready boardT .offOff cfg0).Admits ∧ (ready boardT .onOff cfg0).Admits
      ∧ boardT.sensor (.supplyVoltage .heater) = some ⟨.voltage, .tetherAdc, 4, 5000, .payloadOn, .linear 0 8 5⟩
      ∧ AdcId.tetherAdc ≠ .temperatureAdc ∧ boardT.sensor (.temperature 7) = none := by decide +kernel

/-- AdcErrorCutsTheRead: at the first, at the last and at the only transfer of a read; for a read by name and for a
supply's two reads. -/
theorem test_witness_AdcErrorCutsTheRead :
    (let s := draws [(true, false)] (ready boardP .onOff cfg0);
      s.Admits ∧ s.CanTransfer ∧ s.board.variant = .peripheralTimed ∧ s.power ≠ .offOff
        ∧ (∀ k < 0, s.errAnswer k = (false, false)) ∧ s.errAnswer 0 ≠ (false, false))
      ∧ (let s := draws [(false, false), (false, false), (false, false), (false, false), (false, true)] (ready boardP .onOff cfg0);
        s.Admits ∧ s.CanTransfer ∧ (∀ k < 4, s.errAnswer k = (false, false)) ∧ s.errAnswer 4 ≠ (false, false))
      ∧ boardP.sensor (.supplyVoltage .heater) = some ⟨.voltage, .tetherAdc, 4, 5000, .payloadOn, .linear 0 8 5⟩
      ∧ (boardP.supplySensors .heater).voltage = some (.supplyVoltage .heater)
      ∧ boardP.sensor (.supplyCurrent .tetherBias) = some ⟨.current, .tetherAdc, 0, 5000, .payloadOn, .linear 0 1 1⟩
      ∧ (boardP.supplySensors .tetherBias).current = some (.supplyCurrent .tetherBias)
      ∧ boardP.devMode (.adc .tetherAdc) = some ⟨.idleHigh, .secondEdge⟩
      ∧ (adcBounds 4)[0]? = some (0, 2) ∧ (adcBounds 4)[4]? = some (20, 32) ∧ (adcBounds 0)[0]? = some (0, 16) := by
  decide +kernel

/-- WellBehavedAdcIsReadRight: answers in both forms, with `test_witness_reads`. -/
theorem test_witness_WellBehavedAdcIsReadRight :
    (let s := answers 16 0xFABC (ready boardT .offOff cfg0);
      s.cfg.val.loopback = false ∧ AdcAnswers 0 0xABC s)
      ∧ (let s := answers 32 0x0ABC0DEF (ready boardT .onOff cfg0);
        s.cfg.val.loopback = false ∧ AdcAnswers 4 0xDEF s) := by
  unfold AdcAnswers; decide +kernel

theorem test_witness_FieldWidthsRefused :
    ((ready boardT .offOff cfg0).Admits ∧ (ready boardT .offOff cfg0).power = .offOff)
      ∧ (ready boardT .onOff cfg0).Admits ∧ (ready boardT .onOff cfg0).power ≠ .offOff
      ∧ (16 ≤ 16 ∨ 4096 ≤ 0) ∧ (16 ≤ 0 ∨ 4096 ≤ 4096) ∧ (256 ≤ 256 ∨ 256 ≤ 0) ∧ 2 ≤ 2 := by decide +kernel

/-- Mv2CountCompletes, Ohms2CountCompletes, TargetsAreClamped, and the premises of the scales. -/
theorem test_witness_scales :
    (ready boardT .offOff cfg0).Admits ∧ (0 : Nat) < 5000 ∧ (100 : Nat) < 10100 ∧ (-5 : Int) ≤ 100 ∧ (10100 : Int) ≤ 20000
      ∧ (5000 : Int) ≤ 6000 := by decide +kernel

/-- TransitionsComplete, GateRefusesByTheTable, RelaysComplete: every power state. -/
theorem test_witness_power :
    (ready boardT .offOff cfg0).Admits ∧ (ready boardT .onOff cfg0).Admits ∧ (ready boardT .onOn cfg0).Admits
      ∧ (ready boardT .offOff cfg0).power = .offOff ∧ (ready boardT .onOff cfg0).power = .onOff
      ∧ (ready boardT .onOn cfg0).power = .onOn
      ∧ boardT.sensor (.supplyVoltage .heater) = some ⟨.voltage, .tetherAdc, 4, 5000, .payloadOn, .linear 0 8 5⟩ := by
  decide +kernel

/-- SupplyReadsComplete: each of the six sensors on the full board. -/
theorem test_witness_SupplyReadsComplete :
    (ready boardFull .onOff cfg0).Admits ∧ (ready boardFull .onOff cfg0).CanTransfer ∧ boardFull.variant = .softwareTimed
      ∧ ∀ n ∈ [SensorName.supplyVoltage .heater, .supplyVoltage .tetherBias, .supplyVoltage .cathodeOffset,
          .supplyCurrent .heater, .supplyCurrent .tetherBias, .supplyCurrent .cathodeOffset],
        (boardFull.sensor n).isSome = true
          ∧ (n = .supplyVoltage .heater → boardFull.heaterSensors.voltage = some n)
          ∧ (n = .supplyVoltage .tetherBias → boardFull.tetherSensors.voltage = some n)
          ∧ (n = .supplyVoltage .cathodeOffset → boardFull.cathodeSensors.voltage = some n)
          ∧ (n = .supplyCurrent .heater → boardFull.heaterSensors.current = some n)
          ∧ (n = .supplyCurrent .tetherBias → boardFull.tetherSensors.current = some n)
          ∧ (n = .supplyCurrent .cathodeOffset → boardFull.cathodeSensors.current = some n) := by decide +kernel

theorem test_witness_MissingSupplySensorRefused :
    (ready boardT .offOff cfg0).Admits ∧ (ready boardT .onOff cfg0).Admits ∧ (ready boardT .onOff cfg0).power ≠ .offOff
      ∧ (boardT.supplySensors .heater).current = none ∧ (boardT.supplySensors .cathodeOffset).voltage = none := by
  decide +kernel

/-- VoltageSetsExpand, VoltageSetsComplete: counts at both ends of the range. -/
theorem test_witness_voltage_sets :
    (let s := ready boardT .onOff cfg0;
      s.Admits ∧ s.CanTransfer ∧ s.NoError 1 ∧ s.power ≠ .offOff)
      ∧ (0 : Int) = boardT.calibrate boardT.calTetherCount (boardT.clampTarget .tetherBias (-1))
      ∧ (4095 : Int) = boardT.calibrate boardT.calCathodeCount (boardT.clampTarget .cathodeOffset 100001)
      ∧ boardT.tetherCount 0 = 0 ∧ boardT.tetherCount 250000 = 4095
      ∧ boardT.cathodeCount 0 = 0 ∧ boardT.cathodeCount 100000 = 4095 := by decide +kernel

/-- BrokenParametersRefused: a board outside R7 at reset, before construction and constructed; and points of the ranges with
counts outside 0..4095. -/
theorem test_witness_BrokenParametersRefused :
    (let b : Board := { boardT with nSetpoints := 0 };
      b.wf = false ∧ (State.resetOn b).opstate = .idle
        ∧ (let s := scripted [.construct] { State.resetOn b with busReady := true };
          s.opstate = .idle ∧ s.busReady = true ∧ s.constructed = false ∧ s.script = .construct :: [])
        ∧ (let s := ready b .onOff cfg0;
          s.opstate = .idle ∧ s.constructed = true ∧ gateLegal s.board s.power .busIdleLow = true))
      ∧ boardRaw.calibrate boardRaw.calTetherCount 9 = -1 ∧ boardRaw.calibrate boardRaw.calTetherCount 4106 = 4096
      ∧ boardRaw.tetherRange.minMv ≤ 9 ∧ (4106 : Int) ≤ boardRaw.tetherRange.maxMv
      ∧ boardRaw.calibrate boardRaw.calCathodeCount 9 = -1 ∧ boardRaw.calibrate boardRaw.calCathodeCount 4106 = 4096
      ∧ boardRaw.cathodeRange.minMv ≤ 9 ∧ (4106 : Int) ≤ boardRaw.cathodeRange.maxMv := by decide +kernel

theorem test_witness_ErrorsLeaveControlAlone :
    (∃ t, exec (.dpotWrite 1 0x80) (draws [(true, false)] (ready boardP .onOff cfg0)) = .next t
      ∧ t.completion = some (.raised .framing)) ∧ (draws [(true, false)] (ready boardP .onOff cfg0)).BusAtRest :=
  ⟨next_of_result (by decide +kernel), by decide +kernel⟩

theorem test_witness_HaltedAcceptsNothing :
    (let s : State := { scripted [.physicalReset] (ready boardT .offOff cfg0) with opstate := .halted };
      s.opstate = .halted ∧ s.script = .physicalReset :: [])
      ∧ (let s : State := { scripted [.halt] (ready boardT .offOff cfg0) with opstate := .halted };
        s.opstate = .halted ∧ s.script = .halt :: [] ∧ HostStep.halt ≠ .physicalReset) := by decide +kernel

theorem test_witness_host_steps :
    (let s := scripted [.halt] (ready boardT .offOff cfg0);
      s.opstate = .idle ∧ s.script = .halt :: [])
      ∧ (scripted [.physicalReset] (ready boardT .onOn cfg0)).script = .physicalReset :: []
      ∧ (State.resetOn boardT).opstate = .idle ∧ (State.resetOn boardT).constructed = false := by decide +kernel

/-- NothingBeforeConstruction: an operation the gate lets through and one it does not. -/
theorem test_witness_NothingBeforeConstruction :
    gateLegal boardT .offOff (.busXfer 8 0) = true ∧ gateLegal boardT .offOff (.dpotWrite 0 0) = false := by decide

/-- PhysicalResetFromAnyState, its second clause: an operation cut after its chip select has fallen; and a raw transfer of one
bit cut in it and after it. -/
theorem test_witness_resetDuring :
    let s := scripted [.resetDuring (.dacNop 15 4095) 1] (ready boardT .onOff cfg0)
    s.script = .resetDuring (.dacNop 15 4095) 1 :: []
      ∧ (∃ u, exec (.dacNop 15 4095) { s with script := [] } = .next u ∧ u.completion = some (.done .unit))
      ∧ (traceOf (exec (.dacNop 15 4095) { s with script := [] })).take 1 = [.pin (.cs .dac) false]
      ∧ lastLevel (.cs .dac) [.pin (.cs .dac) false] = some false
      ∧ (scripted [.resetDuring (.busXfer 1 1) 3] (answers 1 1 s)).script = .resetDuring (.busXfer 1 1) 3 :: []
      ∧ (scripted [.resetDuring (.busXfer 1 1) 4] (answers 1 1 s)).script = .resetDuring (.busXfer 1 1) 4 :: []
      ∧ (∃ u, exec (.busXfer 1 1) (scripted [] (answers 1 1 s)) = .next u ∧ u.completion = some (.done (.word 1)))
      ∧ (∃ u, exec (.busXfer 1 1) (draws quiet (answers 1 1 (ready boardP .onOff cfg0))) = .next u
          ∧ u.completion = some (.done (.word 1))) :=
  ⟨rfl, next_of_result (by decide +kernel), by decide +kernel, by decide +kernel,
   rfl, rfl, next_of_result (by decide +kernel), next_of_result (by decide +kernel)⟩

theorem test_witness_BootSequence : ∃ s : State, boardT.wf = true ∧ boardP.wf = true
    ∧ s = { State.resetOn boardT with script := .issue (.busInit 1000000 cfg0) :: .construct :: [] } :=
  ⟨_, by decide +kernel, by decide +kernel, rfl⟩

/-- The invariants and the last statement on steps: a state that meets all three, whose step answers a next state. -/
theorem test_witness_invariants :
    let s := scripted [.issue .pwrEnablePayload] (ready boardP .offOff cfg0);
    s.AtRest ∧ s.HeaterSafe ∧ s.ChipSelectsFramed ∧ (∃ t, step s = .next t ∧ t.completion = some (.done .unit))
      ∧ (∀ rest, s.script ≠ .physicalReset :: rest) ∧ ∀ i k rest, s.script ≠ .resetDuring i k :: rest := by
  refine ⟨?_, ?_, ?_, next_of_result (by decide +kernel), fun rest => by simp [scripted],
    fun i k rest => by simp [scripted]⟩
  · unfold State.AtRest; decide +kernel
  · unfold State.HeaterSafe; decide +kernel
  · unfold State.ChipSelectsFramed; decide +kernel

end Sys2Proof.Tests
end

section
/-! PROOFS. What an operation that is not admitted answers, and the boards outside R7 (00_scope.md). -/

namespace Sys2Proof.Proofs

open Sys2Proof.Machine

/-! ## An operation that is not admitted -/

/-- Every operation but `BUS.INIT` is issued under the common admission, which asks for construction (R328). -/
theorem exec_eq_issue {i : Instr} (hi : ∀ baud cfg, i ≠ .busInit baud cfg) (s : State) :
    ∃ (α : Type) (f : α → Result) (body : State → Run α), exec i s = issue i f body s := by
  cases i with
  | busInit baud cfg => exact absurd rfl (hi baud cfg)
  | busConfig cfg => exact ⟨_, _, _, exec_busConfig cfg s⟩
  | busIdleLow => exact ⟨_, _, _, exec_busIdleLow s⟩
  | busIdleHigh => exact ⟨_, _, _, exec_busIdleHigh s⟩
  | busXfer n data => exact ⟨_, _, _, exec_busXfer n data s⟩
  | busSend n data => exact ⟨_, _, _, exec_busSend n data s⟩
  | busRecv n => exact ⟨_, _, _, exec_busRecv n s⟩
  | adcReadCount adc sensor => exact ⟨_, _, _, exec_adcReadCount adc sensor s⟩
  | adcReadMv adc sensor => exact ⟨_, _, _, exec_adcReadMv adc sensor s⟩
  | dacWrite ch v => exact ⟨_, _, _, exec_dacWrite ch v s⟩
  | dacUpdate ch v => exact ⟨_, _, _, exec_dacUpdate ch v s⟩
  | dacWriteUpdateOne ch v => exact ⟨_, _, _, exec_dacWriteUpdateOne ch v s⟩
  | dacWriteUpdateAll ch v => exact ⟨_, _, _, exec_dacWriteUpdateAll ch v s⟩
  | dacPoweroffChannel ch v => exact ⟨_, _, _, exec_dacPoweroffChannel ch v s⟩
  | dacPoweroffChip ch v => exact ⟨_, _, _, exec_dacPoweroffChip ch v s⟩
  | dacRefInternal ch v => exact ⟨_, _, _, exec_dacRefInternal ch v s⟩
  | dacRefExternal ch v => exact ⟨_, _, _, exec_dacRefExternal ch v s⟩
  | dacNop ch v => exact ⟨_, _, _, exec_dacNop ch v s⟩
  | dacMv2Count mv => exact ⟨_, _, _, exec_dacMv2Count mv s⟩
  | dpotWrite h w => exact ⟨_, _, _, exec_dpotWrite h w s⟩
  | dpotOhms2Count ohms => exact ⟨_, _, _, exec_dpotOhms2Count ohms s⟩
  | pwrEnablePayload => exact ⟨_, _, _, exec_pwrEnablePayload s⟩
  | pwrDisablePayload => exact ⟨_, _, _, exec_pwrDisablePayload s⟩
  | pwrEnableHeater => exact ⟨_, _, _, exec_pwrEnableHeater s⟩
  | pwrDisableHeater => exact ⟨_, _, _, exec_pwrDisableHeater s⟩
  | senseRead sensor => exact ⟨_, _, _, exec_senseRead sensor s⟩
  | heaterSetMv mv => exact ⟨_, _, _, exec_heaterSetMv mv s⟩
  | tetherSetMv mv => exact ⟨_, _, _, exec_tetherSetMv mv s⟩
  | cathodeSetMv mv => exact ⟨_, _, _, exec_cathodeSetMv mv s⟩
  | heaterGetMv => exact ⟨_, _, _, exec_heaterGetMv s⟩
  | tetherGetMv => exact ⟨_, _, _, exec_tetherGetMv s⟩
  | cathodeGetMv => exact ⟨_, _, _, exec_cathodeGetMv s⟩
  | relayConnect r => exact ⟨_, _, _, exec_relayConnect r s⟩
  | relayDisconnect r => exact ⟨_, _, _, exec_relayDisconnect r s⟩
  | heaterGetMa => exact ⟨_, _, _, exec_heaterGetMa s⟩
  | tetherGetMa => exact ⟨_, _, _, exec_tetherGetMa s⟩
  | cathodeGetMa => exact ⟨_, _, _, exec_cathodeGetMa s⟩

theorem exec_of_admission_some {i : Instr} {s : State} {o : Host.Outcome State Fault Refusal}
    (hi : ∀ baud cfg, i ≠ .busInit baud cfg) (ha : admission false i s = some o) : exec i s = o := by
  obtain ⟨α, f, body, he⟩ := exec_eq_issue hi s
  rw [he, issue, ha]

theorem exec_busInit_of_admission_some {baud : Nat} {cfg : BusConfig} {s : State}
    {o : Host.Outcome State Fault Refusal} (ha : admission true (.busInit baud cfg) s = some o) :
    exec (.busInit baud cfg) s = o := by
  rw [exec_busInit, issueBoot, ha]

theorem step_of_script {s : State} {h : HostStep} {rest : List HostStep} (hs : s.script = h :: rest) :
    step s = hostStep h { s with script := rest } := by
  rw [step, hs]

/-! ## A board that breaks a constraint of R7 -/

/-- The parameters are checked after the sequencer, the gate and construction (log entry 9). -/
theorem admission_of_not_wf {b : Bool} {i : Instr} {s : State} (ho : s.opstate = .idle)
    (hg : gateLegal s.board s.power i = true) (hc : (s.constructed || b) = true) (hw : s.board.wf = false) :
    admission b i s = some (.refused .illFormedConfiguration) := by
  simp [admission, ho, hg, hc, hw]

theorem exec_busInit_of_not_wf {s : State} (ho : s.opstate = .idle) (hw : s.board.wf = false) (baud : Nat)
    (cfg : BusConfig) : exec (.busInit baud cfg) s = .refused .illFormedConfiguration :=
  exec_busInit_of_admission_some (admission_of_not_wf ho rfl (Bool.or_true _) hw)

/-- `BUS.INIT` stands apart, since its admission does not ask for construction. -/
theorem exec_of_not_wf {i : Instr} {s : State} (ho : s.opstate = .idle) (hc : s.constructed = true)
    (hg : gateLegal s.board s.power i = true) (hw : s.board.wf = false) :
    exec i s = .refused .illFormedConfiguration := by
  by_cases hi : ∃ baud cfg, i = .busInit baud cfg
  · obtain ⟨baud, cfg, rfl⟩ := hi
    exact exec_busInit_of_not_wf ho hw baud cfg
  · push Not at hi
    exact exec_of_admission_some hi (admission_of_not_wf ho hg (by rw [hc]; rfl) hw)

theorem hostConstruct_of_not_wf {s : State} (ho : s.opstate = .idle) (hb : s.busReady = true)
    (hc : s.constructed = false) (hw : s.board.wf = false) :
    hostConstruct s = .refused .illFormedConfiguration := by
  simp [hostConstruct, betweenOps, ho, hb, hc, hw]

/-! ## The counts of the voltage sets on the points of a range -/

/-- A target inside the range of its supply is not clamped (R243). -/
theorem clampTarget_of_mem {b : Board} {u : Supply} {x : Int} (h1 : (b.supplyRange u).minMv ≤ x)
    (h2 : x ≤ (b.supplyRange u).maxMv) : b.clampTarget u x = x := by
  unfold Board.clampTarget clampInt
  omega

/-- A point of the range reaches `CAL_SET_COUNT` unclamped, so R7 bounds its count (R7, R245). -/
theorem wf_calTetherCount {b : Board} (h : b.wf = true) {x : Int} (h1 : b.tetherRange.minMv ≤ x)
    (h2 : x ≤ b.tetherRange.maxMv) :
    0 ≤ b.calibrate b.calTetherCount x ∧ b.calibrate b.calTetherCount x ≤ 4095 := by
  have hx : b.clampTarget .tetherBias x = x := clampTarget_of_mem h1 h2
  simpa only [Board.tetherCount, hx] using (wf_counts h x).1

/-- The same of the cathode offset (R7, R246). -/
theorem wf_calCathodeCount {b : Board} (h : b.wf = true) {x : Int} (h1 : b.cathodeRange.minMv ≤ x)
    (h2 : x ≤ b.cathodeRange.maxMv) :
    0 ≤ b.calibrate b.calCathodeCount x ∧ b.calibrate b.calCathodeCount x ≤ 4095 := by
  have hx : b.clampTarget .cathodeOffset x = x := clampTarget_of_mem h1 h2
  simpa only [Board.cathodeCount, hx] using (wf_counts h x).2

/-- Settles O43: the three refusals are the places where the parameters are checked; the last two clauses are the bounds
a well-formed board gives, read backwards. -/
theorem brokenParametersRefused : Obligations.BrokenParametersRefused := by
  intro s i baud cfg rest x
  refine ⟨fun ho hw => exec_busInit_of_not_wf ho hw baud cfg, fun ho hw hb hc hs => ?construct,
    fun ho hc hg hw => exec_of_not_wf ho hc hg hw, fun h1 h2 hout => ?tether, fun h1 h2 hout => ?cathode⟩
  case construct =>
    rw [step_of_script hs]
    exact hostConstruct_of_not_wf ho hb hc hw
  case tether =>
    refine Bool.eq_false_iff.2 fun hw => ?_
    have := wf_calTetherCount hw h1 h2
    omega
  case cathode =>
    refine Bool.eq_false_iff.2 fun hw => ?_
    have := wf_calCathodeCount hw h1 h2
    omega

end Sys2Proof.Proofs
end

section
/-! PROOFS. The invariants of the block that every step keeps (10_state.md R24, R35, R36, R40, R41), what physical reset
leaves (R46, R321), and what no operation does: raise in the software-timed variant (R26), change `POWER` off the edges
of its graph (R230), run in `Halted` (R44). -/

namespace Sys2Proof.Proofs

open Sys2Proof.Machine

/-! ## Reset -/

/-- The two resets meet, so that what physical reset leaves is shown once for both (R46, R320). -/
theorem reset_eq_physicalReset : State.reset = State.reset.physicalReset := rfl

theorem physicalReset_atRest (s : State) : s.physicalReset.AtRest :=
  have hbus : s.physicalReset.BusAtRest := fun h => absurd h Bool.false_ne_true
  have hlines : s.physicalReset.LinesAtRest :=
    ⟨fun _ he => absurd he List.not_mem_nil, fun h => absurd h Bool.false_ne_true⟩
  ⟨.inl rfl, ⟨rfl, rfl, rfl, rfl⟩, hbus, hlines, fun _ => rfl⟩

theorem physicalReset_heaterSafe (s : State) : s.physicalReset.HeaterSafe := ⟨rfl, rfl, rfl⟩

theorem physicalReset_chipSelectsFramed (s : State) : s.physicalReset.ChipSelectsFramed := rfl

/-! ## Invariants of a step -/

/-- A property of the block holds after every step if it says nothing of the host's script, and the operations,
construction, halt and physical reset keep it: a host step is one of these, or changes the script alone. -/
theorem step_keeps {P : State → Prop} {s t : State} (hscript : ∀ s rest, P s → P { s with script := rest })
    (hexec : ∀ {i s t}, P s → exec i s = .next t → P t)
    (hconstruct : ∀ {s}, P s → s.busReady = true → P s.construct) (hhalt : ∀ {s}, P s → P { s with opstate := .halted })
    (hreset : ∀ s : State, P s.physicalReset) (hs : P s) (h : step s = .next t) : P t := by
  rcases step_cases h with ⟨-, rfl, -⟩ | ⟨x, rest, -, hx⟩
  · exact hs
  · have hr := hscript s rest hs
    rcases hx with ⟨i, hi⟩ | ⟨-, -, hb, -, rfl⟩ | ⟨-, -, rfl⟩ | ⟨-, rfl⟩ | ⟨-, rfl⟩ | ⟨i, k, u, -, -, rfl⟩
    · exact hexec hr hi
    · exact hconstruct hr hb
    · exact hhalt hr
    · exact hr
    · exact hreset _
    · exact hreset _

/-- Settles O54: every effect of an operation leaves the block at rest, and so do the host's own steps. -/
theorem stepKeepsTheBlockAtRest : Obligations.StepKeepsTheBlockAtRest := by
  intro s t hs h
  refine step_keeps (fun _ _ hs => hs) (fun hs hi => ?exec) construct_atRest (fun hs => ⟨.inr rfl, hs.2⟩)
    physicalReset_atRest hs h
  obtain ⟨⟨-, -, hcons⟩, he⟩ := exec_effect hi
  exact effect_atRest hs hcons he

/-! ## The heater and the payload -/

/-- No power state has the heater on and the payload off (R36). -/
theorem payloadOn_or_not_heaterOn (p : Power) : (p.payloadOn || !p.heaterOn) = true := by cases p <;> rfl

/-- Events that drive neither enable line keep the heater safe where the power state stays. -/
theorem heaterSafe_of_untouched {s t : State} {evs : List Event} (hs : s.HeaterSafe) (ht : t.trace = s.trace ++ evs)
    (hp : untouched .payloadEn evs) (hh : untouched .heaterEn evs) (hpow : t.power = s.power) : t.HeaterSafe :=
  heaterSafe_extend hs ht (heaterSafeFrom_of_untouched (payloadOn_or_not_heaterOn _) hp hh)
    (by rw [lastLevel_of_untouched hp, hpow]; rfl) (by rw [lastLevel_of_untouched hh, hpow]; rfl)

/-- Each transition drives its enable line to what the new power state says (R226 to R229). -/
theorem power_heaterSafe {s : State} {l : Line} {v : Level} {p : Power} (hs : s.HeaterSafe)
    (hi : (l = .payloadEn ∧ v = true ∧ s.power = .offOff ∧ p = .onOff) ∨
        (l = .payloadEn ∧ v = false ∧ s.power = .onOff ∧ p = .offOff) ∨
        (l = .heaterEn ∧ v = true ∧ s.power = .onOff ∧ p = .onOn) ∨
        (l = .heaterEn ∧ v = false ∧ s.power = .onOn ∧ p = .onOff)) :
    (({ s.pinWrite l v with power := p } : State).ended (.done .unit)).HeaterSafe := by
  have ht : (({ s.pinWrite l v with power := p } : State).ended (.done .unit)).trace = s.trace ++ [.pin l v] :=
    State.pinWrite_trace s l v
  rcases hi with ⟨rfl, rfl, hpw, rfl⟩ | ⟨rfl, rfl, hpw, rfl⟩ | ⟨rfl, rfl, hpw, rfl⟩ | ⟨rfl, rfl, hpw, rfl⟩ <;>
    exact heaterSafe_extend hs ht (by rw [hpw]; rfl) (by rw [hpw]; rfl) (by rw [hpw]; rfl)

theorem effect_heaterSafe {s t : State} {i : Instr} (hs : s.HeaterSafe) (he : Effect s i t) : t.HeaterSafe := by
  rcases effect_enable he with ⟨evs, ht, hp, hh, hpow, -, -⟩ | ⟨l, v, p, rfl, hi⟩
  · exact heaterSafe_of_untouched hs ht hp hh hpow
  · exact power_heaterSafe hs hi

theorem untouched_raised {l : Line} {ds : List Dev} (hl : ∀ d, l ≠ .cs d) :
    untouched l (ds.map fun d => .pin (.cs d) true) := by
  intro v hv
  obtain ⟨d, -, hd⟩ := List.mem_map.1 hv
  cases hd
  exact hl d rfl

/-- Construction drives the heater enable low before the payload enable, so it is safe from every power state (R328). -/
theorem construct_heaterSafe {s : State} (hs : s.HeaterSafe) : s.construct.HeaterSafe := by
  have hp : untouched .payloadEn (s.board.devs.map fun d => .pin (.cs d) true) := untouched_raised (by simp)
  have hh : untouched .heaterEn (s.board.devs.map fun d => .pin (.cs d) true) := untouched_raised (by simp)
  refine heaterSafe_extend hs (construct_trace s) ?_ ?_ ?_
  · rw [heaterSafeFrom_append, heaterSafeFrom_of_untouched (payloadOn_or_not_heaterOn _) hp hh,
      lastLevel_of_untouched hp, lastLevel_of_untouched hh]
    simp [heaterSafeFrom, payloadOn_or_not_heaterOn]
  · rw [lastLevel_append, construct_power]; rfl
  · rw [lastLevel_append, construct_power]; rfl

/-- Settles O55: what an operation or construction adds to the trace is safe where it starts from what `POWER` says. -/
theorem stepKeepsTheHeaterSafe : Obligations.StepKeepsTheHeaterSafe := by
  intro s t hs h
  exact step_keeps (fun _ _ hs => hs) (fun hs hi => effect_heaterSafe hs (exec_effect hi).2)
    (fun hs _ => construct_heaterSafe hs) (fun hs => hs) physicalReset_heaterSafe hs h

/-! ## Errors -/

/-- An operation whose completion is an error ran in the peripheral-timed variant: of its effects only the transfers
raise, and those of the software-timed variant draw no error (R26, R132). -/
theorem effect_raised {s t : State} {i : Instr} {e : BusError} (he : Effect s i t)
    (hc : t.completion = some (.raised e)) : s.board.variant = .peripheralTimed := by
  cases he with
  | init baud cfg hb => cases hc
  | quiet i r hn => cases hc
  | config i cfg hn hb => cases hc
  | raw i n d c hf h1 h32 hb hv => exact hv e (Option.some.inj hc)
  | device i f d m out c u hf hl hm hb hcs hcc hp hne hpre hfull hv hu => exact hv e (Option.some.inj hc)
  | power i l v p hn hi => cases hc
  | relay i r v hn hp => cases hc

/-- Settles O20. -/
theorem softwareTimedNeverRaises : Obligations.SoftwareTimedNeverRaises := by
  intro i s t e hv h hc
  have hp := effect_raised (exec_effect h).2 hc
  rw [hv] at hp
  cases hp

/-! ## The power state -/

theorem applyConfig_power (cfg : BusConfig) (s : State) : (s.applyConfig cfg).power = s.power := by rw [applyConfig_eq]

theorem initBus_power (baud : Nat) (cfg : BusConfig) (s : State) : (s.initBus baud cfg).power = s.power := by
  cases hv : s.board.variant <;> simp [State.initBus, hv, applyConfig_power]

/-- Settles O37: of the effects of an operation only the transitions write `POWER`, and the gate has checked the edge. -/
theorem powerChangesOnlyByTransitions : Obligations.PowerChangesOnlyByTransitions := by
  intro i s t h
  cases (exec_effect h).2 with
  | init baud cfg hb => exact .inl (initBus_power baud cfg s)
  | quiet i r hn => exact .inl rfl
  | config i cfg hn hb => exact .inl (applyConfig_power cfg s)
  | raw i n d c hf h1 h32 hb hv => exact .inl rfl
  | device i f d m out c u hf hl hm hb hcs hcc hp hne hpre hfull hv hu => exact .inl (device_frame (c := c) hu _ rfl).1
  | relay i r v hn hp => exact .inl (State.pinWrite_power s _ v)
  | power i l v p hn hi =>
    right
    rcases hi with ⟨hi, -, -, hs, hp⟩ | ⟨hi, -, -, hs, hp⟩ | ⟨hi, -, -, hs, hp⟩ | ⟨hi, -, -, hs, hp⟩
    · exact .inl ⟨hi, hs, hp⟩
    · exact .inr (.inl ⟨hi, hs, hp⟩)
    · exact .inr (.inr (.inl ⟨hi, hs, hp⟩))
    · exact .inr (.inr (.inr ⟨hi, hs, hp⟩))

/-! ## `Halted` -/

/-- The sequencer is checked before everything else (R44, log entry 9). -/
theorem admission_of_halted {s : State} (ho : s.opstate = .halted) (b : Bool) (i : Instr) :
    admission b i s = some (.fault .halted) := by
  rw [admission, ho]

theorem exec_of_halted {s : State} (ho : s.opstate = .halted) (i : Instr) : exec i s = .fault .halted := by
  by_cases hi : ∃ baud cfg, i = .busInit baud cfg
  · obtain ⟨baud, cfg, rfl⟩ := hi
    exact exec_busInit_of_admission_some (admission_of_halted ho true _)
  · push Not at hi
    exact exec_of_admission_some hi (admission_of_halted ho false i)

theorem betweenOps_of_halted {s : State} (ho : s.opstate = .halted) (k : Host.Outcome State Fault Refusal) :
    betweenOps s k = .fault .halted := by
  rw [betweenOps, ho]

/-- A halted block accepts no host step but physical reset between operations (R44, R296). -/
theorem hostStep_of_halted {s : State} {h : HostStep} (ho : s.opstate = .halted) (hh : h ≠ .physicalReset) :
    hostStep h s = .fault .halted := by
  cases h with
  | issue i => exact exec_of_halted ho i
  | tableWord nbits w =>
    simp only [hostStep]
    cases decodeTableWord nbits w with
    | some i => exact exec_of_halted ho i
    | none => exact betweenOps_of_halted ho _
  | construct => exact betweenOps_of_halted ho _
  | halt => exact betweenOps_of_halted ho _
  | delay n => exact betweenOps_of_halted ho _
  | physicalReset => exact absurd rfl hh
  | resetDuring i k => rw [hostStep, exec_of_halted ho, hostResetDuring]

/-- Settles O48: the admission of an operation and the host's other steps both check the sequencer first. -/
theorem haltedAcceptsNothing : Obligations.HaltedAcceptsNothing := by
  intro s i h rest ho
  refine ⟨exec_of_halted ho i, fun hs hh => ?_, fun hs => ⟨_, step_of_script hs, rfl⟩⟩
  rw [step_of_script hs]
  exact hostStep_of_halted ho hh

/-! ## The values at reset -/

/-- Settles O51: the fields of the reset state are read off, and no chip select has been driven (R46). -/
theorem resetValues : Obligations.ResetValues := by
  have hcs : ∀ d, (State.reset.csReg d).specified = false := fun _ => rfl
  exact ⟨rfl, rfl, rfl, rfl, rfl, rfl, rfl, rfl, rfl, rfl, rfl, rfl, rfl, rfl, rfl, rfl, rfl, rfl, rfl, rfl, rfl, hcs⟩

/-- Settles O57. -/
theorem resetMeetsTheInvariants : Obligations.ResetMeetsTheInvariants := by
  rw [Obligations.ResetMeetsTheInvariants, reset_eq_physicalReset]
  exact ⟨physicalReset_atRest _, physicalReset_heaterSafe _, physicalReset_chipSelectsFramed _⟩

end Sys2Proof.Proofs
end

section
/-! PROOFS. What an operation sends: data-out carries its frame and the chip selects enclose it (20_memory.md R64, R65,
R70, R96); at no moment are two chip selects low (R60, R70); and a step runs the operation the host issues or the one a
table word stands for (R75). -/

namespace Sys2Proof.Proofs

open Sys2Proof.Machine

/-! ## No two chip selects low -/

/-- Events that begin and end with no chip select low, and never have two low, can be added to a framed trace. -/
theorem chipSelectsFramed_extend {s t : State} {evs : List Event} (hs : s.ChipSelectsFramed)
    (ht : t.trace = s.trace ++ evs) (he : chipSelectRun none evs = some none) : t.ChipSelectsFramed := by
  rw [State.ChipSelectsFramed] at hs
  rw [State.ChipSelectsFramed, ht, chipSelectRun_append, hs, Option.bind_some, he]

/-- Each transaction ends what it begins, also where it raises (R70, R302). -/
theorem effect_chipSelectsFramed {s t : State} {i : Instr} (hs : s.ChipSelectsFramed) (he : Effect s i t) :
    t.ChipSelectsFramed := by
  obtain ⟨evs, ht, hrun⟩ := effect_trace he
  exact chipSelectsFramed_extend hs ht hrun

/-- Construction drives chip selects high only (R328). -/
theorem construct_chipSelectsFramed {s : State} (hs : s.ChipSelectsFramed) : s.construct.ChipSelectsFramed := by
  refine chipSelectsFramed_extend hs (construct_trace s) ?_
  rw [chipSelectRun_append, chipSelectRun_raise]
  rfl

/-- Settles O56: what an operation or construction adds to the trace is framed by itself, and physical reset empties
the trace. -/
theorem stepKeepsChipSelectsFramed : Obligations.StepKeepsChipSelectsFramed := by
  intro s t hs h
  exact step_keeps (fun _ _ hs => hs) (fun hs hi => effect_chipSelectsFramed hs (exec_effect hi).2)
    (fun hs _ => construct_chipSelectsFramed hs) (fun hs => hs) physicalReset_chipSelectsFramed hs h

/-! ## The frame on the wire -/

/-- The events `evs` send the frame: a device frame between the fall and the rise of its chip select, a raw one without
a chip select, and nothing where there is no frame (R70, R101, R136). -/
def SendsFrame : Option Frame → List Event → Prop
  | none, evs => csEvents evs = [] ∧ mosiLevels evs = []
  | some ⟨none, n, w⟩, evs => csEvents evs = [] ∧ mosiLevels evs = bitsOf n w ∧ clockEdges evs = 2 * n
  | some ⟨some d, n, w⟩, evs =>
    ∃ before inside, evs = before ++ [.pin (.cs d) false] ++ inside ++ [.pin (.cs d) true]
      ∧ mosiLevels before = [] ∧ csEvents before = [] ∧ csEvents inside = []
      ∧ mosiLevels inside = bitsOf n w ∧ clockEdges inside = 2 * n

/-- With or without a chip select around them, the bits on data-out are those of the frame. -/
theorem SendsFrame.mosiLevels_some {f : Frame} {evs : List Event} (h : SendsFrame (some f) evs) :
    mosiLevels evs = bitsOf f.nbits f.bits := by
  obtain ⟨line, n, w⟩ := f
  cases line with
  | none => exact h.2.1
  | some d =>
    obtain ⟨before, inside, rfl, hbefore, -, -, hinside, -⟩ := h
    simp [mosiLevels_append, hbefore, hinside, mosiLevels]

/-- The bit times of a transfer write data-out once and the clock twice for each bit, and no chip select (R96). -/
theorem transferEvents_sends (m : Mode) (n : Nat) (w : Word) {bs : List Bool} (h : bs.length = n) :
    csEvents (transferEvents m (bitsOf n w) bs) = [] ∧ mosiLevels (transferEvents m (bitsOf n w) bs) = bitsOf n w
      ∧ clockEdges (transferEvents m (bitsOf n w) bs) = 2 * n := by
  have hlen : (bitsOf n w).length = bs.length := by rw [bitsOf_length, h]
  refine ⟨csEvents_transfer _ _ _, mosiLevels_transfer _ _ _ hlen, ?_⟩
  rw [clockEdges_transfer _ _ _ hlen, bitsOf_length]

/-- A raw transfer sends its frame, whose bits above the count are cut off (R65, R95). -/
theorem transferred_sends {n : Nat} (d : Word) (s : State) (h32 : n ≤ 32) :
    ∃ evs, (s.transferred n d).trace = s.trace ++ evs ∧ SendsFrame (some ⟨none, n, truncBits n d⟩) evs := by
  refine ⟨_, rfl, ?_⟩
  rw [SendsFrame, bitsOf_truncBits h32]
  exact transferEvents_sends _ n d (by rw [samples_length, bitsOf_length])

/-- A transaction that ends in a result sends the frame between one fall and one rise of its chip select; what
`EnsureConfig` does before the fall writes the clock only (R70, R135). -/
theorem closed_sends {s u : State} {d : Dev} {m : Mode} {n : Nat} {w : Word} {r : Result}
    (hu : Moved (s.opened d m) u (bitsOf n w)) :
    ∃ evs, ((s.closed d (.done r) u).ended (.done r)).trace = s.trace ++ evs
      ∧ SendsFrame (some ⟨some d, n, w⟩) evs := by
  obtain ⟨hcs, hmosi, hclk⟩ := transferEvents_sends (s.opened d m).cfg.val.mode n w
    (bs := (s.opened d m).samples (s.opened d m).cfg.val (bitsOf n w)) (by rw [samples_length, bitsOf_length])
  exact ⟨_, device_trace hu, _, _, List.append_nil _, mosiLevels_ensure s m, csEvents_ensure s m, hcs, hmosi, hclk⟩

/-- An operation that returns a result adds to the trace the events that send its frame. -/
theorem effect_sends {s t : State} {i : Instr} {r : Result} (he : Effect s i t) (hr : t.completion = some (.done r)) :
    ∃ evs, t.trace = s.trace ++ evs ∧ SendsFrame (encode s.board i) evs := by
  cases he with
  | init baud cfg hb => exact ⟨_, initBus_trace baud cfg s, rfl, rfl⟩
  | quiet i r hn => rw [hn]; exact ⟨[], (List.append_nil _).symm, rfl, rfl⟩
  | config i cfg hn hb => rw [hn]; exact ⟨_, applyConfig_trace cfg s, rfl, rfl⟩
  | raw i n d c hf h1 h32 hb hv => rw [hf]; exact transferred_sends d s h32
  | device i f d m out c u hf hl hm hb hcs hcc hp hne hpre hfull hv hu =>
    obtain ⟨line, n, w⟩ := f
    obtain rfl : line = some d := hl
    obtain rfl : c = .done r := Option.some.inj hr
    obtain rfl : out = bitsOf n w := hfull r rfl
    rw [hf]
    exact closed_sends hu
  | power i l v p hn hi =>
    rw [hn]
    refine ⟨_, State.pinWrite_trace s l v, ?_⟩
    rcases hi with ⟨-, rfl, -⟩ | ⟨-, rfl, -⟩ | ⟨-, rfl, -⟩ | ⟨-, rfl, -⟩ <;> exact ⟨rfl, rfl⟩
  | relay i r v hn hp =>
    rw [hn]
    refine ⟨_, State.pinWrite_trace s (relayLine r) v, ?_⟩
    rw [relayLine]
    split <;> exact ⟨rfl, rfl⟩

/-- Settles O8. -/
theorem wireCarriesTheEncoding : Obligations.WireCarriesTheEncoding := by
  intro i s t r h hr
  obtain ⟨evs, ht, hsends⟩ := effect_sends (exec_effect h).2 hr
  refine ⟨evs, ht, ?_⟩
  cases hf : encode s.board i with
  | none => rw [hf] at hsends; exact hsends.2
  | some f => rw [hf] at hsends; exact hsends.mosiLevels_some

/-- Settles O9. -/
theorem chipSelectFramesTheEncoding : Obligations.ChipSelectFramesTheEncoding := by
  intro i s t r h hr
  obtain ⟨evs, ht, hsends⟩ := effect_sends (exec_effect h).2 hr
  rcases hf : encode s.board i with - | ⟨- | d, n, w⟩ <;> rw [hf] at hsends
  case none => exact ⟨evs, ht, hsends.1⟩
  case some.none => exact ⟨evs, ht, hsends.1, hsends.2.2⟩
  case some.some =>
    obtain ⟨before, inside, rfl, hframed⟩ := hsends
    exact ⟨before, inside, by simpa only [List.append_assoc] using ht, hframed⟩

/-! ## The operation a step runs -/

theorem hostStep_tableWord {nbits w : Nat} {i : Instr} (hw : decodeTableWord nbits w = some i) (s : State) :
    hostStep (.tableWord nbits w) s = exec i s := by
  rw [hostStep, hw]

theorem tableBoard_wf : Config.tableBoard.wf = true := by decide

/-- What the boot writes is all that `runsWords` asks for, whatever the block was before (R226, R328; log entry 2). -/
theorem booted_runsWords (s : State) : s.booted.runsWords = true := by
  have hsup : Config.tableCfg.supported = true := rfl
  have hv : Config.tableBoard.variant = .softwareTimed := rfl
  simp [State.runsWords, State.booted, State.initBus, applyConfig_eq, hv, hsup, tableBoard_wf, Power.payloadOn]

theorem readied_of_runsWords {s : State} (h : s.runsWords = true) : s.readied = s := if_pos h

theorem readied_runsWords (s : State) : s.readied.runsWords = true := by
  by_cases h : s.runsWords = true
  · rw [readied_of_runsWords h, h]
  · rw [State.readied, if_neg h, booted_runsWords]

/-- Settles O1. -/
theorem stepRunsTheIssuedOperation : Obligations.StepRunsTheIssuedOperation := by
  intro s i rest nbits w
  refine ⟨step_of_script, fun hs hw => ?word, fun hw => ?fetched, readied_runsWords s, readied_of_runsWords⟩
  case word => rw [step_of_script hs, hostStep_tableWord hw]
  case fetched => exact hostStep_tableWord hw s.readied

end Sys2Proof.Proofs
end

section
/-! PROOFS. Frames and the operations that send them (30_encoding.md R90 to R107): the layouts of R98 and R99, the
decoder on the frames of the encoder, the codes no command has, the voltage sets as the device operations they expand
to, and the words of the opcode table. -/

namespace Sys2Proof.Proofs

open Sys2Proof.Machine

/-! ## The frames of the device commands -/

theorem encode_dacInstr (b : Board) (cmd : DacCommand) (ch v : Nat) :
    encode b (cmd.instr ch v) = encodeDac b cmd ch v := by cases cmd <;> rfl

theorem encodeDac_of_lt (b : Board) (cmd : DacCommand) {ch v : Nat} (hc : ch < 16) (hv : v < 4096) :
    encodeDac b cmd ch v = some ⟨some .dac, 24, dacFrame (b.dacCodes.code cmd) ch v⟩ :=
  if_pos (by simp [dacFieldsOk, hc, hv])

theorem encodeDpot_of_lt {h w : Nat} (hh : h < 256) (hw : w < 256) :
    encodeDpot h w = some ⟨some .digipot, 16, dpotFrame h w⟩ :=
  if_pos (by simp [dpotFieldsOk, hh, hw])

/-- Each field of a DAC frame lies below the place of the one before it, so the sum carries nothing (R98). -/
theorem dacFields_or_eq_add (c : Nat) {ch v : Nat} (hc : ch < 16) (hv : v < 4096) :
    (c <<< 20) ||| (ch <<< 16) ||| (v <<< 4) = (c <<< 20) + (ch <<< 16) + (v <<< 4) := by
  have hv16 : v <<< 4 < 2 ^ 16 := by rw [Nat.shiftLeft_eq]; omega
  have hc20 : (ch <<< 16) + (v <<< 4) < 2 ^ 20 := by simp only [Nat.shiftLeft_eq]; omega
  rw [Nat.or_assoc, or_eq_add hv16, or_eq_add hc20, Nat.add_assoc]

/-- Settles O3. -/
theorem dacFrameLayout : Obligations.DacFrameLayout := by
  intro b cmd ch v hc hv
  have hsum : (dacFrame (b.dacCodes.code cmd) ch v).toNat
      = ((b.dacCodes.code cmd).toNat <<< 20) + (ch <<< 16) + (v <<< 4) := by
    simpa only [Nat.shiftLeft_eq] using dacFrame_toNat hc hv
  exact ⟨_, by rw [encode_dacInstr, encodeDac_of_lt b cmd hc hv], hsum, by rw [hsum, dacFields_or_eq_add _ hc hv]⟩

/-- Settles O4. -/
theorem dpotFrameLayout : Obligations.DpotFrameLayout := by
  intro b h w hh hw
  have hsum : (dpotFrame h w).toNat = (h <<< 8) + w := by
    simpa only [Nat.shiftLeft_eq] using dpotFrame_toNat hh hw
  exact ⟨_, encodeDpot_of_lt hh hw, hsum, by rw [hsum, or_eq_add hw]⟩

/-! ## The decoder on the frames of the encoder -/

/-- Settles O5: the decoder takes the fields of both frames apart again, and no two commands share a code (R7). -/
theorem decodeEncodeDeviceFrames : Obligations.DecodeEncodeDeviceFrames := by
  intro b cmd ch v h w hwf hc hv hh hw
  exact ⟨⟨_, by rw [encode_dacInstr, encodeDac_of_lt b cmd hc hv], decodeDac_frame hwf cmd hc hv⟩,
    ⟨_, encodeDpot_of_lt hh hw, decodeDpot_frame b hh hw⟩⟩

/-- A sensor read through an ADC engine has the frame of the sensor itself (R162). -/
theorem encodeSensor_of_encodeAdcRead {b : Board} {a : AdcId} {n : SensorName} {f : Frame}
    (h : encodeAdcRead b a n = some f) : encodeSensor b n = some f := by
  unfold encodeAdcRead at h
  cases hr : b.sensor n with
  | none => rw [hr] at h; cases h
  | some r =>
    rw [hr] at h
    obtain ⟨rfl, hf⟩ := Option.ite_none_right_eq_some.1 h
    rw [sensorEncode hr, hf]

theorem encodeSensor_of_encodeSupply {b : Board} {o : Option SensorName} {f : Frame}
    (h : encodeSupply b o = some f) : ∃ n, encodeSensor b n = some f := by
  cases o with
  | none => cases h
  | some n => exact ⟨n, h⟩

/-- A frame on the bus is a raw transfer's, a DAC command's, a digipot write's or a sensor read's: the composites send
the frames of the operations they expand to (R101, R107). -/
theorem encode_cases {b : Board} {i : Instr} {f : Frame} (h : encode b i = some f) :
    (∃ n d, encodeRaw n d = some f) ∨ (∃ cmd ch v, encodeDac b cmd ch v = some f)
      ∨ (∃ hsel w, encodeDpot hsel w = some f) ∨ ∃ n, encodeSensor b n = some f := by
  cases i with
  | busInit | busConfig | busIdleLow | busIdleHigh | dacMv2Count | dpotOhms2Count | pwrEnablePayload
  | pwrDisablePayload | pwrEnableHeater | pwrDisableHeater | relayConnect | relayDisconnect => cases h
  | busXfer | busSend | busRecv => exact .inl ⟨_, _, h⟩
  | dacWrite | dacUpdate | dacWriteUpdateOne | dacWriteUpdateAll | dacPoweroffChannel | dacPoweroffChip
  | dacRefInternal | dacRefExternal | dacNop | tetherSetMv | cathodeSetMv => exact .inr (.inl ⟨_, _, _, h⟩)
  | dpotWrite | heaterSetMv => exact .inr (.inr (.inl ⟨_, _, h⟩))
  | adcReadCount | adcReadMv => exact .inr (.inr (.inr ⟨_, encodeSensor_of_encodeAdcRead h⟩))
  | senseRead => exact .inr (.inr (.inr ⟨_, h⟩))
  | heaterGetMv | tetherGetMv | cathodeGetMv | heaterGetMa | tetherGetMa | cathodeGetMa =>
    exact .inr (.inr (.inr (encodeSensor_of_encodeSupply h)))

/-- Settles O6: the decoder is right on the frames of each of the four encoders, and there are no others. -/
theorem decodedOperationHasTheFrame : Obligations.DecodedOperationHasTheFrame := by
  intro b i f hwf hf
  rcases encode_cases hf with ⟨n, d, hraw⟩ | ⟨cmd, ch, v, hdac⟩ | ⟨h, w, hdpot⟩ | ⟨n, hsensor⟩
  · exact decode_raw hraw
  · exact decode_dac hwf hdac
  · exact decode_dpot hdpot
  · exact decode_encodeSensor hwf hsensor

/-! ## Codes no command has -/

theorem command_eq_none_iff {codes : DacCodes} {c : BitVec 4} :
    codes.command c = none ↔ ∀ cmd, codes.code cmd ≠ c := by
  have hall : ∀ cmd, cmd ∈ DacCommand.all := by intro cmd; cases cmd <;> decide
  simp [DacCodes.command, hall]

/-- Settles O7: the word fits 24 bits, so the decoder comes to the look-up of the code, and finds none. -/
theorem reservedDacCodesRefused : Obligations.ReservedDacCodesRefused := by
  intro b w hlt hcode
  have hfits : ¬ 2 ^ 24 ≤ w.toNat := Nat.not_le.2 hlt
  rw [decodeFrame, if_neg hfits]
  show decodeDac b 24 w.toNat = .error .reservedDacCode
  rw [decodeDac, if_neg (by decide), command_eq_none_iff.2 hcode]

/-! ## The voltage sets -/

/-- An operation that the gate treats as a DAC command, and whose body is a set through the DAC, is the set command
itself (R107, R225, R245). -/
theorem exec_eq_dacInstr {i : Instr} {body : State → Run Unit} {ch : BitVec 4} {c : Int} {s : State}
    (he : exec i s = issueUnit i body s) (hbody : body (s.begin i) = dacSet ch c (s.begin i))
    (hg : gateLegal s.board s.power i = s.power.payloadOn) :
    exec i s = exec (s.board.setVoltageCmd.instr ch.toNat c.toNat) s := by
  rw [he, exec_dac]
  refine issue_congr_all (by rw [hg, gateLegal_dac]) ?_
  rw [hbody]
  exact dacSend_begin _ _ _ _ _ _

/-- Settles O42: gate and body of each set are those of the device operation; the bounds of the counts are R7's. -/
theorem voltageSetsExpand : Obligations.VoltageSetsExpand := by
  rintro s mv c k ⟨-, -, hwf⟩ - rfl rfl
  obtain ⟨⟨hc0, hc⟩, hk0, hk⟩ := wf_counts hwf mv
  refine ⟨?heater, ?tether, ?cathode, hc0, hc, hk0, hk⟩
  case heater =>
    rw [exec_heaterSetMv, exec_dpotWrite]
    exact issue_congr_all rfl (dpotSend_begin _ _ _ _ s)
  case tether => exact exec_eq_dacInstr (exec_tetherSetMv mv s) rfl rfl
  case cathode => exact exec_eq_dacInstr (exec_cathodeSetMv mv s) rfl rfl

/-! ## Words of the opcode table -/

theorem decodeOnLines_of_ok {nbits w : Nat} {l : Option Dev} {rest : List (Option Dev)} {i : Instr}
    (h : decodeFrame Config.tableBoard ⟨l, nbits, BitVec.ofNat 32 w⟩ = .ok i) :
    decodeOnLines nbits w (l :: rest) = some i := by
  rw [decodeOnLines, h]

theorem decodeOnLines_of_error {nbits w : Nat} {l : Option Dev} {rest : List (Option Dev)} {e : DecodeError}
    (h : decodeFrame Config.tableBoard ⟨l, nbits, BitVec.ofNat 32 w⟩ = .error e) :
    decodeOnLines nbits w (l :: rest) = decodeOnLines nbits w rest := by
  rw [decodeOnLines, h]

/-- The table word of a DAC command decodes to it, with the codes of G3 (log entry 12). -/
theorem decodeTableWord_dac (cmd : DacCommand) {ch v : Nat} (hc : ch < 16) (hv : v < 4096) :
    decodeTableWord 24 (dacFrame (Config.defaultDacCodes.code cmd) ch v).toNat = some (cmd.instr ch v) := by
  have hcode := (Config.defaultDacCodes.code cmd).isLt
  have hfits : ¬ 2 ^ 24 ≤ (dacFrame (Config.defaultDacCodes.code cmd) ch v).toNat := by
    rw [dacFrame_toNat hc hv]; omega
  rw [decodeTableWord, if_neg (by decide), if_neg hfits]
  refine decodeOnLines_of_ok ?_
  rw [BitVec.ofNat_toNat, BitVec.setWidth_eq]
  exact decodeDac_frame tableBoard_wf cmd hc hv

theorem decodeTableWord_dpot {h w : Nat} (hh : h < 256) (hw : w < 256) :
    decodeTableWord 16 (dpotFrame h w).toNat = some (.dpotWrite h w) := by
  have hfits : ¬ 2 ^ 16 ≤ (dpotFrame h w).toNat := by rw [dpotFrame_toNat hh hw]; omega
  rw [decodeTableWord, if_neg (by decide), if_neg hfits]
  refine decodeOnLines_of_ok ?_
  rw [BitVec.ofNat_toNat, BitVec.setWidth_eq]
  exact decodeDpot_frame _ hh hw

/-- A 32-bit word that is neither ADC's long form is read as a raw transfer. -/
theorem decodeTableWord_raw {w : Nat} {e e' : DecodeError} {i : Instr} (hw : w < 2 ^ 32)
    (h1 : decodeFrame Config.tableBoard ⟨some (.adc .temperatureAdc), 32, BitVec.ofNat 32 w⟩ = .error e)
    (h2 : decodeFrame Config.tableBoard ⟨some (.adc .tetherAdc), 32, BitVec.ofNat 32 w⟩ = .error e')
    (h3 : decodeFrame Config.tableBoard ⟨none, 32, BitVec.ofNat 32 w⟩ = .ok i) :
    decodeTableWord 32 w = some i := by
  rw [decodeTableWord, if_neg (by decide), if_neg (Nat.not_le.2 hw)]
  calc decodeOnLines 32 w [some (.adc .temperatureAdc), some (.adc .tetherAdc), none]
      = decodeOnLines 32 w [some (.adc .tetherAdc), none] := decodeOnLines_of_error h1
    _ = decodeOnLines 32 w [none] := decodeOnLines_of_error h2
    _ = some i := decodeOnLines_of_ok h3

/-- Settles O2: the first three words decode on the first line tried for their length; the last two are the long form of
no ADC. -/
theorem tableWordsDecode : Obligations.TableWordsDecode := by
  refine ⟨?dac, ?dpot, ?adc, ?recv, ?xfer⟩
  case dac => exact decodeTableWord_dac .writeAndUpdateOne (ch := 2) (v := 0xABC) (by decide) (by decide)
  case dpot => exact decodeTableWord_dpot (h := 0x01) (w := 0x80) (by decide) (by decide)
  case adc =>
    have hframe : decodeFrame Config.tableBoard ⟨some (.adc .temperatureAdc), 32, 0x28000000⟩
        = .ok (.adcReadCount .temperatureAdc (.pinpullerCurrent 0)) := rfl
    exact decodeOnLines_of_ok (rest := [some (.adc .tetherAdc), none]) hframe
  case recv => exact decodeTableWord_raw (e := .badPattern) (e' := .badPattern) (by decide) rfl rfl rfl
  case xfer => exact decodeTableWord_raw (e := .badPattern) (e' := .badPattern) (by decide) rfl rfl rfl

end Sys2Proof.Proofs
end

section
/-! PROOFS. The transport (40_bus_transport.md R121 to R137): construction, configuration, the three raw transfers with
their admission and their errors, and the two variants side by side (R134). -/

namespace Sys2Proof.Proofs

open Sys2Proof.Machine

/-! ## The end of an operation -/

/-! The position of the sequencer (R24) is overwritten at the end, so that an operation ends as if its body had run
from the state in which the host issued it. -/

theorem finish_begin (r : Result) (i : Instr) (s : State) : (s.begin i).finish r = s.ended (.done r) := rfl

theorem applyConfig_begin_finish (cfg : BusConfig) (r : Result) (i : Instr) (s : State) :
    ((s.begin i).applyConfig cfg).finish r = (s.applyConfig cfg).ended (.done r) := by
  rw [applyConfig_eq, applyConfig_eq]; rfl

theorem initBus_begin_finish (baud : Nat) (cfg : BusConfig) (r : Result) (i : Instr) (s : State) :
    ((s.begin i).initBus baud cfg).finish r = (s.initBus baud cfg).ended (.done r) := by
  cases hv : s.board.variant <;> simp only [State.initBus, State.begin_board, hv, applyConfig_eq] <;> rfl

/-! ## Construction -/

theorem exec_busInit_of_idle {s : State} (ho : s.opstate = .idle) (hb : s.busReady = false) (hw : s.board.wf = true)
    (baud : Nat) (cfg : BusConfig) : exec (.busInit baud cfg) s = .next ((s.initBus baud cfg).ended (.done .unit)) := by
  have ha : admission true (.busInit baud cfg) s = none := admission_none_iff.2 ⟨ho, rfl, Bool.or_true _, hw⟩
  have hb' : (s.begin (.busInit baud cfg)).busReady = false := hb
  simp only [exec_busInit, issueBoot, ha, hb', Bool.false_eq_true, if_false, Run.complete_ok, initBus_begin_finish]

/-- Settles O10: the block after construction of the bus is read off field by field, in each variant. -/
theorem busInitCompletes : Obligations.BusInitCompletes := by
  intro s baud cfg ho hb hw
  refine ⟨_, exec_busInit_of_idle ho hb hw baud cfg, ?_⟩
  cases hv : s.board.variant <;>
    simp only [State.initBus, hv, prescalerOf, clampNat, applyConfig_eq, State.ended, ho, reduceCtorEq, false_implies,
      true_implies, and_self]

/-- A second `BUS.INIT` is admitted, and its body refuses (R121). -/
theorem exec_busInit_of_ready {s : State} (ho : s.opstate = .idle) (hb : s.busReady = true) (hw : s.board.wf = true)
    (baud : Nat) (cfg : BusConfig) : exec (.busInit baud cfg) s = .refused .alreadyConstructed := by
  have ha : admission true (.busInit baud cfg) s = none := admission_none_iff.2 ⟨ho, rfl, Bool.or_true _, hw⟩
  have hb' : (s.begin (.busInit baud cfg)).busReady = true := hb
  simp only [exec_busInit, issueBoot, ha, hb', if_true, Run.complete_refuse]

theorem hostConstruct_of_not_ready {s : State} (ho : s.opstate = .idle) (hb : s.busReady = false) :
    hostConstruct s = .refused .unconfigured := by
  simp [hostConstruct, betweenOps, ho, hb]

theorem hostConstruct_of_constructed {s : State} (ho : s.opstate = .idle) (hb : s.busReady = true)
    (hc : s.constructed = true) : hostConstruct s = .refused .alreadyConstructed := by
  simp [hostConstruct, betweenOps, ho, hb, hc]

/-- Settles O11: construction checks `BUS_READY` first, then whether it is done. -/
theorem constructionHappensOnce : Obligations.ConstructionHappensOnce := by
  intro s baud cfg rest ho
  refine ⟨fun hb hw => exec_busInit_of_ready ho hb hw baud cfg, fun hb hs => ?early, fun hb hc hs => ?again⟩
  case early =>
    rw [step_of_script hs]
    exact hostConstruct_of_not_ready ho hb
  case again =>
    rw [step_of_script hs]
    exact hostConstruct_of_constructed ho hb hc

/-! ## Configuration -/

theorem exec_busConfig_of_admits {s : State} (ha : s.Admits) (hb : s.busReady = true) (cfg : BusConfig) :
    exec (.busConfig cfg) s = .next ((s.applyConfig cfg).ended (.done .unit)) := by
  have hb' : (s.begin (.busConfig cfg)).busReady = true := hb
  rw [exec_busConfig, issueUnit, issue_of_admits ha rfl]
  simp only [reconfigure, hb', Bool.not_true, Bool.false_eq_true, if_false, Run.complete_ok, applyConfig_begin_finish]

/-- Settles O12: the block after the write of the configuration is read off field by field, in each variant. -/
theorem busConfigCompletes : Obligations.BusConfigCompletes := by
  intro s cfg ha hb
  refine ⟨_, exec_busConfig_of_admits ha hb cfg, ?_⟩
  cases hv : s.board.variant <;>
    simp only [hv, applyConfig_eq, State.ended, ha.1, reduceCtorEq, false_implies, true_implies, and_self]

/-- The operation that asks for the clock to rest as the polarity says (R123, R124). -/
def idleInstr : Polarity → Instr
  | .idleLow => .busIdleLow
  | .idleHigh => .busIdleHigh

theorem exec_idleInstr {s : State} (ha : s.Admits) (p : Polarity) :
    exec (idleInstr p) s = (setIdle p (s.begin (idleInstr p))).complete fun _ => .unit := by
  cases p with
  | idleLow => exact (exec_busIdleLow s).trans (issue_of_admits ha rfl)
  | idleHigh => exact (exec_busIdleHigh s).trans (issue_of_admits ha rfl)

theorem setIdle_of_eq {s : State} {p : Polarity} (hb : s.busReady = true) (hc : s.cfg.specified = true)
    (hp : s.cfg.val.pol = p) : setIdle p s = .ok () s := by
  simp [setIdle, hb, hc, hp]

theorem setIdle_of_ne {s : State} {p : Polarity} (hb : s.busReady = true) (hc : s.cfg.specified = true)
    (hp : s.cfg.val.pol ≠ p) : setIdle p s = .ok () (s.applyConfig { s.cfg.val with pol := p }) := by
  simp [setIdle, reconfigure, hb, hc, hp]

theorem exec_idleInstr_of_eq {s : State} {p : Polarity} (ha : s.Admits) (hb : s.busReady = true)
    (hc : s.cfg.specified = true) (hp : s.cfg.val.pol = p) :
    exec (idleInstr p) s = .next { s with completion := some (.done .unit) } := by
  rw [exec_idleInstr ha, setIdle_of_eq (s := s.begin _) hb hc hp, Run.complete_ok, finish_begin, State.ended, ← ha.1]

theorem exec_idleInstr_of_ne {s : State} {p : Polarity} (ha : s.Admits) (hb : s.busReady = true)
    (hc : s.cfg.specified = true) (hp : s.cfg.val.pol ≠ p) :
    exec (idleInstr p) s = .next ((s.applyConfig { s.cfg.val with pol := p }).ended (.done .unit)) := by
  rw [exec_idleInstr ha, setIdle_of_ne (s := s.begin _) hb hc hp, Run.complete_ok, applyConfig_begin_finish]
  rfl

/-- An idle operation that changes the level is a reconfiguration (R123, R124). -/
theorem exec_idleInstr_changes {s : State} {p : Polarity} (ha : s.Admits) (hb : s.busReady = true)
    (hc : s.cfg.specified = true) (hp : s.cfg.val.pol ≠ p) :
    (∃ t, exec (idleInstr p) s = .next t ∧ t.trace = s.trace ++ [.pin .sclk p.idleLevel] ∧ t.cfg.val.pol = p)
      ∧ exec (idleInstr p) s = exec (.busConfig { s.cfg.val with pol := p }) s := by
  rw [exec_busConfig_of_admits ha hb, exec_idleInstr_of_ne ha hb hc hp]
  refine ⟨⟨_, rfl, ?_, ?_⟩, rfl⟩ <;> simp [applyConfig_eq, State.ended]

/-- Settles O13: each operation in each of its two cases. -/
theorem idleOperationsComplete : Obligations.IdleOperationsComplete := by
  intro s ha hb hc
  exact ⟨exec_idleInstr_of_eq (p := .idleLow) ha hb hc, exec_idleInstr_of_eq (p := .idleHigh) ha hb hc,
    fun hp => exec_idleInstr_changes (p := .idleLow) ha hb hc (by rw [hp]; decide),
    fun hp => exec_idleInstr_changes (p := .idleHigh) ha hb hc (by rw [hp]; decide)⟩

/-! ## Transfers -/

/-- Where a transfer can run and no error comes, it returns the word received (R126). -/
theorem exec_busXfer_of_ready {s : State} {n : Nat} (d : Word) (ha : s.Admits) (ht : s.CanTransfer) (h1 : 1 ≤ n)
    (h32 : n ≤ 32) (he : s.NoError 1) :
    exec (.busXfer n d) s = .next ((s.transferred n d).ended (.done (.word (s.received n d)))) := by
  have ht' : (s.begin (.busXfer n d)).CanTransfer := ht
  rw [exec_busXfer, issue_of_admits ha rfl, transfer_of_ready d ht' h1 h32, transferError_none ht' he]
  rfl

/-- Where a transfer can run and an error is drawn, it raises after the same bits (R129, R299). -/
theorem exec_busXfer_of_error {s : State} {n : Nat} (d : Word) (ha : s.Admits) (ht : s.CanTransfer) (h1 : 1 ≤ n)
    (h32 : n ≤ 32) (hv : s.board.variant = .peripheralTimed) (he : s.errAnswer 0 ≠ (false, false)) :
    exec (.busXfer n d) s = .next ((s.transferred n d).ended
      (.raised (if (s.errAnswer 0).1 then .framing else .overrun (s.received n d)))) := by
  have ht' : (s.begin (.busXfer n d)).CanTransfer := ht
  rw [exec_busXfer, issue_of_admits ha rfl, transfer_of_ready d ht' h1 h32, transferError_some ht' hv he]
  rfl

/-- Only the transfer state changes where bits are sent from an idle block and the operation ends. -/
theorem onlyTransferState_of_sent {s t : State} {out : List Bool} (hs : Sent s t out) (ho : s.opstate = .idle)
    (c : Completion) : OnlyTransferState s (t.ended c) := by
  show t.ended c = _
  rw [State.ended, hs.only, ← ho]

theorem transferred_flagsAtRest {s : State} {n : Nat} {d : Word} (ht : s.CanTransfer)
    (hv : s.board.variant = .peripheralTimed) : (s.transferred n d).FlagsAtRest := by
  rcases (canTransfer_transferred (n := n) (d := d) ht).2.2 with hsw | ⟨-, hflags⟩
  · rw [show (s.transferred n d).board = s.board from rfl, hv] at hsw; cases hsw
  · exact hflags

/-- Settles O14: the bits sent say all but the buffers and the draws, which the two variants treat apart. -/
theorem busXferCompletes : Obligations.BusXferCompletes := by
  intro s n data ha ht he h1 h32
  have hs := sent_transferred data ht (show n ≠ 0 by omega)
  refine ⟨_, exec_busXfer_of_ready data ha ht h1 h32 he, rfl, hs.trace, rfl, rfl, hs.answers,
    onlyTransferState_of_sent hs ha.1 _, fun hv => ?_,
    fun hv => ⟨?_, ?_, errAnswer_transferred (n := n) (d := data) hv⟩⟩
  · simp [State.ended, State.transferred, hv]
  · simp [State.ended, State.transferred, hv, truncBits]
  · simp [State.ended, State.transferred, hv, State.received]

/-- Settles O17: the bits sampled are the bits sent, and packing them gives the low bits back. -/
theorem loopbackReturnsTheBitsSent : Obligations.LoopbackReturnsTheBitsSent := by
  intro s n data ha ht he h1 h32 hl
  have hrec : s.received n data = BitVec.ofNat 32 (data.toNat % 2 ^ n) := by
    rw [State.received, samples_loopback hl, packBits_bitsOf]
  refine ⟨_, exec_busXfer_of_ready data ha ht h1 h32 he, ?_, ?_, ?_⟩
  · rw [← hrec]; rfl
  · simp [State.ended, State.transferred, hl]
  · simp [State.ended, State.transferred, hl]

/-- Settles O19: the transfer is that of O14 in all but its end, so the bits sent say the same of it. -/
theorem busErrorsAreRaised : Obligations.BusErrorsAreRaised := by
  intro s n data ha ht hv he h1 h32
  have hs := sent_transferred data ht (show n ≠ 0 by omega)
  exact ⟨_, exec_busXfer_of_error data ha ht h1 h32 hv he, rfl, hs.trace, rfl,
    transferred_flagsAtRest (n := n) (d := data) ht hv, rfl,
    onlyTransferState_of_sent hs ha.1 _⟩

/-! ## `BUS.SEND` and `BUS.RECV` -/

/-- Dropping the word is mapping the result to nothing, for an outcome that returns a word if anything. -/
theorem mapDone_unit_eq_dropWord {o : Host.Outcome State Fault Refusal}
    (hw : ∀ t r, o = .next t → t.completion = some (.done r) → ∃ w, r = .word w) :
    mapDone (fun _ => .unit) o = dropWord o := by
  cases o with
  | next t =>
    simp only [mapDone, dropWord]
    cases hc : t.completion with
    | none => rfl
    | some c =>
      cases c with
      | done r => obtain ⟨w, rfl⟩ := hw t r rfl hc; rfl
      | raised e => rfl
  | fault f => rfl
  | refused r => rfl

theorem busXfer_returns_word {n : Nat} {d : Word} {s t : State} {r : Result} (h : exec (.busXfer n d) s = .next t)
    (hr : t.completion = some (.done r)) : ∃ w, r = .word w := by
  rw [exec_busXfer] at h
  obtain ⟨-, -, ⟨w, u, -, rfl⟩ | ⟨e, u, -, rfl⟩⟩ := issue_next h
  · exact ⟨w, by simpa using hr.symm⟩
  · simp at hr

theorem exec_busSend_eq_dropWord (n : Nat) (d : Word) (s : State) :
    exec (.busSend n d) s = dropWord (exec (.busXfer n d) s) := by
  rw [← mapDone_unit_eq_dropWord fun t r h hr => busXfer_returns_word h hr, exec_busSend, exec_busXfer]
  exact issue_map (g := fun _ => ()) (fun _ => rfl) rfl rfl (transfer_same n d _ _)

theorem exec_busRecv_eq_busXfer (n : Nat) (s : State) : exec (.busRecv n) s = exec (.busXfer n 0) s := by
  rw [exec_busRecv, exec_busXfer]
  exact issue_congr_all rfl (transfer_same n 0 _ _)

/-- Settles O15: the completion is that of `BUS.XFER` with the word dropped. -/
theorem busSendDropsTheWord : Obligations.BusSendDropsTheWord := by
  intro s n data
  refine ⟨exec_busSend_eq_dropWord n data s, fun ha ht he h1 h32 => ?_⟩
  rw [exec_busSend_eq_dropWord, exec_busXfer_of_ready data ha ht h1 h32 he]
  exact ⟨_, rfl, rfl⟩

/-- Settles O16: the completion is that of `BUS.XFER` with the word 0. -/
theorem busRecvIsXferOfZero : Obligations.BusRecvIsXferOfZero := by
  intro s n
  refine ⟨exec_busRecv_eq_busXfer n s, fun ha ht he h1 h32 => ?_⟩
  rw [exec_busRecv_eq_busXfer, exec_busXfer_of_ready 0 ha ht h1 h32 he]
  exact ⟨_, rfl, rfl⟩

/-! ## Refusals -/

theorem admission_of_not_constructed {i : Instr} {s : State} (ho : s.opstate = .idle)
    (hg : gateLegal s.board s.power i = true) (hc : s.constructed = false) :
    admission false i s = some (.refused .unconfigured) := by
  simp [admission, ho, hg, hc]

/-- Where the gate lets the operation through, its body refuses or construction is not done (R137, R328). -/
theorem issue_refuses_unconfigured {α : Type} {i : Instr} {f : α → Result} {body : State → Run α} {s : State}
    (ho : s.opstate = .idle) (hw : s.constructed = true → s.board.wf = true)
    (hg : gateLegal s.board s.power i = true) (hbody : body (s.begin i) = .refuse .unconfigured) :
    issue i f body s = .refused .unconfigured := by
  by_cases hc : s.constructed = true
  · rw [issue_of_admits ⟨ho, hc, hw hc⟩ hg, hbody]; rfl
  · rw [issue, admission_of_not_constructed ho hg (by simpa using hc)]

theorem transfer_of_refusal {n : Nat} {s : State} {r : Refusal} (hr : transferRefusal n s = some r) (d : Word) :
    transfer n d s = .refuse r := by
  rw [transfer, hr]

/-- `BUS.SEND` and `BUS.RECV` are refused where every `BUS.XFER` of that length is (R127, R128). -/
theorem exec_rawTransfer_of_busXfer {i : Instr} {n : Nat} {data : Word} {s : State} {r : Refusal}
    (hi : i = .busXfer n data ∨ i = .busSend n data ∨ i = .busRecv n)
    (hx : ∀ d, exec (.busXfer n d) s = .refused r) : exec i s = .refused r := by
  rcases hi with rfl | rfl | rfl
  · exact hx data
  · rw [exec_busSend_eq_dropWord, hx]; rfl
  · rw [exec_busRecv_eq_busXfer, hx]

theorem exec_rawTransfer_refused {i : Instr} {n : Nat} {data : Word} {s : State} {r : Refusal}
    (hi : i = .busXfer n data ∨ i = .busSend n data ∨ i = .busRecv n) (ha : s.Admits)
    (hr : transferRefusal n s = some r) : exec i s = .refused r := by
  refine exec_rawTransfer_of_busXfer hi fun d => ?_
  rw [exec_busXfer, issue_of_admits ha rfl, transfer_of_refusal (s := s.begin _) hr]
  rfl

theorem exec_rawTransfer_unconfigured {i : Instr} {n : Nat} {data : Word} {s : State}
    (hi : i = .busXfer n data ∨ i = .busSend n data ∨ i = .busRecv n) (ho : s.opstate = .idle)
    (hw : s.constructed = true → s.board.wf = true) (hb : s.busReady = false) : exec i s = .refused .unconfigured := by
  have hr : transferRefusal n s = some .unconfigured := by simp [transferRefusal, hb]
  refine exec_rawTransfer_of_busXfer hi fun d => ?_
  rw [exec_busXfer]
  exact issue_refuses_unconfigured ho hw rfl (transfer_of_refusal (s := s.begin _) hr d)

theorem reconfigure_of_not_ready {s : State} (hb : s.busReady = false) (cfg : BusConfig) :
    reconfigure cfg s = .refuse .unconfigured := by
  simp [reconfigure, hb]

theorem setIdle_of_not_ready {s : State} (hb : s.busReady = false) (p : Polarity) :
    setIdle p s = .refuse .unconfigured := by
  simp [setIdle, hb]

theorem transferRefusal_of_count {n : Nat} {s : State} (hb : s.busReady = true) (hn : n = 0 ∨ 32 < n) :
    transferRefusal n s = some .bitCountOutOfRange := by
  have hcount : bitCountOk n = false := Bool.eq_false_iff.2 fun h => by
    have := bitCountOk_iff.1 h
    omega
  simp [transferRefusal, hb, hcount]

theorem transferRefusal_of_unspecified {n : Nat} {s : State} (hb : s.busReady = true) (h1 : 1 ≤ n) (h32 : n ≤ 32)
    (hc : s.cfg.specified = false) : transferRefusal n s = some .unspecifiedRead := by
  simp [transferRefusal, hb, bitCountOk_iff.2 ⟨h1, h32⟩, hc]

theorem transferRefusal_of_unsupported {n : Nat} {s : State} (hb : s.busReady = true) (h1 : 1 ≤ n) (h32 : n ≤ 32)
    (hc : s.cfg.specified = true) (hcfg : s.cfg.val.order = .lsbFirst ∨ s.cfg.val.width = .seven) :
    transferRefusal n s = some .unsupportedConfig := by
  have hsup : s.cfg.val.supported = false := by
    rcases hcfg with h | h <;> simp [BusConfig.supported, h]
  simp [transferRefusal, hb, bitCountOk_iff.2 ⟨h1, h32⟩, hc, hsup]

/-- Settles O18: the body refuses by the first check of R137 that fails. -/
theorem transportAdmission : Obligations.TransportAdmission := by
  intro s n data cfg i ho hw
  refine ⟨fun hb => ⟨?config, ?low, ?high, fun hi => exec_rawTransfer_unconfigured hi ho hw hb⟩, fun hi hc => ?later⟩
  case config =>
    rw [exec_busConfig]
    exact issue_refuses_unconfigured ho hw rfl (reconfigure_of_not_ready (s := s.begin _) hb cfg)
  case low =>
    rw [exec_busIdleLow]
    exact issue_refuses_unconfigured ho hw rfl (setIdle_of_not_ready (s := s.begin _) hb .idleLow)
  case high =>
    rw [exec_busIdleHigh]
    exact issue_refuses_unconfigured ho hw rfl (setIdle_of_not_ready (s := s.begin _) hb .idleHigh)
  case later =>
    have ha : s.Admits := ⟨ho, hc, hw hc⟩
    exact ⟨fun hb hn => exec_rawTransfer_refused hi ha (transferRefusal_of_count hb hn),
      fun hb h1 h32 hs => exec_rawTransfer_refused hi ha (transferRefusal_of_unspecified hb h1 h32 hs),
      fun hb h1 h32 hs hcfg => exec_rawTransfer_refused hi ha (transferRefusal_of_unsupported hb h1 h32 hs hcfg)⟩

/-! ## The two variants -/

theorem pair_withVariant {s : State} {k : Nat} (hf : s.FlagsAtRest) (hr : s.busReady = true → s.swrst = false)
    (he : ∀ j < k, s.errAnswer j = (false, false)) :
    Pair k (s.withVariant .softwareTimed) (s.withVariant .peripheralTimed) :=
  ⟨⟨rfl, rfl⟩, rfl, rfl, hf, hr, he⟩

theorem pair_busInit {k : Nat} {s t : State} (baud : Nat) (cfg : BusConfig) (h : Pair k s t) :
    SameOutcome (exec (.busInit baud cfg) s) (exec (.busInit baud cfg) t) := by
  have hbody : ∀ s t, Pair k s t →
      (if s.busReady then Run.refuse .alreadyConstructed else .ok () (s.initBus baud cfg)).Pairs k
        (if t.busReady then .refuse .alreadyConstructed else .ok () (t.initBus baud cfg)) := by
    intro s t h
    rw [h.ctl.1]
    split
    · rfl
    · exact ⟨rfl, h.initBus baud cfg⟩
  rw [exec_busInit, exec_busInit, issueBoot, issueBoot, h.admission]
  cases ha : admission true (.busInit baud cfg) s with
  | some o => exact same_of_some ha
  | none => exact (hbody _ _ (h.begin _)).complete _

/-- What an operation takes from the parameters is the same in the two variants. -/
theorem pair_of_board {α β : Type} {k j : Nat} {s t : State} (h : Pair k s t) (g : Board → β)
    (hg : ∀ b v, g { b with variant := v } = g b) (body : β → State → Run α)
    (hb : ∀ x, (body x s).Pairs j (body x t)) : (body (g s.board) s).Pairs j (body (g t.board) t) := by
  have hgt : g t.board = g s.board := by rw [h.seen.2]; exact hg _ _
  rw [hgt]
  exact hb _

theorem pair_issued {α : Type} {k j : Nat} {s t : State} {i : Instr} {f : α → Result} {body : State → Run α}
    (h : Pair k s t) (hi : ∀ s, exec i s = issue i f body s) (hb : ∀ s t, Pair k s t → (body s).Pairs j (body t)) :
    SameOutcome (exec i s) (exec i t) := by
  rw [hi, hi]
  exact h.issue hb

theorem pair_dac {s t : State} (h : Pair 5 s t) (cmd : DacCommand) (ch v : Nat) :
    SameOutcome (exec (cmd.instr ch v) s) (exec (cmd.instr ch v) t) :=
  pair_issued h (exec_dac cmd ch v) fun _ _ h => h.dacSend cmd ch v

/-- From two states alike but for the variant every operation ends alike, if the next five transfers draw no error: an
ADC read, the longest transaction, makes five (R134, R161). -/
theorem pair_exec {s t : State} (h : Pair 5 s t) (i : Instr) : SameOutcome (exec i s) (exec i t) := by
  cases i with
  | busInit baud cfg => exact pair_busInit baud cfg h
  | busConfig cfg => exact pair_issued h (exec_busConfig cfg) fun _ _ h => h.reconfigure cfg
  | busIdleLow => exact pair_issued h exec_busIdleLow fun _ _ h => h.setIdle .idleLow
  | busIdleHigh => exact pair_issued h exec_busIdleHigh fun _ _ h => h.setIdle .idleHigh
  | busXfer n data => exact pair_issued h (exec_busXfer n data) fun _ _ h => Pair.transfer (k := 4) n data h
  | busSend n data => exact pair_issued h (exec_busSend n data) fun _ _ h => Pair.transferSend (k := 4) n data h
  | busRecv n => exact pair_issued h (exec_busRecv n) fun _ _ h => Pair.transfer (k := 4) n 0 h
  | adcReadCount adc sensor =>
    exact pair_issued h (exec_adcReadCount adc sensor) fun _ _ h =>
      h.withSensor sensor fun r => h.readCountOf adc r
  | adcReadMv adc sensor =>
    exact pair_issued h (exec_adcReadMv adc sensor) fun _ _ h =>
      h.withSensor sensor fun r => h.readMvOf adc r
  | dacWrite ch v => exact pair_dac h .writeOnly ch v
  | dacUpdate ch v => exact pair_dac h .updateOnly ch v
  | dacWriteUpdateOne ch v => exact pair_dac h .writeAndUpdateOne ch v
  | dacWriteUpdateAll ch v => exact pair_dac h .writeAndUpdateAll ch v
  | dacPoweroffChannel ch v => exact pair_dac h .powerOffChannel ch v
  | dacPoweroffChip ch v => exact pair_dac h .powerOffChip ch v
  | dacRefInternal ch v => exact pair_dac h .selectInternalReference ch v
  | dacRefExternal ch v => exact pair_dac h .selectExternalReference ch v
  | dacNop ch v => exact pair_dac h .noOp ch v
  | dacMv2Count mv =>
    exact pair_issued h (exec_dacMv2Count mv) fun _ _ h =>
      pair_of_board h (fun b => BitVec.ofNat 12 (mv2Count b.dacVccMv mv)) (fun _ _ => rfl) (fun x s => .ok x s)
        fun _ => ⟨rfl, h⟩
  | dpotWrite a w => exact pair_issued h (exec_dpotWrite a w) fun _ _ h => h.dpotSend a w
  | dpotOhms2Count ohms =>
    exact pair_issued h (exec_dpotOhms2Count ohms) fun _ _ h =>
      pair_of_board h (fun b => BitVec.ofNat 8 (b.ohms2Count ohms)) (fun _ _ => rfl) (fun x s => .ok x s)
        fun _ => ⟨rfl, h⟩
  | pwrEnablePayload => exact pair_issued h exec_pwrEnablePayload fun _ _ h => ⟨rfl, h.power _ _ _⟩
  | pwrDisablePayload => exact pair_issued h exec_pwrDisablePayload fun _ _ h => ⟨rfl, h.power _ _ _⟩
  | pwrEnableHeater => exact pair_issued h exec_pwrEnableHeater fun _ _ h => ⟨rfl, h.power _ _ _⟩
  | pwrDisableHeater => exact pair_issued h exec_pwrDisableHeater fun _ _ h => ⟨rfl, h.power _ _ _⟩
  | senseRead sensor => exact pair_issued h (exec_senseRead sensor) fun _ _ h => h.readSensor sensor
  | heaterSetMv mv =>
    exact pair_issued h (exec_heaterSetMv mv) fun _ _ h =>
      pair_of_board h (fun b => (b.digipotHeaterChannel.toNat, b.heaterWiper mv)) (fun _ _ => rfl)
        (fun x => dpotSend x.1 x.2) fun x => h.dpotSend x.1 x.2
  | tetherSetMv mv =>
    exact pair_issued h (exec_tetherSetMv mv) fun _ _ h =>
      pair_of_board h (fun b => (b.tetherChannel, b.tetherCount mv)) (fun _ _ => rfl) (fun x => dacSet x.1 x.2)
        fun x => h.dacSet x.1 x.2
  | cathodeSetMv mv =>
    exact pair_issued h (exec_cathodeSetMv mv) fun _ _ h =>
      pair_of_board h (fun b => (b.cathodeChannel, b.cathodeCount mv)) (fun _ _ => rfl) (fun x => dacSet x.1 x.2)
        fun x => h.dacSet x.1 x.2
  | heaterGetMv =>
    exact pair_issued h exec_heaterGetMv fun _ _ h =>
      pair_of_board h (·.heaterSensors.voltage) (fun _ _ => rfl) readSupply fun o => h.readSupply o
  | tetherGetMv =>
    exact pair_issued h exec_tetherGetMv fun _ _ h =>
      pair_of_board h (·.tetherSensors.voltage) (fun _ _ => rfl) readSupply fun o => h.readSupply o
  | cathodeGetMv =>
    exact pair_issued h exec_cathodeGetMv fun _ _ h =>
      pair_of_board h (·.cathodeSensors.voltage) (fun _ _ => rfl) readSupply fun o => h.readSupply o
  | relayConnect r => exact pair_issued h (exec_relayConnect r) fun _ _ h => h.relay r true
  | relayDisconnect r => exact pair_issued h (exec_relayDisconnect r) fun _ _ h => h.relay r false
  | heaterGetMa =>
    exact pair_issued h exec_heaterGetMa fun _ _ h =>
      pair_of_board h (·.heaterSensors.current) (fun _ _ => rfl) readSupply fun o => h.readSupply o
  | tetherGetMa =>
    exact pair_issued h exec_tetherGetMa fun _ _ h =>
      pair_of_board h (·.tetherSensors.current) (fun _ _ => rfl) readSupply fun o => h.readSupply o
  | cathodeGetMa =>
    exact pair_issued h exec_cathodeGetMa fun _ _ h =>
      pair_of_board h (·.cathodeSensors.current) (fun _ _ => rfl) readSupply fun o => h.readSupply o

/-- Settles O21: the block with each transport is a pair of states alike but for the variant. -/
theorem variantsAreInterchangeable : Obligations.VariantsAreInterchangeable := by
  intro i s hf hr he
  exact pair_exec (pair_withVariant hf hr he) i

end Sys2Proof.Proofs
end

section
/-! PROOFS. The ADC engine (41_adc.md R161 to R166): a read that completes, one that an error cuts short, its admission,
and what it returns where the environment answers as the document describes an ADC. -/

namespace Sys2Proof.Proofs

open Sys2Proof.Machine

/-! ## Operations of one transaction -/

/-- An operation whose body is a transaction that sent the bits `out` completes with that transaction done. -/
theorem issue_transactionDone {α : Type} {i : Instr} {f : α → Result} {body : State → Run α} {s t : State} {a : α}
    {d : Dev} {m : Mode} {out : List Bool} (ha : s.Admits) (hg : gateLegal s.board s.power i = true)
    (ht : s.CanTransfer) (hne : out ≠ []) (hb : body (s.begin i) = .ok a (t.pinWrite (.cs d) true))
    (hs : Sent ((s.begin i).opened d m) t out) :
    ∃ u, issue i f body s = .next u ∧ u.completion = some (.done (f a)) ∧ TransactionDone s u d m out := by
  refine ⟨(t.pinWrite (.cs d) true).finish (f a), by rw [issue_of_admits ha hg, hb, Run.complete_ok], rfl, ?_⟩
  exact transactionDone_of_sent ht hne hs (by rw [ha.1]; rfl)

/-- An operation whose body is a transaction that raised after the bits `out` raises, with that transaction over
(R301, R302). -/
theorem issue_transactionFailed {α : Type} {i : Instr} {f : α → Result} {body : State → Run α} {s t : State}
    {e : BusError} {d : Dev} {m : Mode} {out : List Bool} (ha : s.Admits)
    (hg : gateLegal s.board s.power i = true) (ht : s.CanTransfer) (hv : s.board.variant = .peripheralTimed)
    (hne : out ≠ []) (hb : body (s.begin i) = .raise e (s.restoreConfig (t.pinWrite (.cs d) true)))
    (hs : Sent ((s.begin i).opened d m) t out) :
    ∃ u, issue i f body s = .next u ∧ u.completion = some (.raised e) ∧ TransactionFailed s u d m out := by
  refine ⟨(s.restoreConfig (t.pinWrite (.cs d) true)).takeError e,
    by rw [issue_of_admits ha hg, hb, Run.complete_raise], rfl, ?_⟩
  exact transactionFailed_of_sent ht hv hne hs (by rw [ha.1]; rfl)

/-! ## The sensor of a name -/

theorem withSensor_of_some {α : Type} {n : SensorName} {r : Sensor} {s : State} (hr : s.board.sensor n = some r)
    (body : Sensor → State → Run α) : withSensor n body s = body r s := by
  rw [withSensor, hr]

theorem withSensor_of_none {α : Type} {n : SensorName} {s : State} (hr : s.board.sensor n = none)
    (body : Sensor → State → Run α) : withSensor n body s = .refuse .noSuchSensor := by
  rw [withSensor, hr]

/-- A look-up does not depend on the sequencer's position where its body does not. -/
theorem withSensor_same {α : Type} {n : SensorName} {body : Sensor → State → Run α}
    (hb : ∀ r s o, (body r s).Same (body r (s.at o))) (s : State) (o : OpState) :
    (withSensor n body s).Same (withSensor n body (s.at o)) := by
  cases hr : s.board.sensor n with
  | none => rw [withSensor_of_none hr, withSensor_of_none (s := s.at o) hr]; rfl
  | some r => rw [withSensor_of_some hr, withSensor_of_some (s := s.at o) hr]; exact hb r s o

theorem readCountOf_of_adc_eq {r : Sensor} (hk : r.channel ≤ 7) (s : State) :
    readCountOf r.adc r s = memRead r.adc r.channel s := by
  rw [readCountOf, if_pos ⟨rfl, hk⟩]

theorem readCountOf_of_adc_ne {a : AdcId} {r : Sensor} (h : r.adc ≠ a) (s : State) :
    readCountOf a r s = .refuse .sensorAdcMismatch := by
  rw [readCountOf, if_neg fun hc => h hc.1]

/-! ## Reads that complete -/

/-- Settles O22: the body is the transaction of `memRead_ok`. -/
theorem adcReadCountCompletes : Obligations.AdcReadCountCompletes := by
  intro s n r m ha ht hr hm hp he
  have hk := sensor_channel ha.2.2 hr
  obtain ⟨t, hread, hsent⟩ := memRead_ok (i := .adcReadCount r.adc n) hk ht hm he
  rw [exec_adcReadCount]
  refine issue_transactionDone ha (sensorLegal_of hr hp) ht (adcOut_ne _) ?_ hsent
  rw [withSensor_of_some (s := s.begin _) hr, readCountOf_of_adc_eq hk, hread]

theorem withSensor_readMvOf {s : State} {n : SensorName} {v : Nat}
    (hv : ∀ r, s.board.sensor n = some r → r.vrefMv = v) (a : AdcId) :
    withSensor n (readMvOf a) s
      = (withSensor n (readCountOf a) s).bind fun c s => .ok (adcMillivolts c v) s := by
  cases hr : s.board.sensor n with
  | none => rw [withSensor_of_none hr, withSensor_of_none hr, Run.bind_refuse]
  | some r => rw [withSensor_of_some hr, withSensor_of_some hr, readMvOf, hv r hr]

/-- `ADC.READ_MV` is `ADC.READ_COUNT` scaled, in every state and for every ADC and name; a name that is no sensor has no
scale, and its outcome is a refusal (R107, R163). -/
theorem exec_adcReadMv_eq_mapDone {s : State} {n : SensorName} {v : Nat}
    (hv : ∀ r, s.board.sensor n = some r → r.vrefMv = v) (a : AdcId) :
    exec (.adcReadMv a n) s = mapDone (Result.millivolts v) (exec (.adcReadCount a n) s) := by
  rw [exec_adcReadMv, exec_adcReadCount]
  exact issue_map (fun _ => rfl) rfl (withSensor_readMvOf (s := s.begin _) hv a)
    (withSensor_same (readCountOf_same a) _ _)

/-- Settles O23: the scaling is said of the outcome in every state, and of the count where the read completes. -/
theorem adcReadMvCompletes : Obligations.AdcReadMvCompletes := by
  intro s n r hr
  refine ⟨exec_adcReadMv_eq_mapDone fun r' hr' => by rw [Option.some.inj (hr.symm.trans hr')],
    fun m ha ht hm hp he => ?_⟩
  obtain ⟨t, hread, hsent⟩ := readMv_ok (i := .adcReadMv r.adc n) (sensor_channel ha.2.2 hr) ht hm he
  obtain ⟨u, hu, hc, hdone⟩ := issue_transactionDone (i := .adcReadMv r.adc n) (f := .value)
    (body := withSensor n (readMvOf r.adc)) ha (sensorLegal_of hr hp) ht (adcOut_ne _)
    ((withSensor_of_some (s := s.begin _) hr _).trans hread) hsent
  exact ⟨u, (exec_adcReadMv _ _ _).trans hu, hc, millivolts_le _ _, hdone⟩

/-! ## Admission -/

/-- Both reads are refused where the read of the count is (R162, R163). -/
theorem exec_adcRead_of_readCount {i : Instr} {a : AdcId} {n : SensorName} {s : State} {q : Refusal}
    (hi : i = .adcReadCount a n ∨ i = .adcReadMv a n) (hx : exec (.adcReadCount a n) s = .refused q) :
    exec i s = .refused q := by
  rcases hi with rfl | rfl
  · exact hx
  · cases hr : s.board.sensor n with
    | none => rw [exec_adcReadMv_eq_mapDone (v := 0) (by simp [hr]), hx]; rfl
    | some r => rw [exec_adcReadMv_eq_mapDone (v := r.vrefMv) (by simp [hr]), hx]; rfl

theorem sensorLegal_of_none {b : Board} {n : SensorName} (h : b.sensor n = none) (p : Power) :
    sensorLegal b p n = true := by
  rw [sensorLegal, h]

theorem sensorLegal_of_payloadOn {b : Board} {n : SensorName} {r : Sensor} (hr : b.sensor n = some r)
    (hc : r.cls = .payloadOn) : sensorLegal b .offOff n = false := by
  rw [sensorLegal, hr]
  simp [hc, Power.payloadOn]

/-- Settles O24: the gate is checked before the body, which looks the name up before it compares the ADC. -/
theorem adcAdmission : Obligations.AdcAdmission := by
  intro s a n i ha hi
  refine ⟨fun r hr hc hoff => exec_adcRead_of_readCount hi ?gate,
    fun r hr hp hne => exec_adcRead_of_readCount hi ?mismatch, fun hr => exec_adcRead_of_readCount hi ?missing⟩
  case gate =>
    exact exec_gate ha.1 (by rw [gateLegal, hoff, sensorLegal_of_payloadOn hr hc])
  case mismatch =>
    rw [exec_adcReadCount, issue_of_admits (i := .adcReadCount a n) ha (sensorLegal_of hr hp),
      withSensor_of_some (s := s.begin _) hr, readCountOf_of_adc_ne hne, Run.complete_refuse]
  case missing =>
    rw [exec_adcReadCount, issue_of_admits (i := .adcReadCount a n) ha (sensorLegal_of_none hr _),
      withSensor_of_none (s := s.begin _) hr, Run.complete_refuse]

/-! ## Reads that an error cuts short -/

theorem exec_getMvOf (u : Supply) (s : State) :
    exec (getMvOf u) s = issue (getMvOf u) .value (fun s => readSupply (s.board.supplySensors u).voltage s) s := by
  cases u with
  | heater => exact exec_heaterGetMv s
  | tetherBias => exact exec_tetherGetMv s
  | cathodeOffset => exact exec_cathodeGetMv s

theorem exec_getMaOf (u : Supply) (s : State) :
    exec (getMaOf u) s = issue (getMaOf u) .value (fun s => readSupply (s.board.supplySensors u).current s) s := by
  cases u with
  | heater => exact exec_heaterGetMa s
  | tetherBias => exact exec_tetherGetMa s
  | cathodeOffset => exact exec_cathodeGetMa s

theorem gateLegal_getMvOf (b : Board) (p : Power) (u : Supply) : gateLegal b p (getMvOf u) = p.payloadOn := by
  cases u <;> rfl

theorem gateLegal_getMaOf (b : Board) (p : Power) (u : Supply) : gateLegal b p (getMaOf u) = p.payloadOn := by
  cases u <;> rfl

/-- The operation `i` reads the sensor `n`, of record `r`, and the gate allows it in state `s`. -/
def ReadsSensor (i : Instr) (n : SensorName) (r : Sensor) (s : State) : Prop :=
  ((i = .adcReadCount r.adc n ∨ i = .adcReadMv r.adc n ∨ i = .senseRead n) ∧ (r.cls = .always ∨ s.power ≠ .offOff))
    ∨ (s.power ≠ .offOff ∧ ∃ u, (i = getMvOf u ∧ (s.board.supplySensors u).voltage = some n)
        ∨ (i = getMaOf u ∧ (s.board.supplySensors u).current = some n))

/-- Every read of a sensor is issued with a body that passes up the error of the ADC transaction (R165, R302). -/
theorem ReadsSensor.raises {i : Instr} {n : SensorName} {r : Sensor} {s : State} (h : ReadsSensor i n r s)
    (hr : s.board.sensor n = some r) (hk : r.channel ≤ 7) :
    ∃ (α : Type) (f : α → Result) (body : State → Run α), exec i s = issue i f body s
      ∧ gateLegal s.board s.power i = true
      ∧ ∀ e t, memRead r.adc r.channel (s.begin i) = .raise e t → body (s.begin i) = .raise e t := by
  have hsensor : ∀ e t, memRead r.adc r.channel (s.begin i) = .raise e t → readSensor n (s.begin i) = .raise e t :=
    fun _ _ hread => readSensor_raise (s := s.begin i) hr hk hread
  rcases h with ⟨rfl | rfl | rfl, hp⟩ | ⟨hon, u, ⟨rfl, hu⟩ | ⟨rfl, hu⟩⟩
  · refine ⟨_, _, _, exec_adcReadCount _ _ _, sensorLegal_of hr hp, fun e t hread => ?_⟩
    rw [withSensor_of_some (s := s.begin _) hr, readCountOf_of_adc_eq hk, hread]
  · refine ⟨_, _, _, exec_adcReadMv _ _ _, sensorLegal_of hr hp, fun e t hread => ?_⟩
    rw [withSensor_of_some (s := s.begin _) hr, readMv_raise hk hread]
  · exact ⟨_, _, _, exec_senseRead _ _, sensorLegal_of hr hp, hsensor⟩
  · refine ⟨_, _, _, exec_getMvOf u s, (gateLegal_getMvOf _ _ u).trans (payloadOn_of hon), fun e t hread => ?_⟩
    show readSupply (s.board.supplySensors u).voltage _ = _
    rw [hu]
    exact hsensor e t hread
  · refine ⟨_, _, _, exec_getMaOf u s, (gateLegal_getMaOf _ _ u).trans (payloadOn_of hon), fun e t hread => ?_⟩
    show readSupply (s.board.supplySensors u).current _ = _
    rw [hu]
    exact hsensor e t hread

/-- Settles O25: the ADC transaction raises at the end of transfer `j`, and every read of the sensor passes that up. -/
theorem adcErrorCutsTheRead : Obligations.AdcErrorCutsTheRead := by
  intro s i n r m j p q ha ht hr hm hi hv hj he hej
  have hk := sensor_channel ha.2.2 hr
  obtain ⟨-, -, hlen, hq, -⟩ := adcCut hk hj
  have hne : (adcOut r.channel).take q ≠ [] := by
    simp [List.take_eq_nil_iff, hq, adcOut_ne]
  obtain ⟨t, hread, hsent⟩ := memRead_raise (i := i) hk ht hm hv hj he hej
  obtain ⟨α, f, body, hexec, hg, hbody⟩ := ReadsSensor.raises hi hr hk
  rw [hexec]
  exact issue_transactionFailed ha hg ht hv hne (hbody _ _ hread) hsent

/-! ## An environment that answers as an ADC does -/

theorem cfgFor_loopback (s : State) (m : Mode) : (s.cfgFor m).loopback = s.cfg.val.loopback := by
  unfold State.cfgFor
  split <;> rfl

/-- The last `k` bits sampled outside loopback are the last `k` answers of the environment (R63). -/
theorem samples_last {cfg : BusConfig} (hl : cfg.loopback = false) {k : Nat} {out : List Bool} (hk : k ≤ out.length)
    (s : State) : (s.samples cfg out).drop (out.length - k)
      = (List.range k).map fun j => s.misoAnswer (out.length - k + j) := by
  apply List.ext_getElem
  · simp only [List.length_drop, samples_length, List.length_map, List.length_range]; omega
  · intro j h1 h2
    simp [State.samples, hl]

/-- The bits of a transfer are those of the word from the highest index down (R64). -/
theorem bitsOf_eq_map (k : Nat) (d : Word) : bitsOf k d = (List.range k).map fun j => d.getLsbD (k - 1 - j) := by
  induction k with
  | zero => rfl
  | succ k ih =>
    rw [bitsOf, ih, List.range_succ_eq_map, List.map_cons, List.map_map]
    congr 1
    apply List.map_congr_left
    intro j _
    simp only [Function.comp_apply]
    congr 1
    omega

theorem adcOut_length (k : Nat) : (adcOut k).length = (if k = 0 then 4 else 20) + 12 := by
  unfold adcOut
  split <;> simp

/-- The count is the conversion where the last 12 answers are its bits (R100, R164). -/
theorem adcCount_of_answers {cfg : BusConfig} {k : Nat} {c : BitVec 12} {s : State} (hl : cfg.loopback = false)
    (h : AdcAnswers k c s) : s.adcCount cfg k = c := by
  have hlen := adcOut_length k
  have hbits : (s.samples cfg (adcOut k)).drop ((adcOut k).length - 12) = bitsOf 12 (c.setWidth 32) := by
    rw [samples_last hl (by omega), bitsOf_eq_map, hlen, Nat.add_sub_cancel]
    refine List.map_congr_left fun j hj => ?_
    have hlt : 12 - 1 - j < 32 := by omega
    rw [h j (List.mem_range.1 hj), BitVec.getLsbD_setWidth, decide_eq_true hlt, Bool.true_and]
  rw [State.adcCount, hbits, packBits_bitsOf]
  apply BitVec.eq_of_toNat_eq
  simp only [BitVec.toNat_setWidth, BitVec.toNat_ofNat]
  omega

/-- Settles O26: the count of O22 is the conversion. -/
theorem wellBehavedAdcIsReadRight : Obligations.WellBehavedAdcIsReadRight := by
  intro s n r m c ha ht hr hm hp he hl hans
  obtain ⟨t, hexec, hc, -⟩ := adcReadCountCompletes s n r m ha ht hr hm hp he
  exact ⟨t, hexec, by rw [hc, adcCount_of_answers ((cfgFor_loopback s m).trans hl) hans]⟩

end Sys2Proof.Proofs
end

section
/-! PROOFS. The DAC engine (42_dac.md R180 to R193), with what the digipot's frame write shares with it: an operation
that sends one frame completes, or raises its error; operands wider than their fields are refused; and the scale of
`DAC.MV2COUNT`. -/

namespace Sys2Proof.Proofs

open Sys2Proof.Machine

/-! ## Operations of one frame -/

/-- An operation whose body sends one frame to device `d` completes with that transaction done where no error comes
(R180, R210). -/
theorem issue_frameSent {i : Instr} {body : State → Run Unit} {s : State} {d : Dev} {m : Mode} {n : Nat} {w : Word}
    (ha : s.Admits) (hg : gateLegal s.board s.power i = true) (ht : s.CanTransfer) (hm : s.board.devMode d = some m)
    (h1 : 1 ≤ n) (h32 : n ≤ 32) (hb : body (s.begin i) = transaction d (transferSend n w) (s.begin i))
    (he : s.NoError 1) :
    ∃ t, issueUnit i body s = .next t ∧ t.completion = some (.done .unit) ∧ TransactionDone s t d m (bitsOf n w) := by
  obtain ⟨t, hsend, hsent⟩ := sendOne_ok (w := w) (i := i) h1 h32 ht hm he
  exact issue_transactionDone ha hg ht (bitsOf_ne (by omega) w) (hb.trans hsend) hsent

/-- An operation whose body sends one frame to device `d` raises the error the frame ends in (R192, R213, R302). -/
theorem issue_frameRaised {i : Instr} {body : State → Run Unit} {s : State} {d : Dev} {m : Mode} {n : Nat} {w : Word}
    (ha : s.Admits) (hg : gateLegal s.board s.power i = true) (ht : s.CanTransfer) (hm : s.board.devMode d = some m)
    (h1 : 1 ≤ n) (h32 : n ≤ 32) (hb : body (s.begin i) = transaction d (transferSend n w) (s.begin i))
    (hv : s.board.variant = .peripheralTimed) (he : s.errAnswer 0 ≠ (false, false)) :
    ∃ t, issueUnit i body s = .next t
      ∧ t.completion = some (.raised (if (s.errAnswer 0).1 then .framing
          else .overrun (packBits (s.samples (s.cfgFor m) (bitsOf n w)))))
      ∧ TransactionFailed s t d m (bitsOf n w) := by
  obtain ⟨t, hsend, hsent⟩ := sendOne_raise (w := w) (i := i) h1 h32 ht hm hv he
  exact issue_transactionFailed ha hg ht hv (bitsOf_ne (by omega) w) (hb.trans hsend) hsent

theorem dacSend_of_lt (cmd : DacCommand) {ch v : Nat} (hc : ch < 16) (hv : v < 4096) (s : State) :
    dacSend cmd ch v s = transaction .dac (transferSend 24 (dacFrame (s.board.dacCodes.code cmd) ch v)) s :=
  if_pos (by simp [dacFieldsOk, hc, hv])

theorem dpotSend_of_lt {h w : Nat} (hh : h < 256) (hw : w < 256) (s : State) :
    dpotSend h w s = transaction .digipot (transferSend 16 (dpotFrame h w)) s :=
  if_pos (by simp [dpotFieldsOk, hh, hw])

/-- Settles O27: the nine commands have one body, which sends one frame. -/
theorem dacCommandsComplete : Obligations.DacCommandsComplete := by
  intro s cmd ch v ha ht he hp hc hv
  rw [exec_dac]
  exact issue_frameSent ha ((gateLegal_dac _ _ cmd ch v).trans (payloadOn_of hp)) ht rfl (by decide) (by decide)
    (dacSend_of_lt cmd hc hv _) he

/-- Settles O30: each body sends one frame, the error of which is raised as that of any transaction is. -/
theorem frameErrorsAreRaised : Obligations.FrameErrorsAreRaised := by
  intro s cmd ch v h w ha ht hvar he hp hc hv hh hw
  refine ⟨?dac, ?digipot⟩
  case dac =>
    rw [exec_dac]
    exact issue_frameRaised ha ((gateLegal_dac _ _ cmd ch v).trans (payloadOn_of hp)) ht rfl (by decide) (by decide)
      (dacSend_of_lt cmd hc hv _) hvar he
  case digipot =>
    rw [exec_dpotWrite]
    exact issue_frameRaised (i := .dpotWrite h w) ha (payloadOn_of hp) ht rfl (by decide) (by decide)
      (dpotSend_of_lt hh hw _) hvar he

/-! ## Operands wider than their fields -/

theorem dacSend_of_wide (cmd : DacCommand) {ch v : Nat} (h : 16 ≤ ch ∨ 4096 ≤ v) (s : State) :
    dacSend cmd ch v s = .refuse .operandOutOfRange :=
  if_neg (by simp only [dacFieldsOk, Bool.and_eq_true, decide_eq_true_eq]; omega)

theorem dpotSend_of_wide {h w : Nat} (hwide : 256 ≤ h ∨ 256 ≤ w) (s : State) :
    dpotSend h w s = .refuse .operandOutOfRange :=
  if_neg (by simp only [dpotFieldsOk, Bool.and_eq_true, decide_eq_true_eq]; omega)

theorem relayDrive_of_wide {r : Nat} (h : 2 ≤ r) (connect : Bool) (s : State) :
    relayDrive r connect s = .refuse .operandOutOfRange :=
  if_neg (by simp only [relayIndexOk, decide_eq_true_eq]; omega)

/-- An admitted operation whose body refuses is refused. -/
theorem issue_of_refuse {α : Type} {i : Instr} {f : α → Result} {body : State → Run α} {s : State} {q : Refusal}
    (ha : s.Admits) (hg : gateLegal s.board s.power i = true) (hb : body (s.begin i) = .refuse q) :
    issue i f body s = .refused q := by
  rw [issue_of_admits ha hg, hb, Run.complete_refuse]

/-- Settles O29: the gate comes before the body, and the body checks its operands before anything else. -/
theorem fieldWidthsRefused : Obligations.FieldWidthsRefused := by
  intro s cmd ch v h w r ha
  refine ⟨fun hoff => ?gate, fun hon hwide => ?dac, fun hon hwide => ?digipot, fun hon hwide => ?relay⟩
  case gate =>
    exact ⟨exec_gate ha.1 ((gateLegal_dac _ _ cmd ch v).trans (off_of hoff)), exec_gate ha.1 (off_of hoff),
      exec_gate ha.1 (off_of hoff), exec_gate ha.1 (off_of hoff)⟩
  case dac =>
    rw [exec_dac]
    exact issue_of_refuse ha ((gateLegal_dac _ _ cmd ch v).trans (payloadOn_of hon)) (dacSend_of_wide cmd hwide _)
  case digipot =>
    rw [exec_dpotWrite]
    exact issue_of_refuse (i := .dpotWrite h w) ha (payloadOn_of hon) (dpotSend_of_wide hwide _)
  case relay =>
    rw [exec_relayConnect, exec_relayDisconnect]
    exact ⟨issue_of_refuse (i := .relayConnect r) ha (payloadOn_of hon) (relayDrive_of_wide hwide true _),
      issue_of_refuse (i := .relayDisconnect r) ha (payloadOn_of hon) (relayDrive_of_wide hwide false _)⟩

/-! ## The scale of the DAC -/

theorem mv2Count_of_nonpos (vcc : Nat) {x : Int} (h : x ≤ 0) : mv2Count vcc x = 0 := if_pos h

theorem mv2Count_of_pos (vcc : Nat) {x : Int} (h : 0 < x) : mv2Count vcc x = min (x.toNat * 4095 / vcc) 4095 :=
  if_neg (by omega)

/-- From the reference on the count is the greatest of 12 bits (R191). -/
theorem mv2Count_of_reference_le {vcc : Nat} {x : Int} (hv : 0 < vcc) (h : (vcc : Int) ≤ x) : mv2Count vcc x = 4095 := by
  rw [mv2Count_of_pos vcc (by omega)]
  exact min_eq_right ((Nat.le_div_iff_mul_le hv).2 (by omega))

theorem mv2Count_mono (vcc : Nat) {x y : Int} (h : x ≤ y) : mv2Count vcc x ≤ mv2Count vcc y := by
  rcases le_or_gt x 0 with hx | hx
  · rw [mv2Count_of_nonpos vcc hx]
    exact Nat.zero_le _
  · rw [mv2Count_of_pos vcc hx, mv2Count_of_pos vcc (hx.trans_le h)]
    exact min_le_min_right _ (Nat.div_le_div_right (Nat.mul_le_mul_right _ (Int.toNat_le_toNat h)))

/-- Settles O32. -/
theorem mv2CountMonotone : Obligations.Mv2CountMonotone := fun vcc x _ hv =>
  ⟨mv2Count_of_nonpos vcc (le_refl _), mv2Count_of_reference_le hv (le_refl _), mv2Count_le vcc x,
    mv2Count_of_nonpos vcc, mv2Count_of_reference_le hv, mv2Count_mono vcc⟩

theorem ofNat_mv2Count (vcc : Nat) (x : Int) :
    BitVec.ofNat 12 (mv2Count vcc x)
      = if x ≤ 0 then 0 else BitVec.ofNat 12 (min (x.toNat * 4095 / vcc) 4095) :=
  apply_ite (BitVec.ofNat 12) _ _ _

/-- Settles O31: the gate lets it through in every power state, and the body leaves the state as it is. -/
theorem mv2CountCompletes : Obligations.Mv2CountCompletes := by
  intro s mv ha
  rw [exec_dacMv2Count, issue_of_admits ha rfl, Run.complete_ok, finish_begin, State.ended, ← ha.1, State.begin_board,
    ofNat_mv2Count]

end Sys2Proof.Proofs
end

section
/-! PROOFS. The digipot engine (43_digipot.md R210 to R214): `DPOT.WRITE` sends its frame, and the scale of
`DPOT.OHMS2COUNT`. -/

namespace Sys2Proof.Proofs

open Sys2Proof.Machine

/-- Settles O28: the body is the transaction of one frame. -/
theorem dpotWriteCompletes : Obligations.DpotWriteCompletes := by
  intro s h w ha ht he hp hh hw
  rw [exec_dpotWrite]
  exact issue_frameSent (i := .dpotWrite h w) ha (payloadOn_of hp) ht rfl (by decide) (by decide)
    (dpotSend_of_lt hh hw _) he

/-! ## Clamping -/

theorem clampInt_mono {x y : Int} (h : x ≤ y) (lo hi : Int) : clampInt x lo hi ≤ clampInt y lo hi :=
  max_le_max_left lo (min_le_min_right hi h)

theorem clampInt_of_le_low {x lo : Int} (h : x ≤ lo) (hi : Int) : clampInt x lo hi = lo :=
  max_eq_left ((min_le_left x hi).trans h)

theorem clampInt_of_high_le {x lo hi : Int} (hr : lo ≤ hi) (h : hi ≤ x) : clampInt x lo hi = hi := by
  rw [clampInt, min_eq_right h, max_eq_right hr]

/-! ## The scale of the digipot -/

theorem ohms2Count_mono (wiperR maxR resolution : Nat) {x y : Int} (h : x ≤ y) :
    ohms2Count wiperR maxR resolution x ≤ ohms2Count wiperR maxR resolution y :=
  Nat.div_le_div_right (Nat.mul_le_mul_right _ (Int.toNat_le_toNat (Int.sub_le_sub_right (clampInt_mono h _ _) _)))

/-- Up to the resistance of the wiper the count is 0 (R212). -/
theorem ohms2Count_of_le_wiper {wiperR : Nat} {x : Int} (h : x ≤ wiperR) (maxR resolution : Nat) :
    ohms2Count wiperR maxR resolution x = 0 := by
  simp [ohms2Count, clampInt_of_le_low h]

/-- From the greatest resistance on the count is the resolution, the greatest count there is (R212). -/
theorem ohms2Count_of_max_le {wiperR maxR : Nat} {x : Int} (hr : wiperR < maxR) (h : (maxR : Int) ≤ x)
    (resolution : Nat) : ohms2Count wiperR maxR resolution x = resolution := by
  have hspan : ((maxR : Int) - wiperR).toNat = maxR - wiperR := by omega
  rw [ohms2Count, clampInt_of_high_le (by omega) h, hspan, Nat.mul_div_cancel_left _ (by omega)]

/-- Settles O34. -/
theorem ohms2CountMonotone : Obligations.Ohms2CountMonotone := fun wiperR maxR x _ hr =>
  ⟨ohms2Count_mono wiperR maxR 255, fun h => ohms2Count_of_le_wiper h maxR 255, fun h => ohms2Count_of_max_le hr h 255,
    ohms2Count_le x hr⟩

/-- On a well-formed board the resolution is 255 (R7), so the board's scale is that of R212. -/
theorem ohms2Count_of_wf {b : Board} (h : b.wf = true) (ohms : Int) :
    b.ohms2Count ohms = ohms2Count b.digipotWiperR b.digipotMaxR 255 ohms := by
  rw [Board.ohms2Count, (wf_digipot h).2]

/-- Settles O33: the gate lets it through in every power state, and the body leaves the state as it is. -/
theorem ohms2CountCompletes : Obligations.Ohms2CountCompletes := by
  intro s ohms ha
  have ⟨hidle, _, hwf⟩ := ha
  rw [exec_dpotOhms2Count, issue_of_admits ha rfl, Run.complete_ok, finish_begin, State.ended, ← hidle,
    State.begin_board, ohms2Count_of_wf hwf, ohms2Count, clampInt]

end Sys2Proof.Proofs
end

section
/-! PROOFS. The power-sequencing controller (44_power_sequencer.md R225 to R254): the transitions and the relays, the
operations the gate refuses, what the payload-off state keeps still, the reads of the sensors and of the supplies, and the
voltage sets with their clamp. -/

namespace Sys2Proof.Proofs

open Sys2Proof.Machine

/-! ## Operations that write one line -/

/-- In an idle block the end of an operation shows in the completion alone (R24). -/
theorem ended_of_idle {s : State} (h : s.opstate = .idle) (c : Completion) :
    s.ended c = { s with completion := some c } := by
  rw [State.ended, ← h]

theorem pinWrite_begin_finish (l : Line) (v : Level) (r : Result) (i : Instr) (s : State) :
    ((s.begin i).pinWrite l v).finish r = (s.pinWrite l v).ended (.done r) := by
  cases l <;> rfl

/-- An admitted transition writes its line and `POWER` (R232). -/
theorem issue_transition {i : Instr} {l : Line} {v : Level} {p : Power} {s : State} (ha : s.Admits)
    (hg : gateLegal s.board s.power i = true) :
    issueUnit i (fun s => .ok () { s.pinWrite l v with power := p }) s
      = .next { s.pinWrite l v with power := p, completion := some (.done .unit) } := by
  rw [issueUnit, issue_of_admits ha hg, Run.complete_ok, power_lt,
    ended_of_idle (s := { s.pinWrite l v with power := p }) ((s.pinWrite_opstate l v).trans ha.1)]

/-- Settles O35: the gate holds by the power state each transition starts from, and the body writes the line. -/
theorem transitionsComplete : Obligations.TransitionsComplete := by
  intro s ha
  exact ⟨fun hp => (exec_pwrEnablePayload s).trans (issue_transition ha (decide_eq_true hp)),
    fun hp => (exec_pwrDisablePayload s).trans (issue_transition ha (decide_eq_true hp)),
    fun hp => (exec_pwrEnableHeater s).trans (issue_transition ha (decide_eq_true hp)),
    fun hp => (exec_pwrDisableHeater s).trans (issue_transition ha (decide_eq_true hp))⟩

theorem relayDrive_of_lt {r : Nat} (h : r < 2) (connect : Bool) (s : State) :
    relayDrive r connect s
      = .ok () (s.pinWrite (relayLine r) (if connect then s.board.relayActive r else !s.board.relayActive r)) :=
  if_pos (decide_eq_true h)

/-- An admitted relay operation writes the line of its relay (R250, R251). -/
theorem issue_relayDrive {i : Instr} {r : Nat} {s : State} (ha : s.Admits) (hg : gateLegal s.board s.power i = true)
    (hr : r < 2) (connect : Bool) :
    issueUnit i (relayDrive r connect) s
      = .next { s.pinWrite (relayLine r) (if connect then s.board.relayActive r else !s.board.relayActive r) with
                completion := some (.done .unit) } := by
  rw [issueUnit, issue_of_admits ha hg, relayDrive_of_lt hr, Run.complete_ok, pinWrite_begin_finish,
    ended_of_idle ((s.pinWrite_opstate _ _).trans ha.1), State.begin_board]

/-- Settles O46: the four cases are the two relays and the two levels of one body. -/
theorem relaysComplete : Obligations.RelaysComplete := by
  intro s ha hon
  have hp := payloadOn_of hon
  have hconnect := fun {r : Nat} (hr : r < 2) =>
    (exec_relayConnect r s).trans (issue_relayDrive (i := .relayConnect r) ha hp hr true)
  have hdisconnect := fun {r : Nat} (hr : r < 2) =>
    (exec_relayDisconnect r s).trans (issue_relayDrive (i := .relayDisconnect r) ha hp hr false)
  exact ⟨hconnect (by decide), hconnect (by decide), hdisconnect (by decide), hdisconnect (by decide)⟩

/-! ## The legality table -/

theorem gateLegal_setMvOf (b : Board) (p : Power) (u : Supply) (mv : Int) :
    gateLegal b p (setMvOf mv u) = p.payloadOn := by
  cases u <;> rfl

/-- The gate of the three reads of a sensor is that of the sensor (R225). -/
theorem gateLegal_sensorRead {b : Board} {a : AdcId} {n : SensorName} {i : Instr}
    (hi : i = .senseRead n ∨ i = .adcReadCount a n ∨ i = .adcReadMv a n) (p : Power) :
    gateLegal b p i = sensorLegal b p n := by
  rcases hi with rfl | rfl | rfl <;> rfl

/-- Settles O36: the gate is checked first in every idle state, and answers by the table. -/
theorem gateRefusesByTheTable : Obligations.GateRefusesByTheTable := by
  intro s i ho
  refine ⟨fun hp hi => ?enablePayload, fun hp hi => ?fromOnOff, fun hp hi => ?disableHeater,
    fun hoff hi => exec_gate ho ?payloadOff⟩
  case enablePayload =>
    subst hi
    exact exec_gate ho (decide_eq_false hp)
  case fromOnOff => rcases hi with rfl | rfl <;> exact exec_gate ho (decide_eq_false hp)
  case disableHeater =>
    subst hi
    exact exec_gate ho (decide_eq_false hp)
  case payloadOff =>
    have hp := off_of hoff
    rcases hi with ⟨u, mv, rfl | rfl | rfl⟩ | ⟨r, rfl | rfl⟩ | ⟨cmd, ch, v, rfl⟩ | ⟨h, w, rfl⟩ | ⟨a, n, r, hr, hc, hi⟩
    · exact (gateLegal_setMvOf _ _ u mv).trans hp
    · exact (gateLegal_getMvOf _ _ u).trans hp
    · exact (gateLegal_getMaOf _ _ u).trans hp
    · exact hp
    · exact hp
    · exact (gateLegal_dac _ _ cmd ch v).trans hp
    · exact hp
    · rw [gateLegal_sensorRead hi, hoff, sensorLegal_of_payloadOn hr hc]

/-! ## The actuators with the payload off -/

/-- The lines that move an actuator: the relays and the chip selects of the DAC and of the digipot (R341). -/
def ActuatorLine (l : Line) : Prop := l = .relay0 ∨ l = .relay1 ∨ l = .cs .dac ∨ l = .cs .digipot

theorem ActuatorLine.ne_sclk {l : Line} (h : ActuatorLine l) : l ≠ .sclk := by
  rcases h with rfl | rfl | rfl | rfl <;> decide

theorem ActuatorLine.ne_mosi {l : Line} (h : ActuatorLine l) : l ≠ .mosi := by
  rcases h with rfl | rfl | rfl | rfl <;> decide

theorem ActuatorLine.ne_enable {l : Line} (h : ActuatorLine l) : l ≠ .payloadEn ∧ l ≠ .heaterEn := by
  rcases h with rfl | rfl | rfl | rfl <;> decide

theorem ActuatorLine.ne_adc {l : Line} (h : ActuatorLine l) (a : AdcId) : l ≠ .cs (.adc a) := by
  rcases h with rfl | rfl | rfl | rfl <;> simp

theorem untouched_nil (l : Line) : untouched l [] := fun _ => List.not_mem_nil

theorem untouched_pin {l k : Line} (h : l ≠ k) (v : Level) : untouched l [.pin k v] := by
  simp [untouched, h]

/-- A device transaction drives the clock, data-out and its own chip select (R70). -/
theorem untouched_device {l : Line} {d : Dev} (h1 : l ≠ .sclk) (h2 : l ≠ .mosi) (h3 : l ≠ .cs d) (s u : State)
    (m k : Mode) (c : Completion) (ts bs : List Bool) :
    untouched l (ensureEvents s m ++ [.pin (.cs d) false] ++ transferEvents k ts bs ++ [.pin (.cs d) true]
      ++ s.closing c u) := by
  simp only [untouched_append]
  exact ⟨⟨⟨⟨untouched_ensure s m h1, untouched_pin h3 false⟩, untouched_transfer k ts bs h1 h2⟩,
    untouched_pin h3 true⟩, untouched_closing s c u h1⟩

theorem applyConfig_relays (cfg : BusConfig) (s : State) :
    (s.applyConfig cfg).relay0 = s.relay0 ∧ (s.applyConfig cfg).relay1 = s.relay1 := by
  rw [applyConfig_eq]
  exact ⟨rfl, rfl⟩

theorem initBus_relays (baud : Nat) (cfg : BusConfig) (s : State) :
    (s.initBus baud cfg).relay0 = s.relay0 ∧ (s.initBus baud cfg).relay1 = s.relay1 := by
  cases hv : s.board.variant <;> simp [State.initBus, hv, applyConfig_relays]

/-- With the payload off no effect of an operation drives an actuator: the gate keeps out the relay operations and every
transaction but those with an ADC, and the one transition there is drives an enable line (R225). -/
theorem effect_actuators_still {s t : State} {i : Instr} (h : Effect s i t) (hoff : s.power = .offOff) :
    ∃ evs, t.trace = s.trace ++ evs ∧ (∀ l, ActuatorLine l → untouched l evs)
      ∧ t.relay0 = s.relay0 ∧ t.relay1 = s.relay1 := by
  have hnot : s.power.payloadOn ≠ true := by simp [off_of hoff]
  cases h with
  | init baud cfg hb =>
    exact ⟨_, initBus_trace baud cfg s, fun l hl => untouched_pin hl.ne_sclk _, initBus_relays baud cfg s⟩
  | quiet i r he => exact ⟨[], (List.append_nil _).symm, fun l _ => untouched_nil l, rfl, rfl⟩
  | config i cfg he hb =>
    exact ⟨_, applyConfig_trace cfg s, fun l hl => untouched_pin hl.ne_sclk _, applyConfig_relays cfg s⟩
  | raw i n d c he h1 h32 hb hv =>
    exact ⟨_, rfl, fun l hl => untouched_transfer _ _ _ hl.ne_sclk hl.ne_mosi, rfl, rfl⟩
  | device i f d m out c u he hl hm hb hcs hcc hp hne hpre hfull hv hu =>
    obtain ⟨a, rfl⟩ := hp.resolve_left hnot
    obtain ⟨-, -, -, hr0, hr1, -⟩ := device_frame (c := c) hu _ rfl
    exact ⟨_, device_trace hu, fun l hl => untouched_device hl.ne_sclk hl.ne_mosi (hl.ne_adc a) _ _ _ _ _ _ _, hr0, hr1⟩
  | power i l v p he hi =>
    have hline : l = .payloadEn ∨ l = .heaterEn := by
      rcases hi with ⟨-, hl, -⟩ | ⟨-, hl, -⟩ | ⟨-, hl, -⟩ | ⟨-, hl, -⟩ <;> simp [hl]
    refine ⟨[.pin l v], s.pinWrite_trace l v, fun k hk => untouched_pin ?_ v, ?_⟩
    · rcases hline with rfl | rfl
      · exact hk.ne_enable.1
      · exact hk.ne_enable.2
    · rcases hline with rfl | rfl <;> exact ⟨rfl, rfl⟩
  | relay i r v he hp => exact absurd hp hnot

/-- Settles O38. -/
theorem payloadOffMovesNoActuator : Obligations.PayloadOffMovesNoActuator := by
  intro i s t h hoff
  obtain ⟨evs, htrace, hstill, hr0, hr1⟩ := effect_actuators_still (exec_effect h).2 hoff
  exact ⟨evs, htrace, hstill _ (.inl rfl), hstill _ (.inr (.inl rfl)), hstill _ (.inr (.inr (.inl rfl))),
    hstill _ (.inr (.inr (.inr rfl))), hr0, hr1⟩

/-! ## Reads of sensors -/

theorem readSensor_eq_readMvOf {n : SensorName} {r : Sensor} {s : State} (hr : s.board.sensor n = some r) :
    readSensor n s
      = (withSensor n (readMvOf r.adc) s).bind fun mv t => .ok (s.board.calibrate r.calRead mv) t := by
  rw [readSensor, withSensor_of_some hr, withSensor_of_some hr]

/-- `SENSE.READ` is `ADC.READ_MV` of the sensor's own ADC calibrated, in every state (R107, R242). -/
theorem exec_senseRead_eq_mapDone {n : SensorName} {r : Sensor} {s : State} (hr : s.board.sensor n = some r) :
    exec (.senseRead n) s = mapDone (Result.calibrated s.board r.calRead) (exec (.adcReadMv r.adc n) s) := by
  rw [exec_senseRead, exec_adcReadMv]
  exact issue_map (fun _ => rfl) rfl (readSensor_eq_readMvOf (s := s.begin _) hr)
    (withSensor_same (readMvOf_same r.adc) _ _)

/-- A name that is no sensor has no gate class: the body refuses it (R293). -/
theorem exec_senseRead_of_none {n : SensorName} {s : State} (ha : s.Admits) (hr : s.board.sensor n = none) :
    exec (.senseRead n) s = .refused .noSuchSensor :=
  (exec_senseRead n s).trans
    (issue_of_refuse (i := .senseRead n) ha (sensorLegal_of_none hr _) (withSensor_of_none (s := s.begin _) hr _))

/-- Settles O39: the body is the ADC transaction of `readSensor_ok`. -/
theorem senseReadCompletes : Obligations.SenseReadCompletes := by
  intro s n
  refine ⟨exec_senseRead_of_none, fun r hr => ⟨exec_senseRead_eq_mapDone hr, fun m ha ht hm hp he => ?_⟩⟩
  obtain ⟨t, hread, hsent⟩ := readSensor_ok (i := .senseRead n) hr (sensor_channel ha.2.2 hr) ht hm he
  rw [exec_senseRead]
  exact issue_transactionDone ha (sensorLegal_of hr hp) ht (adcOut_ne _) hread hsent

/-! ## Reads of supplies -/

/-- With the payload on the gate lets every name through (R225). -/
theorem sensorLegal_of_on {p : Power} (h : p ≠ .offOff) (b : Board) (n : SensorName) : sensorLegal b p n = true := by
  unfold sensorLegal
  split
  · rfl
  · rw [payloadOn_of h, Bool.or_true]

/-- An operation that the gate treats as a read of a supply, and whose body reads the sensor `n`, is `SENSE.READ` of it
where the payload is on (R107). -/
theorem issue_readSupply_eq_senseRead {i : Instr} {n : SensorName} {body : State → Run Int} {s : State}
    (hon : s.power ≠ .offOff) (hg : gateLegal s.board s.power i = s.power.payloadOn)
    (hb : body (s.begin i) = readSupply (some n) (s.begin i)) :
    issue i .value body s = exec (.senseRead n) s := by
  rw [exec_senseRead]
  refine issue_congr_all ?gate ?body
  case gate => exact (hg.trans (payloadOn_of hon)).trans (sensorLegal_of_on hon s.board n).symm
  case body =>
    rw [hb]
    exact readSensor_same n _ _

/-- Each of the six reads of a supply is `SENSE.READ` of the sensor the supply has for it (R247 to R249, R252 to R254). -/
theorem exec_supplyRead_eq_senseRead {i : Instr} {u : Supply} {n : SensorName} {s : State} (hon : s.power ≠ .offOff)
    (hi : (i = getMvOf u ∧ (s.board.supplySensors u).voltage = some n)
      ∨ (i = getMaOf u ∧ (s.board.supplySensors u).current = some n)) :
    exec i s = exec (.senseRead n) s := by
  rcases hi with ⟨rfl, hn⟩ | ⟨rfl, hn⟩
  · rw [exec_getMvOf]
    exact issue_readSupply_eq_senseRead hon (gateLegal_getMvOf _ _ u) (by rw [State.begin_board, hn])
  · rw [exec_getMaOf]
    exact issue_readSupply_eq_senseRead hon (gateLegal_getMaOf _ _ u) (by rw [State.begin_board, hn])

/-- Settles O40: each read is `SENSE.READ` of its sensor, which completes by O39. -/
theorem supplyReadsComplete : Obligations.SupplyReadsComplete := by
  intro s u i n hon hi
  have hread := exec_supplyRead_eq_senseRead hon hi
  refine ⟨hread, fun r m ha ht hr hm he => ?_⟩
  rw [hread]
  exact ((senseReadCompletes s n).2 r hr).2 m ha ht hm (.inr hon) he

/-- Settles O41: the gate refuses first, and the body refuses a supply without the sensor. -/
theorem missingSupplySensorRefused : Obligations.MissingSupplySensorRefused := by
  intro s u ha
  refine ⟨fun hoff => ⟨exec_gate ha.1 ?currentGate, exec_gate ha.1 ?voltageGate⟩, fun hon hn => ?current,
    fun hon hn => ?voltage⟩
  case currentGate => exact (gateLegal_getMaOf _ _ u).trans (off_of hoff)
  case voltageGate => exact (gateLegal_getMvOf _ _ u).trans (off_of hoff)
  case current =>
    rw [exec_getMaOf]
    exact issue_of_refuse ha ((gateLegal_getMaOf _ _ u).trans (payloadOn_of hon)) (by rw [State.begin_board, hn]; rfl)
  case voltage =>
    rw [exec_getMvOf]
    exact issue_of_refuse ha ((gateLegal_getMvOf _ _ u).trans (payloadOn_of hon)) (by rw [State.begin_board, hn]; rfl)

/-! ## Voltage sets that complete -/

/-- Settles O44: each set is the device operation of O42, which completes by O27 or O28; the counts fit their fields on a
well-formed board. -/
theorem voltageSetsComplete : Obligations.VoltageSetsComplete := by
  intro s mv ha ht he hon
  obtain ⟨hheater, htether, hcathode, hc0, hc, hk0, hk⟩ := voltageSetsExpand s mv _ _ ha hon rfl rfl
  refine ⟨?heater, ?tether, ?cathode⟩
  case heater =>
    rw [hheater]
    exact dpotWriteCompletes s _ _ ha ht he hon (BitVec.isLt _) (heaterWiper_lt ha.2.2 mv)
  case tether =>
    rw [htether]
    exact dacCommandsComplete s _ _ _ ha ht he hon (BitVec.isLt _) (by omega)
  case cathode =>
    rw [hcathode]
    exact dacCommandsComplete s _ _ _ ha ht he hon (BitVec.isLt _) (by omega)

/-! ## The clamp of a target -/

/-- A voltage set reads its target through `ClampTarget` alone (R243). -/
theorem exec_setMvOf_congr {u : Supply} {x y : Int} {s : State}
    (h : s.board.clampTarget u x = s.board.clampTarget u y) : exec (setMvOf x u) s = exec (setMvOf y u) s := by
  cases u with
  | heater =>
    have hw : s.board.heaterWiper x = s.board.heaterWiper y := by rw [Board.heaterWiper, h, Board.heaterWiper]
    rw [setMvOf, setMvOf, exec_heaterSetMv, exec_heaterSetMv]
    refine issue_congr_all rfl ?_
    rw [State.begin_board, State.begin_board, hw]
    exact dpotSend_begin _ _ _ _ s
  | tetherBias =>
    have hc : s.board.tetherCount x = s.board.tetherCount y := by rw [Board.tetherCount, h, Board.tetherCount]
    rw [setMvOf, setMvOf, exec_tetherSetMv, exec_tetherSetMv]
    refine issue_congr_all rfl ?_
    rw [State.begin_board, State.begin_board, hc]
    exact dacSet_begin _ _ _ _ s
  | cathodeOffset =>
    have hc : s.board.cathodeCount x = s.board.cathodeCount y := by rw [Board.cathodeCount, h, Board.cathodeCount]
    rw [setMvOf, setMvOf, exec_cathodeSetMv, exec_cathodeSetMv]
    refine issue_congr_all rfl ?_
    rw [State.begin_board, State.begin_board, hc]
    exact dacSet_begin _ _ _ _ s

/-- Settles O45: a clamped target passes the clamp unchanged. -/
theorem targetsAreClamped : Obligations.TargetsAreClamped := fun _ u mv ha =>
  exec_setMvOf_congr (clampTarget_clamped ha.2.2 u mv).symm

end Sys2Proof.Proofs
end

section
/-! PROOFS. The arithmetic of the test engine (45_test_engine_host.md R278, R279): the relative percent difference and the
running mean. -/

namespace Sys2Proof.Proofs

open Sys2Proof.Machine

/-! ## The relative percent difference -/

/-- Equal arguments have the difference 0, divided by 0 or not (R278). -/
theorem rpd_self (x : Rat) : rpd x x = 0 := by
  rw [rpd, sub_self, zero_div, ite_self]

/-- The triangle inequality: the difference is at most the sum of the absolute values it is divided by. -/
theorem abs_rpd_le_one (x y : Rat) : |rpd x y| ≤ 1 := by
  have hsum : 0 ≤ |x| + |y| := add_nonneg (abs_nonneg x) (abs_nonneg y)
  rw [rpd]
  split
  case isTrue => rw [abs_zero]; exact zero_le_one
  case isFalse =>
    rw [abs_div, abs_of_nonneg hsum]
    exact div_le_one_of_le₀ (abs_sub x y) hsum

/-- Settles O59: the bounds are those of the absolute value. -/
theorem rpdBounded : Obligations.RpdBounded := fun x y =>
  have ⟨hlow, hhigh⟩ := abs_le.mp (abs_rpd_le_one x y)
  ⟨rfl, hlow, hhigh, rpd_self x⟩

/-! ## The running mean -/

/-- The first sample replaces whatever the mean starts from. -/
theorem meanStep_first (avg v : Rat) : meanStep avg 0 v = v := by
  rw [meanStep, Nat.cast_zero, zero_add, div_one, add_sub_cancel]

/-- A sample equal to the mean leaves the mean as it is, however many samples came before. -/
theorem meanStep_self (v : Rat) (n : Nat) : meanStep v n v = v := by
  rw [meanStep, sub_self, zero_div, add_zero]

theorem meanFrom_cons (avg : Rat) (n : Nat) (x : Rat) (rest : List Rat) :
    meanFrom avg n (x :: rest) = meanFrom (meanStep avg n x) (n + 1) rest := rfl

/-- A mean that has come to `v` stays there under any number of samples `v`. -/
theorem meanFrom_replicate_self (v : Rat) (n k : Nat) : meanFrom v n (List.replicate k v) = v := by
  induction k generalizing n with
  | zero => rfl
  | succ k ih => rw [List.replicate_succ, meanFrom_cons, meanStep_self, ih]

/-- Settles O60: the first of the constant samples brings the mean to the constant, and the others keep it there. -/
theorem meanOfConstant : Obligations.MeanOfConstant := fun avg v n rest =>
  ⟨meanFrom_cons avg n v rest, by
    rw [List.replicate_succ, meanFrom_cons, meanStep_first, meanFrom_replicate_self]⟩

end Sys2Proof.Proofs
end

section
/-! PROOFS. What an error and `HostHalt` leave as it was (60_exceptions.md R296, R302, R303): after an error the power
state, the enable lines, the relays and the configuration are as before the operation; `HostHalt` writes `OPSTATE`
alone. -/

namespace Sys2Proof.Proofs

open Sys2Proof.Machine

/-! ## The configuration after a transaction that raises -/

/-- To apply the configuration of a bus at rest again, in whatever state, gives back its three registers (R122, R138). -/
theorem applyConfig_of_busAtRest {s : State} (hs : s.BusAtRest) (hb : s.busReady = true) (u : State) :
    (u.applyConfig s.cfg.val).cfg = s.cfg ∧ (u.applyConfig s.cfg.val).cfgCur = s.cfgCur
      ∧ (u.applyConfig s.cfg.val).sclk = s.sclk := by
  obtain ⟨hspec, hcur, hclk, -⟩ := hs hb
  rw [applyConfig_eq]
  exact ⟨written_of_specified hspec, hcur.symm, hclk.symm⟩

/-- A transaction whose device has the mode in force changes no configuration, and its transfers leave the clock at the
idle level they found (R135, R138). -/
theorem moved_of_mode_in_force {s u : State} {d : Dev} {m : Mode} {out : List Bool} (hs : s.BusAtRest)
    (hb : s.busReady = true) (hm : s.cfgCur.val = m) (hne : out ≠ []) (hu : Moved (s.opened d m) u out) :
    u.cfg = s.cfg ∧ u.cfgCur = s.cfgCur ∧ u.sclk = s.sclk := by
  obtain ⟨-, -, hclk, -⟩ := hs hb
  have hopen : s.opened d m = s.pinWrite (.cs d) false := by rw [State.opened, State.ensured, if_pos hm]
  rw [hopen] at hu
  have hcur : u.cfgCur = s.cfgCur := by rw [hu.only]; rfl
  exact ⟨hu.cfg, hcur, by rw [hu.sclk, if_neg hne]; exact hclk.symm⟩

/-- A transaction that raises ends with the configuration and the clock it began with (R138, R302): either its device's
mode was in force already, or the earlier configuration is applied again. -/
theorem closed_raised_config {s u : State} {d : Dev} {m : Mode} {out : List Bool} {e : BusError} (hs : s.BusAtRest)
    (hb : s.busReady = true) (hne : out ≠ []) (hu : Moved (s.opened d m) u out) :
    (s.closed d (.raised e) u).cfg = s.cfg ∧ (s.closed d (.raised e) u).cfgCur = s.cfgCur
      ∧ (s.closed d (.raised e) u).sclk = s.sclk := by
  obtain ⟨hspec, hcur, -⟩ := hs hb
  have hmode : u.cfgCur = Reg.written m := by rw [hu.only]; exact ensured_cfgCur ⟨hb, hspec, hcur⟩
  by_cases hm : s.cfgCur.val = m
  · have hclosed : s.closed d (.raised e) u = u.pinWrite (.cs d) true :=
      if_pos (by rw [State.pinWrite_cfgCur, hmode, hm]; rfl)
    have hkept := moved_of_mode_in_force hs hb hm hne hu
    rw [hclosed]
    exact hkept
  · have hclosed : s.closed d (.raised e) u = (u.pinWrite (.cs d) true).applyConfig s.cfg.val :=
      if_neg (by rw [State.pinWrite_cfgCur, hmode]; exact Ne.symm hm)
    rw [hclosed]
    exact applyConfig_of_busAtRest hs hb _

/-! ## The chip selects after a transaction -/

/-- A chip select that has gone low and high again is high, and the others are as before (R70). -/
theorem csReg_of_setCs {s t : State} {d : Dev} {v : Level} (h : t.cs = setCs d true (setCs d v s.cs)) (x : Dev) :
    t.csReg x = s.csReg x ∨ t.csReg x = Reg.written true := by
  by_cases hx : x = d
  · exact .inr (by simp [State.csReg, h, assoc_setCs, hx])
  · exact .inl (by simp [State.csReg, h, assoc_setCs, hx])

/-! ## Errors -/

/-- Settles O47: of the effects of an operation only a raw transfer and a device transaction raise. -/
theorem errorsLeaveControlAlone : Obligations.ErrorsLeaveControlAlone := by
  intro i s t e h hc
  cases (exec_effect h).2 with
  | init baud cfg hb => cases hc
  | quiet i r hn => cases hc
  | config i cfg hn hb => cases hc
  | power i l v p hn hi => cases hc
  | relay i r v hn hp => cases hc
  | raw i n d c hf h1 h32 hb hv =>
    refine ⟨rfl, rfl, rfl, rfl, rfl, rfl, rfl, rfl, rfl, fun hs => ?_, fun _ => .inl rfl⟩
    obtain ⟨-, -, hclk, -⟩ := hs hb
    exact ⟨rfl, rfl, hclk.symm⟩
  | device i f d m out c u hf hl hm hb hcs hcc hp hne hpre hfull hv hu =>
    obtain rfl : c = .raised e := Option.some.inj hc
    obtain ⟨hpow, hpay, hheat, hr0, hr1, hcon, hready, hscale, hsel, -⟩ := device_frame (c := .raised e) hu _ rfl
    exact ⟨rfl, hpow, hpay, hheat, hr0, hr1, hcon, hready, hscale, fun hs => closed_raised_config hs hb hne hu,
      csReg_of_setCs hsel⟩

/-! ## `HostHalt` -/

theorem betweenOps_of_idle {s : State} (ho : s.opstate = .idle) (k : Host.Outcome State Fault Refusal) :
    betweenOps s k = k := by
  rw [betweenOps, ho]

/-- Settles O49. -/
theorem hostHaltKeepsTheLines : Obligations.HostHaltKeepsTheLines := by
  intro s rest ho hs
  calc step s = hostHalt { s with script := rest } := step_of_script hs
    _ = .next { s with opstate := .halted, script := rest } := betweenOps_of_idle ho _

end Sys2Proof.Proofs
end

section
/-! PROOFS. Physical reset and construction (70_reset_and_hazards.md R320, R328): reset in every state and in the middle of
an operation, the boot sequence with what may not come before its end, and what every step keeps of the parameters and
of the pin trace (R45, R331). -/

namespace Sys2Proof.Proofs

open Sys2Proof.Machine

/-! ## Before construction -/

/-- Settles O53: the gate is checked before construction. -/
theorem nothingBeforeConstruction : Obligations.NothingBeforeConstruction := by
  intro i s ho hc hi
  exact ⟨fun hg => exec_of_admission_some hi (admission_of_not_constructed ho hg hc), exec_gate ho⟩

/-! ## The parameters -/

/-- `BUS.INIT` is the write of a configuration, and beside it the prescaler, where the block has one, and `BUS_READY`
(R121). -/
theorem initBus_eq (baud : Nat) (cfg : BusConfig) (s : State) :
    s.initBus baud cfg =
      { s.applyConfig cfg with
        busReady := true
        prescaler := match s.board.variant with
          | .softwareTimed => s.prescaler
          | .peripheralTimed => Reg.written (prescalerOf s.board.clockHz baud) } := by
  cases hv : s.board.variant <;> simp only [State.initBus, hv, applyConfig_eq]

theorem applyConfig_board (cfg : BusConfig) (s : State) : (s.applyConfig cfg).board = s.board := by rw [applyConfig_eq]

theorem initBus_board (baud : Nat) (cfg : BusConfig) (s : State) : (s.initBus baud cfg).board = s.board := by
  rw [initBus_eq]
  exact applyConfig_board cfg s

theorem effect_board {s t : State} {i : Instr} (h : Effect s i t) : t.board = s.board := by
  cases h with
  | init baud cfg hb => exact initBus_board baud cfg s
  | quiet i r he => rfl
  | config i cfg he hb => exact applyConfig_board cfg s
  | raw i n d c he h1 h32 hb hv => rfl
  | device i f d m out c u he hl hm hb hcs hcc hp hne hpre hfull hv hu =>
    obtain ⟨-, -, -, -, -, -, -, -, -, hboard, -⟩ := device_frame (c := c) hu _ rfl
    exact hboard
  | power i l v p he hi => exact s.pinWrite_board l v
  | relay i r v he hp => exact s.pinWrite_board (relayLine r) v

/-! ## The block in the middle of an operation -/

section Midway

variable (i : Instr) (evs : List Event) (s : State)

theorem midway_board : (s.midway i evs).board = s.board := by
  obtain ⟨hboard, -⟩ := happenAll_frame s.cfg.val.loopback evs s
  rw [midway_eq, hboard]

theorem midway_script : (s.midway i evs).script = s.script := by
  obtain ⟨-, hscript, -⟩ := happenAll_frame s.cfg.val.loopback evs s
  rw [midway_eq, hscript]

theorem midway_trace : (s.midway i evs).trace = s.trace ++ evs := by
  obtain ⟨-, -, -, -, -, htrace⟩ := happenAll_frame s.cfg.val.loopback evs s
  rw [midway_eq, htrace]

theorem midway_opstate :
    (s.midway i evs).opstate = .busy i (Position.after (transferBitsOf s.board i) (bitTimes evs)) := by
  rw [midway_eq]

theorem midway_csReg {d : Dev} {v : Level} (h : lastLevel (.cs d) evs = some v) :
    (s.midway i evs).csReg d = Reg.written v := by
  have hcs : (s.midway i evs).cs = (State.happenAll s.cfg.val.loopback evs s).cs := by rw [midway_eq]
  rw [csReg_congr hcs, happenAll_csReg, h]

end Midway

/-! ## Every step -/

/-- Settles O58: an operation and construction add events, the other steps but physical reset leave the trace. -/
theorem stepsKeepParametersAndExtendTheTrace : Obligations.StepsKeepParametersAndExtendTheTrace := by
  intro s t h
  rcases step_cases h with ⟨-, rfl, -⟩ | ⟨x, rest, hs, ⟨i, hi⟩ | ⟨-, -, -, -, rfl⟩ | ⟨-, -, rfl⟩ | ⟨-, rfl⟩ |
    ⟨rfl, rfl⟩ | ⟨i, k, u, rfl, -, rfl⟩⟩
  · exact ⟨rfl, fun _ _ => ⟨[], (List.append_nil _).symm⟩⟩
  · have heff := (exec_effect hi).2
    obtain ⟨evs, htrace, -⟩ := effect_trace heff
    exact ⟨(effect_board heff :), fun _ _ => ⟨evs, htrace⟩⟩
  · exact ⟨construct_board _, fun _ _ => ⟨_, construct_trace _⟩⟩
  · exact ⟨rfl, fun _ _ => ⟨[], (List.append_nil _).symm⟩⟩
  · exact ⟨rfl, fun _ _ => ⟨[], (List.append_nil _).symm⟩⟩
  · exact ⟨rfl, fun hreset _ => absurd hs (hreset rest)⟩
  · exact ⟨midway_board i _ _, fun _ hduring => absurd hs (hduring i k rest)⟩

/-! ## The boot sequence -/

theorem hostConstruct_of_ready {s : State} (ho : s.opstate = .idle) (hb : s.busReady = true)
    (hc : s.constructed = false) (hw : s.board.wf = true) : hostConstruct s = .next s.construct := by
  simp [hostConstruct, betweenOps, ho, hb, hc, hw]

theorem step_busInit_of_idle {s : State} {baud : Nat} {cfg : BusConfig} {rest : List HostStep}
    (hs : s.script = .issue (.busInit baud cfg) :: rest) (ho : s.opstate = .idle) (hb : s.busReady = false)
    (hw : s.board.wf = true) :
    step s = .next ((({ s with script := rest } : State).initBus baud cfg).ended (.done .unit)) := by
  rw [step_of_script hs]
  exact exec_busInit_of_idle (s := { s with script := rest }) ho hb hw baud cfg

theorem step_construct_of_ready {s : State} {rest : List HostStep} (hs : s.script = .construct :: rest)
    (ho : s.opstate = .idle) (hb : s.busReady = true) (hc : s.constructed = false) (hw : s.board.wf = true) :
    step s = .next ({ s with script := rest } : State).construct := by
  rw [step_of_script hs]
  exact hostConstruct_of_ready (s := { s with script := rest }) ho hb hc hw

theorem construct_csReg {s : State} {d : Dev} (hd : d ∈ s.board.devs) : s.construct.csReg d = Reg.written true := by
  rw [csReg_congr (construct_cs s), raiseCs_csReg, if_pos hd]

/-- The block after `BUS.INIT` from reset: the values of reset but for the bus (R46, R121). -/
theorem initBus_resetOn (b : Board) (baud : Nat) (cfg : BusConfig) (rest : List HostStep) :
    (({ State.resetOn b with script := rest } : State).initBus baud cfg).ended (.done .unit) =
      { State.resetOn b with
        script := rest, completion := some (.done .unit), busReady := true, cfg := Reg.written cfg
        cfgCur := Reg.written cfg.mode, sclk := Reg.written cfg.pol.idleLevel, trace := [.pin .sclk cfg.pol.idleLevel]
        swrst := match b.variant with
          | .softwareTimed => true
          | .peripheralTimed => false
        prescaler := match b.variant with
          | .softwareTimed => Reg.unspecified 0
          | .peripheralTimed => Reg.written (prescalerOf b.clockHz baud) } := by
  cases hv : b.variant <;> simp [initBus_eq, applyConfig_eq, State.ended, State.resetOn, hv]

/-- Settles O52: `BUS.INIT` writes the bus, construction writes the chip selects and the enable lines, and what neither
writes is as at reset. -/
theorem bootSequence : Obligations.BootSequence := by
  rintro b baud cfg rest s hw rfl
  have hinit := step_busInit_of_idle
    (s := { State.resetOn b with script := .issue (.busInit baud cfg) :: .construct :: rest }) rfl rfl rfl hw
  rw [initBus_resetOn] at hinit
  refine ⟨_, _, hinit, step_construct_of_ready rfl rfl rfl rfl hw, construct_trace _, construct_opstate _,
    construct_busReady _, construct_constructed _, construct_power _, construct_cfg _, construct_cfgCur _,
    construct_sclk _, fun d hd => construct_csReg hd, construct_payloadEn _, construct_heaterEn _, ?asAtReset⟩
  simp +contextual [State.FlagsAtRest, State.resetOn, Reg.unspecified]

/-! ## Physical reset -/

/-- Where the operation would answer a next state, its first events happen and reset follows (R12, R320). -/
theorem step_resetDuring {s u : State} {i : Instr} {k : Nat} {rest : List HostStep} {evs : List Event}
    (hs : s.script = .resetDuring i k :: rest) (hu : exec i { s with script := rest } = .next u)
    (ht : u.trace = s.trace ++ evs) :
    step s = .next (({ s with script := rest } : State).midway i (evs.take k)).physicalReset := by
  have hevs : u.trace.drop s.trace.length = evs := by rw [ht, List.drop_left]
  calc step s = hostResetDuring i k (exec i { s with script := rest }) { s with script := rest } := step_of_script hs
    _ = .next (({ s with script := rest } : State).midway i ((u.trace.drop s.trace.length).take k)).physicalReset := by
      rw [hu]; rfl
    _ = _ := by rw [hevs]

/-- Reset in the middle of an operation leaves what reset before it leaves, but for the answers used up (R320). -/
theorem physicalReset_midway (i : Instr) (evs : List Event) (s : State) :
    (s.midway i evs).physicalReset =
      { State.resetOn s.board with
        script := s.script, misoIn := (s.midway i evs).misoIn, misoDraws := (s.midway i evs).misoDraws
        errIn := (s.midway i evs).errIn, errDraws := (s.midway i evs).errDraws } := by
  rw [State.physicalReset, midway_board, midway_script]

/-! ## A raw transfer cut short -/

/-- A raw transfer that answers a next state has sent all its bits, whether or not it raises (R126, R129). -/
theorem exec_busXfer_next {n : Nat} {d : Word} {s u : State} (h : exec (.busXfer n d) s = .next u) :
    1 ≤ n ∧ n ≤ 32 ∧ ∃ c, u = (s.transferred n d).ended c := by
  rw [exec_busXfer] at h
  obtain ⟨-, -, hbody⟩ := issue_next h
  rcases transfer_cases n d (s.begin (.busXfer n d)) with ⟨r, -, ht⟩ | ht | ⟨hr, e, -, ht⟩ | ⟨hr, -, ht⟩ <;>
    rw [ht] at hbody
  case inl => simp at hbody
  case inr.inl => simp at hbody
  case inr.inr.inl =>
    obtain ⟨h1, h32⟩ := bitCountOk_of_transferRefusal hr
    obtain ⟨a, v, hok, -⟩ | ⟨e', v, hraise, rfl⟩ := hbody
    · cases hok
    · cases hraise
      exact ⟨h1, h32, .raised e, rfl⟩
  case inr.inr.inr =>
    obtain ⟨h1, h32⟩ := bitCountOk_of_transferRefusal hr
    obtain ⟨a, v, hok, rfl⟩ | ⟨e, v, hraise, -⟩ := hbody
    · cases hok
      exact ⟨h1, h32, _, rfl⟩
    · cases hraise

theorem transferEvents_length (m : Mode) (ts bs : List Bool) (h : ts.length = bs.length) :
    (transferEvents m ts bs).length = 4 * ts.length := by
  induction ts generalizing bs with
  | nil => rfl
  | cons t ts ih =>
    cases bs with
    | nil => simp at h
    | cons b bs =>
      have hrest := ih bs (by simpa using h)
      cases hp : m.pha <;> simp [transferEvents, bitEvents, hp, hrest] <;> omega

/-- The position of `BUS.XFER n` after `k` of its events: a bit is four events (R24, R96). -/
theorem position_busXfer {n : Nat} (h1 : 1 ≤ n) (h32 : n ≤ 32) (b : Board) (d : Word) (m : Mode) {ts bs : List Bool}
    (hts : ts.length = n) (hbs : bs.length = n) (k : Nat) :
    Position.after (transferBitsOf b (.busXfer n d)) (bitTimes ((transferEvents m ts bs).take k))
      = if k < 4 * n then ⟨0, k / 4⟩ else ⟨1, 0⟩ := by
  have hbits : transferBitsOf b (.busXfer n d) = [n] := by
    simp [transferBitsOf, encode, encodeRaw, bitCountOk_iff.2 ⟨h1, h32⟩, transferBits]
  have hlen := transferEvents_length m ts bs (hts.trans hbs.symm)
  have htimes := bitTimes_transferEvents m ts bs (hts.trans hbs.symm)
  rw [hts] at hlen htimes
  rw [hbits]
  by_cases hk : k < 4 * n
  · rw [htimes k hk.le, if_pos hk, Position.after, if_pos (by omega)]
  · have hall : (transferEvents m ts bs).take k = (transferEvents m ts bs).take (4 * n) := by
      rw [List.take_of_length_le (by omega), List.take_of_length_le (by omega)]
    have hn : 4 * n / 4 = n := by omega
    rw [hall, htimes _ le_rfl, if_neg hk, hn]
    simp [Position.after]

/-- `BUS.XFER n` cut after `k` of its events has drawn nothing before its last event, and after it what the whole
transfer draws (R24, R132). -/
theorem midway_busXfer {n : Nat} {d : Word} {s u : State} (hu : exec (.busXfer n d) s = .next u) {evs : List Event}
    (ht : u.trace = s.trace ++ evs) (k : Nat) :
    (s.midway (.busXfer n d) (evs.take k)).opstate = .busy (.busXfer n d) (if k < 4 * n then ⟨0, k / 4⟩ else ⟨1, 0⟩)
      ∧ (s.midway (.busXfer n d) (evs.take k)).errIn = (if k < 4 * n then s.errIn else u.errIn)
      ∧ (s.midway (.busXfer n d) (evs.take k)).errDraws = (if k < 4 * n then s.errDraws else u.errDraws) := by
  obtain ⟨h1, h32, c, rfl⟩ := exec_busXfer_next hu
  obtain rfl : evs = transferEvents s.cfg.val.mode (bitsOf n d) (s.samples s.cfg.val (bitsOf n d)) :=
    (List.append_cancel_left ht).symm
  have hpos := position_busXfer h1 h32 s.board d s.cfg.val.mode (bitsOf_length n d)
    ((samples_length s.cfg.val (bitsOf n d) s).trans (bitsOf_length n d)) k
  simp only [midway_eq, hpos, true_and]
  by_cases hk : k < 4 * n <;> cases hv : s.board.variant <;> simp [hk, State.ended, State.transferred, hv]

/-- Settles O50: reset between operations is the definition; in the middle of one, the block is `midway` first. -/
theorem physicalResetFromAnyState : Obligations.PhysicalResetFromAnyState := by
  intro s u i k rest evs mid
  refine ⟨fun hs => step_of_script hs, ?during⟩
  rintro hs hu ht rfl
  refine ⟨?reset, midway_opstate _ _ _, ?errIn, ?errDraws, ?raw, midway_trace _ _ _, fun d v => midway_csReg _ _ _⟩
  case reset => rw [step_resetDuring hs hu ht, physicalReset_midway]
  case errIn => exact congrArg State.errIn (midway_eq i (evs.take k) _)
  case errDraws => exact congrArg State.errDraws (midway_eq i (evs.take k) _)
  case raw =>
    rintro n d rfl
    exact midway_busXfer hu ht k

end Sys2Proof.Proofs
end
